-- ==== Sys2Proof/Word.lean ====
section
/-! DEFINITION. The word types of the machine and the value type of a binary32 sample. -/

namespace Sys2Proof

/-- A register, an operand, a command word or a byte address: `ADDR_W` = 32 bits (R7, R11). -/
abbrev Word := BitVec 32

/-- The bits of one 16-bit integer sample (R31). -/
abbrev Half := BitVec 16

/-- One byte of memory (R25). -/
abbrev Byte := BitVec 8

/-- One past the largest byte address (R25, R30). -/
abbrev addressLimit : Nat := 4294967296

/-- What a binary32 bit pattern means to the datapath (R70, R72). All NaN patterns are one value here,
because the sign and the fraction of a NaN result are unspecified (R72); every other pattern is exactly
one value. `fin neg e f`: sign, biased exponent 0 to 254, 23-bit fraction. -/
inductive F32 where
  | nan
  | inf (neg : Bool)
  | fin (neg : Bool) (e : Fin 255) (f : Fin 8388608)
deriving DecidableEq, Repr, Inhabited

/-- A block of 8 rows by 8 columns; the first index is the row (R9). -/
abbrev Block (α : Type) := Fin 8 → Fin 8 → α

end Sys2Proof
end

