-- ==== Sys2Proof/Config.lean ====
section
/-! DEFINITION. What the platform fixes and the spec leaves open (R7), and the free values.
Every `opaque` constant here has no body: nothing can evaluate it or prove a value of it. -/

namespace Sys2Proof

/-- An entry of the quantization matrix: an integer in 1..32767 (R17). -/
structure Divisor where
  val : Nat
  pos : 1 ≤ val
  le : val ≤ 32767
deriving DecidableEq, Repr

/-- The 8x8 quantization matrix `QTAB`, row by row (R9, R17). -/
abbrev QTab := Vector (Vector Divisor 8) 8

/-- A stretch of byte addresses: `size` of them from `base`. -/
structure Range where
  base : Nat
  size : Nat
deriving DecidableEq, Repr

/-- The numerics `NUM` of the float datapath: four total functions of their arguments alone (R74). A NaN
result is the one value `F32.nan`; its bits are drawn when it is stored (R72, R74). -/
structure Num where
  dct2d : Block F32 → Block F32
  idct2d : Block F32 → Block F32
  qdiv : F32 → Divisor → F32
  qmul : F32 → Divisor → F32
deriving Inhabited

/-- Which numerics the platform has (R74): the reference `NUM_REF`, fixed bit for bit, or another one, of
which nothing is known (`Config.otherNum`). -/
inductive NumChoice where
  | reference
  | other (k : Nat)
deriving DecidableEq, Repr, Inhabited

/-- What the platform fixes for the life of an engine and no command or host access can change (R17, R112,
R146 (1)). It stands in `State` as plain data, so that a statement about every state is a statement about
every platform. -/
structure Platform where
  qtab : QTab
  numerics : NumChoice
  memPop : List Range
  regBase : Nat
deriving DecidableEq, Repr

namespace Config

/-- Free value: the entry of `QTAB` less one, at row and column (R17, OPEN). -/
opaque qtabLessOne : Fin 8 → Fin 8 → Fin 32767

/-- Free value: the populated addresses `MEM_POP` of the platform at hand (R7, OPEN). -/
opaque memPop : List Range

/-- Free value: which numerics the platform at hand has (R7, R74, OPEN). -/
opaque numerics : NumChoice

/-- Free value: `REG_BASE` divided by 4 (R54, OPEN), such that seven words fit below 2^32. -/
opaque regBaseIndex : Fin 1073741818

/-- The numerics of an engine that is not `NUM_REF`: uninterpreted. A proof may assume of it only the named
properties of R81, as hypotheses. -/
opaque otherNum : Nat → Num

/-- Free value: the sign and the fraction less one of the NaN that draw `n` stores at an address (R72). -/
opaque freeNan : Nat → Nat → Bool × Fin 8388607

/-- Free value: the byte that draw `n` leaves at an address of the destination footprint of a command that a
reset abandons (R26, R145). -/
opaque freeByte : Nat → Nat → BitVec 8

/-- `TOL` (R7, R81): the source's example figure, 1e-4. -/
def tol : Rat := 1 / 10000

/-- `QTAB` of the platform at hand. -/
def qtab : QTab :=
  Vector.ofFn fun i => Vector.ofFn fun j =>
    ⟨(qtabLessOne i j).val + 1, by omega, by omega⟩

/-- The platform at hand: every constant of it is open. -/
def platform : Platform :=
  { qtab := qtab, numerics := numerics, memPop := memPop, regBase := 4 * regBaseIndex.val }

end Config

end Sys2Proof
end

