-- ==== Sys2Proof/Syntax.lean ====
section
/-! DEFINITION. The command set: the six rows of spec/opcode_table.json. -/

namespace Sys2Proof

/-- The six commands of R51, the whole command set (R57). A command word has no operand field: the operands
are the operand registers (R50, R52), so no constructor has an argument. -/
inductive Instr where
  /-- `DCT8X8` (R91): forward 2D DCT-II of every 8x8 block. -/
  | dct8x8
  /-- `IDCT8X8` (R92): inverse 2D transform of every 8x8 block. -/
  | idct8x8
  /-- `QNTF` (R106): float quantization in place. -/
  | qntf
  /-- `QNTS` (R107): integer quantization in place, rounded to nearest. -/
  | qnts
  /-- `DEQF` (R108): float dequantization in place. -/
  | deqf
  /-- `DEQS` (R109): integer dequantization in place. -/
  | deqs
deriving DecidableEq, Repr

end Sys2Proof
end

