-- ==== Sys2Proof/WellFormed.lean ====
section
/-! DEFINITION. The checks on what stands outside the machine: command words, commands, platforms. -/

namespace Sys2Proof

/-- A command word that is not reserved: `ZERO` (bits 31:3) is 0 and `OP` (bits 2:0) is 1 to 6 (R50, R51,
R53). -/
def commandWordWellFormed (w : Word) : Bool :=
  w.extractLsb' 3 29 == 0#29 && w.extractLsb' 0 3 != 0#3 && w.extractLsb' 0 3 != 7#3

/-- A command as syntax. No command carries an operand (R50, R52), so there is nothing in a term of `Instr`
that could be ill formed; the checks are those on the word above. -/
def Instr.wellFormed : Instr → Bool
  | .dct8x8 => true
  | .idct8x8 => true
  | .qntf => true
  | .qnts => true
  | .deqf => true
  | .deqs => true

/-- The register words of R54 that the platform's address map holds: seven words from `REG_BASE`. -/
def registerWindow (p : Platform) : Range := ⟨p.regBase, 28⟩

/-- Two ranges share no address. -/
def rangesApart (x y : Range) : Bool :=
  x.base + x.size ≤ y.base || y.base + y.size ≤ x.base || x.size == 0 || y.size == 0

/-- A platform as R54 and R30 want it: the register words aligned and inside the address space, the populated
ranges inside the address space and apart from the register words. The machine does not rest on it: it counts
no register word and no address past the top as populated, whatever the ranges say. -/
def platformWellFormed (p : Platform) : Bool :=
  p.regBase % 4 == 0 && decide (p.regBase + 28 ≤ addressLimit) &&
    p.memPop.all fun r => decide (r.base + r.size ≤ addressLimit) && rangesApart r (registerWindow p)

end Sys2Proof
end

