-- ==== Sys2Proof/Decode.lean ====
section
/-! DEFINITION. The command decoder and the encoder (R50 to R53). -/

namespace Sys2Proof

/-- Why a command word is reserved (R53). -/
inductive Reserved where
  /-- `OP` is 0. -/
  | opZero
  /-- `OP` is 7. -/
  | opSeven
  /-- A bit of 31:3 is set. -/
  | zeroFieldSet
deriving DecidableEq, Repr

/-- The operation code `OP` of a command word: bits 2:0 (R50). -/
def opField (w : Word) : BitVec 3 := w.extractLsb' 0 3

/-- The field `ZERO` of a command word: bits 31:3 (R50). -/
def zeroField (w : Word) : BitVec 29 := w.extractLsb' 3 29

/-- The decoder, total on words: a row of R51 or the reason of R53. -/
def decode (w : Word) : Except Reserved Instr :=
  if zeroField w ≠ 0#29 then .error .zeroFieldSet
  else if opField w = 1#3 then .ok .dct8x8
  else if opField w = 2#3 then .ok .idct8x8
  else if opField w = 3#3 then .ok .qntf
  else if opField w = 4#3 then .ok .qnts
  else if opField w = 5#3 then .ok .deqf
  else if opField w = 6#3 then .ok .deqs
  else if opField w = 0#3 then .error .opZero
  else .error .opSeven

/-- The command word of a command: the column `match` of R51. -/
def encode : Instr → Word
  | .dct8x8 => 0x00000001#32
  | .idct8x8 => 0x00000002#32
  | .qntf => 0x00000003#32
  | .qnts => 0x00000004#32
  | .deqf => 0x00000005#32
  | .deqs => 0x00000006#32

/-- What the decoder reads from a table word of `nbits` bits. The one command word is a register value (R50),
so it is handed to the decoder as a number; a longer word is no command. -/
def decodeTableWord (nbits w : Nat) : Option Instr :=
  let v := w % 2 ^ nbits
  if v < addressLimit then
    match decode (BitVec.ofNat 32 v) with
    | .ok i => some i
    | .error _ => none
  else none

end Sys2Proof
end

