-- ==== Sys2Proof/Machine/State.lean ====
section
/-! DEFINITION. The state of the machine, the reasons it stops, and the state after reset. -/

namespace Sys2Proof.Machine

/-- The content of an operand register (R11, R12). -/
inductive Operand where
  /-- `⊥`: nothing has written the register since reset. This is the spec's own reset value (R12, R26), and N8 says to
  assume no other. -/
  | unwritten
  /-- The register holds an unsigned 32-bit value. -/
  | holds (w : Word)
deriving DecidableEq, Repr

/-- The state of one engine (R10, R20, R132). -/
structure Engine where
  /-- Register 0, `SRC` (R11). -/
  src : Operand
  /-- Register 1, `DST` (R11). -/
  dst : Operand
  /-- Register 2, `STRIDE` (R11). -/
  stride : Operand
  /-- Register 3, `ROI_W` (R11). -/
  roiW : Operand
  /-- Register 4, `ROI_H` (R11). -/
  roiH : Operand
  /-- `STATUS` bit 0 (R14): a command is running. -/
  busy : Bool
  /-- `STATUS` bit 1 (R14): a command has completed since the last launch or reset. -/
  done : Bool
  /-- The command word that was launched (R20); of no effect and not readable while `busy` is false. -/
  command : Word
deriving DecidableEq, Repr

/-- What the world outside the engine does next: the host's accesses (R21, R22, R54, R55), another agent's
accesses to memory (R25, R45), reset (R145), and the moments at which the engine moves (R24, R148). The
state's list of events says which moves next, so every interleaving of host and engine is some list. -/
inductive Event where
  /-- `WR n, v`: the host writes register `n` (R21, R55). -/
  | regWrite (n : Nat) (v : Word)
  /-- `RD n`: the host reads register `n` (R22, R55). -/
  | regRead (n : Nat)
  /-- `WAIT`: the host reads `STATUS` until `DONE` reads 1 (R55). -/
  | wait
  /-- A 32-bit store by byte address: a register word of R54, or four bytes of memory. -/
  | busStore (a v : Word)
  /-- A 32-bit load by byte address: a register word of R54, or four bytes of memory. -/
  | busLoad (a : Word)
  /-- The host or another agent writes one byte of memory (R25). -/
  | storeByte (a : Word) (b : Byte)
  /-- The host or another agent reads one byte of memory (R25). -/
  | loadByte (a : Word)
  /-- The engine moves: completion if a command is running (R24), else nothing (R133). -/
  | engineTurn
  /-- The events that follow concern engine `k` of the other engines (R132): it changes places with the
  engine at hand. -/
  | select (k : Nat)
  /-- The reset of the engine at hand (R145). -/
  | reset
deriving DecidableEq, Repr

/-- What a read gave the host (R22, R25). -/
inductive Reply where
  | word (w : Word)
  | byte (b : Byte)
deriving DecidableEq, Repr

/-- `MEM` (R25) as a list of address and byte, addresses strictly rising and no entry equal to what an
unlisted address reads as (see `Memory.wf` in Machine/Ops.lean). -/
abbrev Memory := List Host.Cell

/-- The whole machine: the engine at hand, the platform's other engines (R132), the memory they share, the
platform's constants, what happens next, what the host has read, and the count of free values drawn. -/
structure State where
  engine : Engine
  others : List Engine
  mem : Memory
  platform : Platform
  events : List Event
  replies : List Reply
  draws : Nat
deriving DecidableEq, Repr

/-- A stop with a fault. The engine itself raises none (R125). -/
inductive Fault where
  /-- Raised by the memory accesses of the host and of other agents (never by a command) at an address where
  the platform has no memory (R25, R30). Safe: the machine stops where the spec gives no effect. -/
  | hostAccessOutsideMemory
deriving DecidableEq, Repr

/-- A stop without meaning: the run has left the caller contract of R126. Every constructor but the first is
one row of R126 or a register access R54 leaves undefined. All are safe: nothing more can be proved of the
run. A refused run takes no further step, which is the mark that R126 says no later step clears. -/
inductive Refusal where
  /-- Raised only by an arm of `exec` that has no meaning yet. Safe. -/
  | notModelled (mnemonic : String)
  /-- `PV1`, by a launch or a command: the width or the height is no multiple of 8. Safe. -/
  | pv1RoiNotMultipleOf8
  /-- `PV2`, by a launch or a command: the stride is below the width. Safe. -/
  | pv2StrideBelowWidth
  /-- `PV3`, by a launch or a command: a pointer it reads is 0. Safe. -/
  | pv3NullPointer
  /-- `PV4`, by a launch or a command: two different pointers whose footprints share a byte. Safe. -/
  | pv4PartialOverlap
  /-- `PV5`, by a launch or a command: a pointer it reads is no multiple of the sample size. Safe. -/
  | pv5MisalignedPointer
  /-- `PV6`, by a launch or a command: a footprint passes 2^32 or leaves `MEM_POP`. Safe. -/
  | pv6OutsideMemory
  /-- `PV7`, by a launch: a reserved command word. Safe. -/
  | pv7ReservedCommand
  /-- `PV8`, by a register write while `BUSY` is 1. Safe. -/
  | pv8WriteWhileBusy
  /-- `PV9`, by a launch, a command or a host read that reads an operand register holding `⊥`: R12 ("A launch that reads
  such a register, or a host read of it, is `violate PV9`. A model must not pick zero or any other value for it"), R126, U9
  (`refuse`); vectors V2, V4, V6. Safe. -/
  | pv9UnwrittenOperand
  /-- `PV10`, by `DEQS`: a product does not fit 16 bits. Safe. -/
  | pv10ProductOutOfRange
  /-- `PV11`, by an access, of another agent or of another engine, to the buffers of a running command. Safe. -/
  | pv11BufferTouchedWhileBusy
  /-- `PV12`, by a register access outside the map: a number above 6, a write of `STATUS`, a read of `CMD`.
  Safe. -/
  | pv12OutsideRegisterMap
  /-- By a bus access that touches a register word of R54 and is not that whole word ("only whole-word
  accesses are defined"). Safe. -/
  | partialRegisterAccess
deriving DecidableEq, Repr

/-- One engine after reset (R26): the operand registers unwritten, `BUSY` and `DONE` 0. The command word in
flight is 0 (DESIGN CHOICE, log 4: not observable while `BUSY` is 0). -/
def Engine.afterReset : Engine :=
  { src := .unwritten, dst := .unwritten, stride := .unwritten, roiW := .unwritten, roiH := .unwritten,
    busy := false, done := false, command := 0#32 }

/-- The machine right after reset (R26): one engine (`N_ENGINES` = 1, R7), memory with nothing listed, the
platform's open constants, and nothing outside the engine asked for yet. -/
def State.reset : State :=
  { engine := Engine.afterReset, others := [], mem := [], platform := Config.platform,
    events := [], replies := [], draws := 0 }

end Sys2Proof.Machine
end

