-- ==== Sys2Proof/Machine/Ops.lean ====
section
/-! DEFINITION. The named operations: memory, plane regions, registers, and the parts of a state update.
The engine takes no exception and returns from none (R125, R128), so no operation of that kind exists; a breach
of the caller contract ends in `violate`. -/

namespace Sys2Proof.Machine

/-- A breach of the caller contract: the run has no meaning from here on (R8, R126). -/
def violate (r : Refusal) : Host.Outcome State Fault Refusal := .refused r

/-! ### Memory -/

/-- What an address that is not listed reads as (DESIGN CHOICE, log 2). -/
def unlistedByte : Byte := 0#8

/-- The byte at an address. -/
def Memory.read : Memory → Nat → Byte
  | [], _ => unlistedByte
  | (k, b) :: rest, a => if k = a then b else Memory.read rest a

/-- Memory with one byte written; the canonical form is kept. -/
def Memory.write : Memory → Nat → Byte → Memory
  | [], a, b => if b = unlistedByte then [] else [(a, b)]
  | (k, c) :: rest, a, b =>
    if a < k then (if b = unlistedByte then (k, c) :: rest else (a, b) :: (k, c) :: rest)
    else if a = k then (if b = unlistedByte then rest else (a, b) :: rest)
    else (k, c) :: Memory.write rest a b

/-- Memory with a list of bytes written, the first of the list first. -/
def Memory.writeAll (m : Memory) (cells : List Host.Cell) : Memory :=
  cells.foldl (fun m c => Memory.write m c.1 c.2) m

/-- The canonical form: addresses strictly rising, and no entry that equals what an unlisted address reads as. -/
abbrev Memory.wf (m : Memory) : Prop :=
  m.Pairwise (fun c d => c.1 < d.1) ∧ ∀ c ∈ m, c.2 ≠ unlistedByte

/-- Every listed address is an address of the 32-bit space (R25, R30). -/
abbrev Memory.inSpace (m : Memory) : Prop := ∀ c ∈ m, c.1 < addressLimit

/-- `MemRead(a, 4)`: little-endian (R8, R32). -/
def Memory.read32 (m : Memory) (a : Nat) : Word :=
  m.read (a + 3) ++ m.read (a + 2) ++ m.read (a + 1) ++ m.read a

/-- `MemRead(a, 2)`: little-endian (R8, R32). -/
def Memory.read16 (m : Memory) (a : Nat) : Half := m.read (a + 1) ++ m.read a

/-- The bytes that `MemWrite(a, 4, w)` stores (R8, R32). -/
def cells32 (a : Nat) (w : Word) : List Host.Cell :=
  [(a, w.extractLsb' 0 8), (a + 1, w.extractLsb' 8 8), (a + 2, w.extractLsb' 16 8), (a + 3, w.extractLsb' 24 8)]

/-- The bytes that `MemWrite(a, 2, h)` stores (R8, R32). -/
def cells16 (a : Nat) (h : Half) : List Host.Cell :=
  [(a, h.extractLsb' 0 8), (a + 1, h.extractLsb' 8 8)]

/-! ### The platform's addresses -/

/-- An address lies in the register words of R54. -/
def inRegisterWindow (p : Platform) (a : Nat) : Bool := decide (p.regBase ≤ a) && decide (a < p.regBase + 28)

/-- An address of `MEM_POP` (R7, R25): in a populated range, inside the 32-bit space, and no byte of a register
word ("The register words are not part of `MEM_POP`", R54). -/
def populated (p : Platform) (a : Nat) : Bool :=
  decide (a < addressLimit) && !inRegisterWindow p a &&
    p.memPop.any fun r => decide (r.base ≤ a) && decide (a < r.base + r.size)

/-- The register whose word lies at a byte address (R54), if one does. -/
def registerAt (p : Platform) (a : Nat) : Option Nat :=
  if p.regBase ≤ a ∧ a < p.regBase + 28 ∧ (a - p.regBase) % 4 = 0 then some ((a - p.regBase) / 4) else none

/-! ### Plane regions -/

/-- A plane region as a command sees it: base pointer, stride, width and height in samples, and the size of a
sample in bytes (R11, R31, R33). Unbounded numbers: R33 computes addresses without wrapping. -/
structure Region where
  base : Nat
  stride : Nat
  width : Nat
  height : Nat
  size : Nat
deriving DecidableEq, Repr

/-- `addr(A, r, c)` of R33, the only addressing mode. -/
def Region.addr (g : Region) (r c : Nat) : Nat := g.base + g.size * (r * g.stride + c)

/-- The footprint is empty (R34). -/
def Region.isEmpty (g : Region) : Bool := g.width == 0 || g.height == 0

/-- The bytes of one row of the footprint (R34). -/
def Region.rowBytes (g : Region) (r : Nat) : List Nat :=
  (List.range (g.size * g.width)).map fun k => g.addr r 0 + k

/-- The bytes of the footprint `FP`, row by row (R34). -/
def Region.bytes (g : Region) : List Nat := (List.range g.height).flatMap g.rowBytes

/-- An address lies in row `r` of the footprint. -/
def Region.rowContains (g : Region) (r a : Nat) : Bool :=
  decide (g.addr r 0 ≤ a) && decide (a < g.addr r 0 + g.size * g.width)

/-- An address lies in the footprint (R34). -/
def Region.contains (g : Region) (a : Nat) : Bool := (List.range g.height).any fun r => g.rowContains r a

/-- Row `r` of one footprint and row `q` of another share a byte. -/
def Region.rowsMeet (g h : Region) (r q : Nat) : Bool :=
  decide (g.addr r 0 < h.addr q 0 + h.size * h.width) && decide (h.addr q 0 < g.addr r 0 + g.size * g.width)

/-- Two footprints share a byte (R40, R45). -/
def Region.meets (g h : Region) : Bool :=
  !g.isEmpty && !h.isEmpty &&
    (List.range g.height).any fun r => (List.range h.height).any fun q => g.rowsMeet h r q

/-- The bound of R38: an empty footprint, or one that does not pass 2^32 and lies inside `MEM_POP`. -/
def Region.inMemory (p : Platform) (g : Region) : Bool :=
  g.isEmpty ||
    (decide (g.base + g.size * ((g.height - 1) * g.stride + g.width) ≤ addressLimit) &&
      (List.range g.height).all fun r => (g.rowBytes r).all (populated p))

/-- The blocks `(by, bx)` of the tiling of R35. -/
def Region.blocks (g : Region) : List (Nat × Nat) :=
  (List.range (g.height / 8)).flatMap fun y => (List.range (g.width / 8)).map fun x => (y, x)

/-- The eight positions of a row or a column of a block. -/
def eight : List (Fin 8) := [0, 1, 2, 3, 4, 5, 6, 7]

/-- The 64 positions `(i, j)` of a block, row by row. -/
def positions : List (Fin 8 × Fin 8) := eight.flatMap fun i => eight.map fun j => (i, j)

/-- The address of position `(i, j)` of block `(y, x)` (R35). -/
def Region.blockAddr (g : Region) (y x : Nat) (i j : Fin 8) : Nat := g.addr (8 * y + i.val) (8 * x + j.val)

/-- All the bytes a command stores: `cells y x i j a` are those of position `(i, j)` of block `(y, x)`, whose
sample lies at `a`; the blocks in the order of the list (R42, R90, R105). -/
def blockCells (g : Region) (blocks : List (Nat × Nat))
    (cells : Nat → Nat → Fin 8 → Fin 8 → Nat → List Host.Cell) : List Host.Cell :=
  blocks.flatMap fun b => positions.flatMap fun p =>
    cells b.1 b.2 p.1 p.2 (g.blockAddr b.1 b.2 p.1 p.2)

/-! ### Registers -/

/-- The content of operand register `n`, for `n` in 0..4 (R11). -/
def Engine.operand (e : Engine) (n : Nat) : Operand :=
  match n with
  | 0 => e.src
  | 1 => e.dst
  | 2 => e.stride
  | 3 => e.roiW
  | 4 => e.roiH
  | _ => .unwritten

/-- The engine with operand register `n` written, for `n` in 0..4 (R11); no other number is one. -/
def Engine.setOperand (e : Engine) (n : Nat) (v : Word) : Engine :=
  match n with
  | 0 => { e with src := .holds v }
  | 1 => { e with dst := .holds v }
  | 2 => { e with stride := .holds v }
  | 3 => { e with roiW := .holds v }
  | 4 => { e with roiH := .holds v }
  | _ => e

/-! ### Parts of a state update -/

/-- The outcome with its next state, if it has one, changed by `f`. -/
def onNext (o : Host.Outcome State Fault Refusal) (f : State → State) : Host.Outcome State Fault Refusal :=
  match o with
  | .next t => .next (f t)
  | .fault r => .fault r
  | .refused r => .refused r

/-- The state with another engine at hand. -/
def State.withEngine (s : State) (e : Engine) : State := { s with engine := e }

/-- The state with another memory. -/
def State.withMem (s : State) (m : Memory) : State := { s with mem := m }

/-- The state with another list of events. -/
def State.withEvents (s : State) (es : List Event) : State := { s with events := es }

/-- The state after a read gave the host `r`; the newest reply stands first. -/
def State.withReply (s : State) (r : Reply) : State := { s with replies := r :: s.replies }

/-- The state after one free value was drawn. -/
def State.afterDraw (s : State) : State := { s with draws := s.draws + 1 }

/-- The engine at hand changes places with number `k` of the others (R132); nothing if there is no such one. -/
def State.selectEngine (s : State) (k : Nat) : State :=
  match s.others[k]? with
  | some e => { s with engine := e, others := s.others.set k s.engine }
  | none => s

end Sys2Proof.Machine
end

