-- ==== Sys2Proof/Machine/Flags.lean ====
section
/-! DEFINITION. `STATUS` and its two bits. The engine has no condition code, no arithmetic flag, no exception
flag and no error code (R16, R73): no command computes a flag, and `BUSY` and `DONE` are all there is. -/

namespace Sys2Proof.Machine

/-- What a read of `STATUS` returns: bit 1 `DONE`, bit 0 `BUSY`, bits 31:2 zero (R14, R22). -/
def statusWord (e : Engine) : Word := (BitVec.ofBool e.done ++ BitVec.ofBool e.busy).setWidth 32

/-- `BUSY <- 1`, `DONE <- 0`, and the command word in flight (R20, R23). -/
def Engine.launched (e : Engine) (w : Word) : Engine := { e with busy := true, done := false, command := w }

/-- `BUSY <- 0`, `DONE <- 1` (R24). -/
def Engine.completed (e : Engine) : Engine := { e with busy := false, done := true }

end Sys2Proof.Machine
end

