-- ==== Sys2Proof/Machine/Operands.lean ====
section
/-! DEFINITION. The operands of a command and the caller contract on them (R23, R36 to R40, R52, R126). -/

namespace Sys2Proof.Machine

/-- Which pointers a command reads (R39, R52). -/
inductive Shape where
  /-- Source and destination: `SRC` and `DST`. -/
  | twoBuffer
  /-- One in-place buffer: `DST`. -/
  | inPlace
deriving DecidableEq, Repr

/-- The buffers of each command (R52). -/
def shapeOf : Instr → Shape
  | .dct8x8 => .twoBuffer
  | .idct8x8 => .twoBuffer
  | .qntf => .inPlace
  | .qnts => .inPlace
  | .deqf => .inPlace
  | .deqs => .inPlace

/-- `SZ(op)`: the bytes of one sample of each command (R31). -/
def sampleSize : Instr → Nat
  | .dct8x8 => 4
  | .idct8x8 => 4
  | .qntf => 4
  | .qnts => 2
  | .deqf => 4
  | .deqs => 2

/-- The two regions a command works on; an in-place command reads and writes the same one (R39). -/
structure Launch where
  src : Region
  dst : Region
deriving DecidableEq, Repr

/-- The regions that the operand registers give a command; none if a register it reads holds `⊥` (`PV9`, R23,
R52). -/
def launchOf (i : Instr) (e : Engine) : Option Launch :=
  match e.dst, e.stride, e.roiW, e.roiH with
  | .holds d, .holds s, .holds w, .holds h =>
    let region (a : Word) : Region := ⟨a.toNat, s.toNat, w.toNat, h.toNat, sampleSize i⟩
    match shapeOf i, e.src with
    | .inPlace, _ => some ⟨region d, region d⟩
    | .twoBuffer, .holds a => some ⟨region a, region d⟩
    | .twoBuffer, .unwritten => none
  | _, _, _, _ => none

/-- The clauses `PV1` to `PV6` of R126 on the operands: the first one broken, or none. There is no priority
among them (R129). -/
def Launch.violation (p : Platform) (l : Launch) : Option Refusal :=
  if l.dst.width % 8 ≠ 0 ∨ l.dst.height % 8 ≠ 0 then some .pv1RoiNotMultipleOf8
  else if l.dst.stride < l.dst.width then some .pv2StrideBelowWidth
  else if l.src.base = 0 ∨ l.dst.base = 0 then some .pv3NullPointer
  else if l.src.base % l.src.size ≠ 0 ∨ l.dst.base % l.dst.size ≠ 0 then some .pv5MisalignedPointer
  else if !l.src.inMemory p || !l.dst.inMemory p then some .pv6OutsideMemory
  else if l.src.base ≠ l.dst.base ∧ l.src.meets l.dst then some .pv4PartialOverlap
  else none

/-- The command that an engine is running, as its regions; none if it runs none. -/
def Engine.running (e : Engine) : Option Launch :=
  if e.busy then
    match decode e.command with
    | .ok i => launchOf i e
    | .error _ => none
  else none

/-- One of two commands writes a byte that the other reads or writes (R45, R132). -/
def Launch.conflicts (l m : Launch) : Bool :=
  l.dst.meets m.src || l.dst.meets m.dst || l.src.meets m.dst

/-- The command conflicts with one that another engine is running (`PV11`, R45). -/
def othersConflict (s : State) (l : Launch) : Bool :=
  s.others.any fun e =>
    match e.running with
    | some m => l.conflicts m
    | none => false

/-- An access of another agent to one byte breaks `PV11` against some running command: a write into its source
or destination footprint, or a read of its destination footprint (R126, `BUSY` = 1). Once the command has completed, its
bytes are there for every access, also before any `STATUS` read has returned `DONE` = 1 (DESIGN CHOICE, log 20: R43 and
HZ3 of R147 promise the results only after that read). -/
def touchesRunning (s : State) (write : Bool) (a : Nat) : Bool :=
  (s.engine :: s.others).any fun e =>
    match e.running with
    | some m => m.dst.contains a || (write && m.src.contains a)
    | none => false

/-- Run the effect of a command on the operands that the engine at hand holds, once the contract of R126 is met:
operand registers written (`PV9`: R12, R23), `PV1` to `PV6`, and no other engine's running command in the way (`PV11`). The
launch has checked all but the last already; that they are checked again here is log 10. -/
def runCommand (i : Instr) (s : State) (effect : Launch → Host.Outcome State Fault Refusal) :
    Host.Outcome State Fault Refusal :=
  match launchOf i s.engine with
  | none => violate .pv9UnwrittenOperand
  | some l =>
    match l.violation s.platform with
    | some r => violate r
    | none => if othersConflict s l then violate .pv11BufferTouchedWhileBusy else effect l

/-- Completion (R24) with the command's memory: `BUSY <- 0`, `DONE <- 1`, nothing else but memory changed. -/
def complete (s : State) (m : Memory) : State := (s.withMem m).withEngine s.engine.completed

end Sys2Proof.Machine
end

