-- ==== Sys2Proof/Machine/Binary32.lean ====
section
/-! DEFINITION. IEEE 754 binary32: the format (R70) and the three operations of the float datapath (R71, R72). No
flag is recorded and nothing traps (R73). -/

namespace Sys2Proof.Machine

/-- The value that 32 bits stand for (R70). -/
def f32OfBits (w : Word) : F32 :=
  let neg := w.toNat / 2147483648 == 1
  let e := w.toNat / 8388608 % 256
  let f := w.toNat % 8388608
  if h : e < 255 then .fin neg ⟨e, h⟩ ⟨f, Nat.mod_lt _ (by decide)⟩
  else if f = 0 then .inf neg
  else .nan

/-- The bits of a value (R70); the bits of a NaN are `nanBits`. -/
def f32ToBits (nanBits : Word) : F32 → Word
  | .nan => nanBits
  | .inf neg => BitVec.ofNat 32 (neg.toNat * 2147483648 + 255 * 8388608)
  | .fin neg e f => BitVec.ofNat 32 (neg.toNat * 2147483648 + e.val * 8388608 + f.val)

/-- A NaN encoding: any sign, exponent 255, any fraction but 0 (R70, R72). -/
def nanWord (d : Bool × Fin 8388607) : Word :=
  BitVec.ofNat 32 (d.1.toNat * 2147483648 + 255 * 8388608 + (d.2.val + 1))

/-- The significand of a finite value as an integer: `f`, or `2^23 + f` if the value is normal (R70). -/
def significand (e : Fin 255) (f : Fin 8388608) : Nat := if e.val = 0 then f.val else 8388608 + f.val

/-- The power of two that goes with the significand (R70). -/
def ulpExponent (e : Fin 255) : Int := ((max e.val 1 : Nat) : Int) - 150

/-- The rational value of a finite binary32 value (R70); 0 for the others, which have none. -/
def f32ToRat : F32 → Rat
  | .nan => 0
  | .inf _ => 0
  | .fin neg e f => (if neg then -1 else 1) * (significand e f : Rat) * (2 : Rat) ^ ulpExponent e

/-- Neither NaN nor infinite. -/
def f32IsFinite : F32 → Bool
  | .nan => false
  | .inf _ => false
  | .fin _ _ _ => true

/-- The sign bit (R70); a NaN has none that the spec fixes. -/
def f32IsNeg : F32 → Bool
  | .nan => false
  | .inf neg => neg
  | .fin neg _ _ => neg

/-- The value whose exponent and fraction fields, read as one number, are `n`; past the largest finite value it
is infinity (R71: "Overflow gives an infinity of the right sign"). -/
def f32OfMagnitude (neg : Bool) (n : Nat) : F32 :=
  if h : n < 2139095040 then
    .fin neg ⟨n / 8388608, Nat.div_lt_of_lt_mul (by omega)⟩ ⟨n % 8388608, Nat.mod_lt _ (by decide)⟩
  else .inf neg

/-- `m / 2^d` rounded to the nearest integer, ties to even. -/
def shiftRoundEven (m d : Nat) : Nat :=
  let q := m / 2 ^ d
  let r := m % 2 ^ d
  if 2 * r > 2 ^ d || (2 * r == 2 ^ d && q % 2 == 1) then q + 1 else q

/-- The binary32 value nearest to `(-1)^neg * m * 2^x`, ties to even, with gradual underflow (R71). The unit in
the last place is `2^u`; a significand rounded up to `2^24` carries into the exponent field by itself. -/
def roundToF32 (neg : Bool) (m : Nat) (x : Int) : F32 :=
  if m = 0 then .fin neg 0 0
  else
    let u : Int := max ((Nat.log2 m : Nat) + x - 23) (-149)
    let n := if u ≤ x then m * 2 ^ (x - u).toNat else shiftRoundEven m (u - x).toNat
    f32OfMagnitude neg ((u + 149).toNat * 8388608 + n)

/-- A sign and a magnitude as an integer. -/
def signedInt (neg : Bool) (m : Nat) : Int := if neg then -(m : Int) else m

/-- `fadd` (R71, R72). -/
def fadd : F32 → F32 → F32
  | .nan, _ => .nan
  | .inf _, .nan => .nan
  | .inf s, .inf t => if s = t then .inf s else .nan
  | .inf s, .fin _ _ _ => .inf s
  | .fin _ _ _, .nan => .nan
  | .fin _ _ _, .inf t => .inf t
  | .fin s e f, .fin t e' f' =>
    let x := min (ulpExponent e) (ulpExponent e')
    let sum := signedInt s (significand e f * 2 ^ (ulpExponent e - x).toNat) +
      signedInt t (significand e' f' * 2 ^ (ulpExponent e' - x).toNat)
    if sum = 0 then .fin (s && t) 0 0 else roundToF32 (decide (sum < 0)) sum.natAbs x

/-- `fmul` (R71, R72). -/
def fmul : F32 → F32 → F32
  | .nan, _ => .nan
  | .inf _, .nan => .nan
  | .inf s, .inf t => .inf (s != t)
  | .inf s, .fin t e f => if significand e f = 0 then .nan else .inf (s != t)
  | .fin _ _ _, .nan => .nan
  | .fin s e f, .inf t => if significand e f = 0 then .nan else .inf (s != t)
  | .fin s e f, .fin t e' f' =>
    roundToF32 (s != t) (significand e f * significand e' f') (ulpExponent e + ulpExponent e')

/-- The bits of a quotient kept below the significand before it is rounded: enough that the dropped part, put
in as one sticky bit, cannot change the rounding. -/
def quotientBits : Nat := 50

/-- `fdiv` (R71, R72). Division of a finite value other than zero by zero is the IEEE infinity; no command
divides by zero (R73). -/
def fdiv : F32 → F32 → F32
  | .nan, _ => .nan
  | .inf _, .nan => .nan
  | .inf _, .inf _ => .nan
  | .inf s, .fin t _ _ => .inf (s != t)
  | .fin _ _ _, .nan => .nan
  | .fin s _ _, .inf t => .fin (s != t) 0 0
  | .fin s e f, .fin t e' f' =>
    if significand e' f' = 0 then (if significand e f = 0 then .nan else .inf (s != t))
    else
      let n := significand e f * 2 ^ quotientBits
      let d := significand e' f'
      roundToF32 (s != t) (2 * (n / d) + (if n % d = 0 then 0 else 1))
        (ulpExponent e - ulpExponent e' - quotientBits - 1)

/-- `f32_of_int(q)` (R80): exact, because `q < 2^24`. -/
def f32OfInt (q : Divisor) : F32 := roundToF32 false q.val 0

end Sys2Proof.Machine
end

