-- ==== Sys2Proof/Machine/Numerics.lean ====
section
/-! DEFINITION. The reference numerics `NUM_REF` (R75 to R80), the choice of numerics (R74), and the integer
rounding `QRND` (R84). -/

namespace Sys2Proof.Machine

/-- Rows 0 to 3 of `CF` (R75). -/
def basisRowsLow : List (List Word) :=
  [[0x3EB504F3, 0x3EB504F3, 0x3EB504F3, 0x3EB504F3, 0x3EB504F3, 0x3EB504F3, 0x3EB504F3, 0x3EB504F3],
   [0x3EFB14BE, 0x3ED4DB31, 0x3E8E39DA, 0x3DC7C5C2, 0xBDC7C5C2, 0xBE8E39DA, 0xBED4DB31, 0xBEFB14BE],
   [0x3EEC835E, 0x3E43EF15, 0xBE43EF15, 0xBEEC835E, 0xBEEC835E, 0xBE43EF15, 0x3E43EF15, 0x3EEC835E],
   [0x3ED4DB31, 0xBDC7C5C2, 0xBEFB14BE, 0xBE8E39DA, 0x3E8E39DA, 0x3EFB14BE, 0x3DC7C5C2, 0xBED4DB31]]

/-- Rows 4 to 7 of `CF` (R75). -/
def basisRowsHigh : List (List Word) :=
  [[0x3EB504F3, 0xBEB504F3, 0xBEB504F3, 0x3EB504F3, 0x3EB504F3, 0xBEB504F3, 0xBEB504F3, 0x3EB504F3],
   [0x3E8E39DA, 0xBEFB14BE, 0x3DC7C5C2, 0x3ED4DB31, 0xBED4DB31, 0xBDC7C5C2, 0x3EFB14BE, 0xBE8E39DA],
   [0x3E43EF15, 0xBEEC835E, 0x3EEC835E, 0xBE43EF15, 0xBE43EF15, 0x3EEC835E, 0xBEEC835E, 0x3E43EF15],
   [0x3DC7C5C2, 0xBE8E39DA, 0x3ED4DB31, 0xBEFB14BE, 0x3EFB14BE, 0xBED4DB31, 0x3E8E39DA, 0xBDC7C5C2]]

/-- The stored basis constants `CF[i][j]` (R18, R75). -/
def basisF32 (i j : Fin 8) : F32 :=
  f32OfBits (((basisRowsLow ++ basisRowsHigh).getD i.val []).getD j.val 0#32)

/-- A sum of eight products: each product rounded, the sum rounded after each addition, left to right from
index 0 (R76, R77). -/
def dot8 (c x : Fin 8 → F32) : F32 :=
  ([1, 2, 3, 4, 5, 6, 7] : List (Fin 8)).foldl (fun acc n => fadd acc (fmul (c n) (x n))) (fmul (c 0) (x 0))

/-- `NUM_REF.dct1d` (R76). -/
def dct1d (x : Fin 8 → F32) (k : Fin 8) : F32 := dot8 (fun n => basisF32 k n) x

/-- `NUM_REF.idct1d` (R77). -/
def idct1d (x : Fin 8 → F32) (n : Fin 8) : F32 := dot8 (fun k => basisF32 k n) x

/-- The one-dimensional transform on each row (R78, R79). -/
def rowPass (t : (Fin 8 → F32) → Fin 8 → F32) (b : Block F32) : Block F32 := fun i => t (b i)

/-- The one-dimensional transform on each column (R78, R79). -/
def columnPass (t : (Fin 8 → F32) → Fin 8 → F32) (b : Block F32) : Block F32 :=
  fun i j => t (fun r => b r j) i

/-- `NUM_REF.dct2d`: rows first, then columns (R78). -/
def refDct2d (b : Block F32) : Block F32 := columnPass dct1d (rowPass dct1d b)

/-- `NUM_REF.idct2d`: rows first, then columns (R79). -/
def refIdct2d (b : Block F32) : Block F32 := columnPass idct1d (rowPass idct1d b)

/-- `NUM_REF.qdiv`: one correctly rounded division (R80). -/
def refQdiv (x : F32) (q : Divisor) : F32 := fdiv x (f32OfInt q)

/-- `NUM_REF.qmul`: one correctly rounded multiplication (R80). -/
def refQmul (x : F32) (q : Divisor) : F32 := fmul x (f32OfInt q)

/-- The reference numerics `NUM_REF` (R74 to R80). -/
def numRef : Num := { dct2d := refDct2d, idct2d := refIdct2d, qdiv := refQdiv, qmul := refQmul }

/-- The numerics of a platform (R74). -/
def platformNum (p : Platform) : Num :=
  match p.numerics with
  | .reference => numRef
  | .other k => Config.otherNum k

/-- `QTAB[i][j]` (R9, R17). -/
def qtabAt (p : Platform) (i j : Fin 8) : Divisor := (p.qtab.get i).get j

/-- `QRND(x, q)`: `x / q` rounded to the nearest integer, ties away from zero (R84). -/
def qrnd (x : Int) (q : Nat) : Int :=
  let m : Nat := (x.natAbs + q / 2) / q
  if x < 0 then -(m : Int) else m

/-- The product of `DEQS` (R109), in integers that do not wrap (R83). -/
def deqProduct (x : Int) (q : Nat) : Int := x * q

/-- A value fits a signed 16-bit sample (R31, R109). -/
def fitsHalf (x : Int) : Bool := decide (-32768 ≤ x) && decide (x ≤ 32767)

end Sys2Proof.Machine
end

