-- ==== Sys2Proof/Machine/Transform.lean ====
section
/-! DEFINITION. The transform commands `DCT8X8` and `IDCT8X8` (R90 to R95), and the reading and storing of float
samples that the float quantization commands share. -/

namespace Sys2Proof.Machine

/-- `MemReadF`: the binary32 value at an address (R8, R31, R32). -/
def readF32 (m : Memory) (a : Nat) : F32 := f32OfBits (m.read32 a)

/-- The bits that a NaN stored at an address by the command at hand gets: a fresh free value (R72). -/
def nanBitsAt (s : State) (a : Nat) : Word := nanWord (Config.freeNan s.draws a)

/-- The bytes that `MemWriteF(a, x)` stores (R8, R32). -/
def storeF32 (s : State) (a : Nat) (x : F32) : List Host.Cell := cells32 a (f32ToBits (nanBitsAt s a) x)

/-- The 64 samples of a block of a float plane, from the memory at launch (R90). -/
def readBlock (m : Memory) (g : Region) (y x : Nat) : Block F32 := fun i j => readF32 m (g.blockAddr y x i j)

/-- `Exec2(f, MEM)` (R90): every block of the destination region gets `f` of the same block of the source
region, all inputs read from the memory at launch. -/
def exec2 (f : Block F32 → Block F32) (s : State) (l : Launch) : Memory :=
  s.mem.writeAll (blockCells l.dst l.dst.blocks fun y x i j a => storeF32 s a (f (readBlock s.mem l.src y x) i j))

/-- The same command block after block, in the order of `blocks`: each block's 64 samples are read from memory as it
then stands, before any sample of that block is stored (R41, R42). No step runs this form; that it gives the same
memory for every order is a statement. -/
def exec2BlockByBlock (f : Block F32 → Block F32) (s : State) (l : Launch) (blocks : List (Nat × Nat)) : Memory :=
  blocks.foldl (fun m b => m.writeAll (blockCells l.dst [b] fun y x i j a =>
    storeF32 s a (f (readBlock m l.src y x) i j))) s.mem

/-- The completion of a float command: memory, `STATUS`, and one draw used for the NaN bits it stored (R24, R72). -/
def completeFloat (s : State) (m : Memory) : Host.Outcome State Fault Refusal := .next (complete s m).afterDraw

/-- `DCT8X8` (R91). -/
def execDct8x8 (s : State) : Host.Outcome State Fault Refusal :=
  runCommand .dct8x8 s fun l => completeFloat s (exec2 (platformNum s.platform).dct2d s l)

/-- `IDCT8X8` (R92). -/
def execIdct8x8 (s : State) : Host.Outcome State Fault Refusal :=
  runCommand .idct8x8 s fun l => completeFloat s (exec2 (platformNum s.platform).idct2d s l)

end Sys2Proof.Machine
end

