-- ==== Sys2Proof/Machine/Quantize.lean ====
section
/-! DEFINITION. The quantization commands `QNTF`, `QNTS`, `DEQF`, `DEQS` (R105 to R112). -/

namespace Sys2Proof.Machine

/-- `Exec1(g, MEM)` on float samples (R105): each sample is replaced by `g` of itself and of the table entry at
its position in its block. -/
def exec1F32 (g : F32 → Divisor → F32) (s : State) (l : Launch) : Memory :=
  s.mem.writeAll (blockCells l.dst l.dst.blocks fun _ _ i j a =>
    storeF32 s a (g (readF32 s.mem a) (qtabAt s.platform i j)))

/-- `MemReadS`: the signed 16-bit integer at an address (R8, R31, R32). -/
def readS16 (m : Memory) (a : Nat) : Int := (m.read16 a).toInt

/-- The bytes that `MemWriteS(a, v)` stores (R8, R32). -/
def storeS16 (a : Nat) (v : Int) : List Host.Cell := cells16 a (BitVec.ofInt 16 v)

/-- `Exec1(g, MEM)` on 16-bit integer samples (R105). -/
def exec1S16 (g : Int → Nat → Int) (s : State) (l : Launch) : Memory :=
  s.mem.writeAll (blockCells l.dst l.dst.blocks fun _ _ i j a =>
    storeS16 a (g (readS16 s.mem a) (qtabAt s.platform i j).val))

/-- The integer command sample after sample, as R105 writes it, over a list of places `(y, x, i, j)`: each sample is
read from memory as it then stands, and stored. No step runs this form; that it gives the same memory for every order
is a statement. -/
def exec1S16SampleBySample (g : Int → Nat → Int) (s : State) (l : Launch)
    (places : List ((Nat × Nat) × (Fin 8 × Fin 8))) : Memory :=
  places.foldl (fun m p =>
    let a := l.dst.blockAddr p.1.1 p.1.2 p.2.1 p.2.2
    m.writeAll (storeS16 a (g (readS16 m a) (qtabAt s.platform p.2.1 p.2.2).val))) s.mem

/-- The float command sample after sample (R105), as above. -/
def exec1F32SampleBySample (g : F32 → Divisor → F32) (s : State) (l : Launch)
    (places : List ((Nat × Nat) × (Fin 8 × Fin 8))) : Memory :=
  places.foldl (fun m p =>
    let a := l.dst.blockAddr p.1.1 p.1.2 p.2.1 p.2.2
    m.writeAll (storeF32 s a (g (readF32 m a) (qtabAt s.platform p.2.1 p.2.2)))) s.mem

/-- Every place of a region's tiling: block, then position in it (R35). -/
def Region.places (g : Region) : List ((Nat × Nat) × (Fin 8 × Fin 8)) :=
  g.blocks.flatMap fun b => positions.map fun p => (b, p)

/-- Every product of `DEQS` fits a 16-bit sample (R109). -/
def deqsInRange (s : State) (l : Launch) : Bool :=
  l.dst.blocks.all fun b => positions.all fun p =>
    fitsHalf (deqProduct (readS16 s.mem (l.dst.blockAddr b.1 b.2 p.1 p.2)) (qtabAt s.platform p.1 p.2).val)

/-- `QNTF` (R106). -/
def execQntf (s : State) : Host.Outcome State Fault Refusal :=
  runCommand .qntf s fun l => completeFloat s (exec1F32 (platformNum s.platform).qdiv s l)

/-- `QNTS` (R107). -/
def execQnts (s : State) : Host.Outcome State Fault Refusal :=
  runCommand .qnts s fun l => .next (complete s (exec1S16 qrnd s l))

/-- `DEQF` (R108). -/
def execDeqf (s : State) : Host.Outcome State Fault Refusal :=
  runCommand .deqf s fun l => completeFloat s (exec1F32 (platformNum s.platform).qmul s l)

/-- `DEQS` (R109): a product outside the 16-bit range is `PV10`, decided at completion (R127). -/
def execDeqs (s : State) : Host.Outcome State Fault Refusal :=
  runCommand .deqs s fun l =>
    if deqsInRange s l then .next (complete s (exec1S16 deqProduct s l)) else violate .pv10ProductOutOfRange

end Sys2Proof.Machine
end

