-- ==== Sys2Proof/Machine/Dispatch.lean ====
section
/-! DEFINITION. One arm per command (R51). -/

namespace Sys2Proof.Machine

/-- The effect of a command on the engine at hand, with the operands its registers hold (R24, R90, R105). -/
def exec (i : Instr) (s : State) : Host.Outcome State Fault Refusal :=
  match i with
  | .dct8x8 => Sys2Proof.Machine.execDct8x8 s
  | .idct8x8 => Sys2Proof.Machine.execIdct8x8 s
  | .qntf => Sys2Proof.Machine.execQntf s
  | .qnts => Sys2Proof.Machine.execQnts s
  | .deqf => Sys2Proof.Machine.execDeqf s
  | .deqs => Sys2Proof.Machine.execDeqs s

end Sys2Proof.Machine
end

