-- ==== Sys2Proof/Machine/HostBus.lean ====
section
/-! DEFINITION. What happens at each event: the host's register accesses (R21, R22), launch (R23), completion
(R24), accesses to memory (R25, R45, R54), reset (R145), and the order they come in. -/

namespace Sys2Proof.Machine

/-- Launch (R23): the effect of writing a command word to `CMD` while `BUSY` is 0. Every clause of R126 that
the word and the operand registers decide is decided here, before any memory access (R127); an operand register the
command reads that holds `⊥` is `PV9` by R23's own line "if x[n] == ⊥: violate PV9". -/
def launch (w : Word) (s : State) : Host.Outcome State Fault Refusal :=
  match decode w with
  | .error _ => violate .pv7ReservedCommand
  | .ok i =>
    match launchOf i s.engine with
    | none => violate .pv9UnwrittenOperand
    | some l =>
      match l.violation s.platform with
      | some r => violate r
      | none => .next (s.withEngine (s.engine.launched w))

/-- `RegWrite(n, v)` (R21). -/
def regWrite (n : Nat) (v : Word) (s : State) : Host.Outcome State Fault Refusal :=
  if n > 6 ∨ n = 6 then violate .pv12OutsideRegisterMap
  else if s.engine.busy then violate .pv8WriteWhileBusy
  else if n = 5 then launch v s
  else .next (s.withEngine (s.engine.setOperand n v))

/-- `RegRead(n)` (R22): no side effect but the value the host gets; a register that holds `⊥` is `PV9` by R22's own line
"if n in 0..4 and x[n] == ⊥: violate PV9". -/
def regRead (n : Nat) (s : State) : Host.Outcome State Fault Refusal :=
  if n > 6 ∨ n = 5 then violate .pv12OutsideRegisterMap
  else if n = 6 then .next (s.withReply (.word (statusWord s.engine)))
  else
    match s.engine.operand n with
    | .unwritten => violate .pv9UnwrittenOperand
    | .holds v => .next (s.withReply (.word v))

/-- An access of the host or of another agent to bytes of memory: it must be no part of a register word (R54), leave
running commands' buffers alone (`PV11`, R126) and lie in populated memory (R25). The breach of the caller contract is
told before the model's own fault, so that a run which breaks `PV11` is never reported as anything else (log 12). After
completion the new bytes are given at once, whether or not the host has read `DONE` = 1 (DESIGN CHOICE, log 20). -/
def hostAccess (s : State) (write : Bool) (addrs : List Nat) (after : State) : Host.Outcome State Fault Refusal :=
  if addrs.any (inRegisterWindow s.platform) then violate .partialRegisterAccess
  else if addrs.any (touchesRunning s write) then violate .pv11BufferTouchedWhileBusy
  else if !addrs.all (populated s.platform) then .fault .hostAccessOutsideMemory
  else .next after

/-- One byte written to memory by the host or another agent (R25, R45). -/
def storeByte (a : Word) (b : Byte) (s : State) : Host.Outcome State Fault Refusal :=
  hostAccess s true [a.toNat] (s.withMem (s.mem.write a.toNat b))

/-- One byte of memory read by the host or another agent (R25, R45). -/
def loadByte (a : Word) (s : State) : Host.Outcome State Fault Refusal :=
  hostAccess s false [a.toNat] (s.withReply (.byte (s.mem.read a.toNat)))

/-- The four byte addresses of a 32-bit access. -/
def wordAddrs (a : Nat) : List Nat := [a, a + 1, a + 2, a + 3]

/-- A 32-bit store by address: the register word that lies there (R54), else four bytes of memory. -/
def busStore (a v : Word) (s : State) : Host.Outcome State Fault Refusal :=
  match registerAt s.platform a.toNat with
  | some n => regWrite n v s
  | none => hostAccess s true (wordAddrs a.toNat) (s.withMem (s.mem.writeAll (cells32 a.toNat v)))

/-- A 32-bit load by address: the register word that lies there (R54), else four bytes of memory. -/
def busLoad (a : Word) (s : State) : Host.Outcome State Fault Refusal :=
  match registerAt s.platform a.toNat with
  | some n => regRead n s
  | none => hostAccess s false (wordAddrs a.toNat) (s.withReply (.word (s.mem.read32 a.toNat)))

/-- The bytes that an abandoned command leaves in its destination footprint: free values (R26, R145). -/
def abandonedCells (s : State) (g : Region) : List Host.Cell := g.bytes.map fun a => (a, Config.freeByte s.draws a)

/-- Reset of the engine at hand (R145): the state of R26. Memory is untouched, except that a command which is
running is abandoned and every byte of its destination footprint holds an unspecified value afterwards. With several
engines (R132) the spec does not say whether the one reset event reaches all of them: here it reaches the engine at hand
alone (DESIGN CHOICE, log 19), and a reset of the whole platform is a reset of each in turn. -/
def resetEngine (s : State) : Host.Outcome State Fault Refusal :=
  match s.engine.running with
  | none => .next (s.withEngine Engine.afterReset)
  | some l =>
    if othersConflict s l then violate .pv11BufferTouchedWhileBusy
    else .next ((s.withMem (s.mem.writeAll (abandonedCells s l.dst))).withEngine Engine.afterReset).afterDraw

/-- The engine at hand moves: while `BUSY` is 1 its one step is the completion of the command in flight (R24);
else it holds its registers (R133). -/
def engineTurn (s : State) : Host.Outcome State Fault Refusal :=
  if s.engine.busy then
    match decode s.engine.command with
    | .ok i => exec i s
    | .error _ => violate .pv7ReservedCommand
  else .next s

/-- The first of the other engines that is running a command moves (R132, R148): it comes to hand, its command
completes, and the engine that was at hand is at hand again. Nothing if none of them is running one (R133). -/
def othersTurn (s : State) : Host.Outcome State Fault Refusal :=
  match s.others.findIdx? (·.busy) with
  | some k => onNext (engineTurn (s.selectEngine k)) (·.selectEngine k)
  | none => .next s

/-- Nothing is asked from outside: a running command completes, the one of the engine at hand first, else one of another
engine (R148; DESIGN CHOICE of the order, log 5); an idle machine stays as it is (R133). -/
def idleTurn (s : State) : Host.Outcome State Fault Refusal :=
  if s.engine.busy then engineTurn s else othersTurn s

/-- One poll of `WAIT` (R55), the state's list already without it: if `DONE` reads 1 the wait ends and the host has
the word it read; else the wait goes on, and a running command completes, on whichever engine it is (R148; log 15). -/
def waitTurn (s : State) : Host.Outcome State Fault Refusal :=
  if s.engine.done then .next (s.withReply (.word (statusWord s.engine)))
  else idleTurn (s.withEvents (.wait :: s.events))

/-- One event, the state's list already without it. -/
def handle (ev : Event) (s : State) : Host.Outcome State Fault Refusal :=
  match ev with
  | .regWrite n v => regWrite n v s
  | .regRead n => regRead n s
  | .wait => waitTurn s
  | .busStore a v => busStore a v s
  | .busLoad a => busLoad a s
  | .storeByte a b => storeByte a b s
  | .loadByte a => loadByte a s
  | .engineTurn => engineTurn s
  | .select k => .next (s.selectEngine k)
  | .reset => resetEngine s

/-- The next thing that happens to the machine. -/
def advance (s : State) : Host.Outcome State Fault Refusal :=
  match s.events with
  | [] => idleTurn s
  | ev :: rest => handle ev (s.withEvents rest)

/-- The operand writes of a command's expansion, in the order of R56; a command that does not read `SRC` has no
write of it. -/
def operandWrites (i : Instr) (src dst stride w h : Word) : List Event :=
  (match shapeOf i with
    | .twoBuffer => [.regWrite 0 src]
    | .inPlace => []) ++
  [.regWrite 1 dst, .regWrite 2 stride, .regWrite 3 w, .regWrite 4 h]

/-- The pseudo-instruction of R56: the operand writes, the write of `CMD`, and `WAIT`. -/
def pseudoInstruction (i : Instr) (src dst stride w h : Word) : List Event :=
  operandWrites i src dst stride w h ++ [.regWrite 5 (encode i), .wait]

/-- An operand register as it stands for a first command: its value, or a start-up value if nothing has written
it (R146 (4): the host writes every operand register the command reads). -/
def operandOr (o : Operand) (v : Word) : Operand :=
  match o with
  | .unwritten => .holds v
  | .holds w => .holds w

/-- The start-up values of `operandOr` (DESIGN CHOICE, log 6): a pointer that is not null and aligned, and an
empty region. -/
def startupEngine (e : Engine) : Engine :=
  { e with src := operandOr e.src 0x1000#32, dst := operandOr e.dst 0x1000#32,
           stride := operandOr e.stride 0#32, roiW := operandOr e.roiW 0#32, roiH := operandOr e.roiH 0#32 }

end Sys2Proof.Machine
end

