-- ==== Sys2Proof/Machine/Step.lean ====
section
/-! DEFINITION. One step of the machine, and the placing of a command word where the next step takes it from. -/

namespace Sys2Proof.Machine

/-- One step: the next event, or the engine's own move if none is asked for (see `advance`). -/
def step (s : State) : Host.Outcome State Fault Refusal := advance s

/-- `s` with the command word `w` in flight on the engine at hand and the engine's move next, so that the next
step runs it. The engine fetches nothing from memory (R15): the word in flight is the one the host's launch write
gave (R23), and the operand registers that nothing has written get the start-up values (log 6). -/
def State.withFetchWord (s : State) (nbits w : Nat) : State :=
  (s.withEngine ((startupEngine s.engine).launched (BitVec.ofNat 32 (w % 2 ^ nbits)))).withEvents
    (.engineTurn :: s.events)

end Sys2Proof.Machine
end

