-- ==== Sys2Proof/Machine/NamedProperties.lean ====
section
/-! DEFINITION. Correct rounding (R71) as a property of a value, and the named properties of the float datapath (R81).
A proof about an engine whose numerics are not `NUM_REF` may assume these of its `NUM`, and nothing else about values. -/

namespace Sys2Proof.Machine

/-- The first magnitude that rounds to infinity under round to nearest, ties to even: `2^128 - 2^103`. -/
def overflowBound : Rat := 2 ^ 128 - 2 ^ 103

/-- The value ends in an even significand; an infinity counts as even. -/
def f32IsEven : F32 → Bool
  | .nan => false
  | .inf _ => true
  | .fin _ _ f => f.val % 2 == 0

/-- `z` is the binary32 value nearest to the rational `x`, ties to even, with overflow to infinity (R71); a zero
result may have either sign here. -/
def IsRoundedValue (x : Rat) (z : F32) : Prop :=
  (f32IsFinite z = true ∧ |x| < overflowBound ∧
    ∀ y : F32, f32IsFinite y = true →
      |f32ToRat z - x| ≤ |f32ToRat y - x| ∧
        (|f32ToRat z - x| = |f32ToRat y - x| → f32ToRat y = f32ToRat z ∨ f32IsEven z = true)) ∨
  (z = .inf false ∧ overflowBound ≤ x) ∨ (z = .inf true ∧ x ≤ -overflowBound)

/-- `M`: the largest magnitude among the samples of a block (R81). -/
def maxMagnitude (b : Block F32) : Rat :=
  positions.foldl (fun m p => max m |f32ToRat (b p.1 p.2)|) 0

/-- A magnitude for which the properties are promised: 0, or 2^-100 to 2^100 (R81). -/
def OrdinaryMagnitude (m : Rat) : Prop := m = 0 ∨ (1 / 2 ^ 100 ≤ m ∧ m ≤ 2 ^ 100)

/-- A block for which the properties are promised (R81). -/
def OrdinaryBlock (b : Block F32) : Prop :=
  (∀ i j, f32IsFinite (b i j) = true) ∧ OrdinaryMagnitude (maxMagnitude b)

/-- A sample is finite and at most `e` away from a rational. -/
def Within (e : Rat) (z : F32) (x : Rat) : Prop := f32IsFinite z = true ∧ |f32ToRat z - x| ≤ e

/-- The sum of the 64 squares of the values of a block. -/
def energyRat (b : Block F32) : Rat := positions.foldl (fun e p => e + f32ToRat (b p.1 p.2) ^ 2) 0

/-- `P_RT` (R81): round trip. -/
def RoundTripProperty (tol : Rat) (num : Num) : Prop :=
  ∀ b, OrdinaryBlock b → ∀ i j,
    Within (tol * maxMagnitude b) (num.idct2d (num.dct2d b) i j) (f32ToRat (b i j))

/-- `P_LIN` (R81): linearity; `c` is the binary32 block nearest `s * a + t * b`. R81 promises its properties for a range
of `M`, which for this one is `|s| * max|B1| + |t| * max|B2|`, and does not say whether each block must also lie in the
range by its own largest magnitude: the property asks for both (DESIGN CHOICE, log 17), and so promises the least. R81 does not say which numbers the scalars
`s` and `t` are (those of R69 (2) are real): here they are rational (DESIGN CHOICE, log 17). -/
def LinearityProperty (tol : Rat) (num : Num) : Prop :=
  ∀ (s t : Rat) (a b c : Block F32), OrdinaryBlock a → OrdinaryBlock b →
    OrdinaryMagnitude (|s| * maxMagnitude a + |t| * maxMagnitude b) →
    (∀ i j, f32IsFinite (c i j) = true ∧ IsRoundedValue (s * f32ToRat (a i j) + t * f32ToRat (b i j)) (c i j)) →
    ∀ u v, f32IsFinite (num.dct2d a u v) = true ∧ f32IsFinite (num.dct2d b u v) = true ∧
      Within (tol * (|s| * maxMagnitude a + |t| * maxMagnitude b)) (num.dct2d c u v)
        (s * f32ToRat (num.dct2d a u v) + t * f32ToRat (num.dct2d b u v))

/-- `P_ENERGY` (R81). -/
def EnergyProperty (tol : Rat) (num : Num) : Prop :=
  ∀ b, OrdinaryBlock b → (∀ i j, f32IsFinite (num.dct2d b i j) = true) ∧
    |energyRat (num.dct2d b) - energyRat b| ≤ tol * energyRat b

/-- Zero of sign + . -/
def f32Zero : F32 := .fin false 0 0

/-- `P_ZERO` (R81). -/
def ZeroProperty (num : Num) : Prop :=
  num.dct2d (fun _ _ => f32Zero) = (fun _ _ => f32Zero) ∧ num.idct2d (fun _ _ => f32Zero) = (fun _ _ => f32Zero) ∧
    ∀ q, num.qdiv f32Zero q = f32Zero ∧ num.qmul f32Zero q = f32Zero

/-- `P_DC` (R81): a block of 64 equal samples. -/
def DcProperty (tol : Rat) (num : Num) : Prop :=
  ∀ x : F32, f32IsFinite x = true → OrdinaryMagnitude |f32ToRat x| → ∀ u v,
    Within (tol * |f32ToRat x|) (num.dct2d (fun _ _ => x) u v) (if u = 0 ∧ v = 0 then 8 * f32ToRat x else 0)

/-- `P_QRT` (R81): quantize, then dequantize. -/
def QuantRoundTripProperty (tol : Rat) (num : Num) : Prop :=
  ∀ (x : F32) (q : Divisor), f32IsFinite x = true → OrdinaryMagnitude |f32ToRat x| →
    Within (tol * |f32ToRat x|) (num.qmul (num.qdiv x q) q) (f32ToRat x)

/-- What may be assumed of a `NUM` (R81). `P_PURE` is in the type of `Num`: its fields are functions of their
arguments alone. -/
def NumConforms (tol : Rat) (num : Num) : Prop :=
  RoundTripProperty tol num ∧ LinearityProperty tol num ∧ EnergyProperty tol num ∧ ZeroProperty num ∧ DcProperty tol num ∧
    QuantRoundTripProperty tol num

end Sys2Proof.Machine
end

