-- ==== Sys2Proof/Machine/RealLevel.lean ====
section
/-! DEFINITION. The R level: the exact definitions over the real numbers (R65 to R69). No step of the machine computes
with them; statements compare the datapath with them. -/

namespace Sys2Proof.Machine

/-- The basis matrix `C` (R65): `i` is the frequency index, `j` the sample index. -/
noncomputable def basisReal (i j : Fin 8) : ℝ :=
  if i = 0 then Real.sqrt (1 / 8)
  else Real.sqrt (2 / 8) * Real.cos ((2 * (j.val : ℝ) + 1) * (i.val : ℝ) * Real.pi / 16)

/-- The 1D 8-point DCT-II of a vector (R67). -/
noncomputable def dctReal1d (x : Fin 8 → ℝ) (k : Fin 8) : ℝ := ∑ n, basisReal k n * x n

/-- The 1D 8-point DCT-III of a vector (R68). -/
noncomputable def idctReal1d (x : Fin 8 → ℝ) (n : Fin 8) : ℝ := ∑ k, basisReal k n * x k

/-- `DCT_R(B) = C * B * C^T` (R67). -/
noncomputable def dctReal (b : Block ℝ) : Block ℝ :=
  fun u v => ∑ i, ∑ j, basisReal u i * b i j * basisReal v j

/-- `IDCT_R(Y) = C^T * Y * C` (R68). -/
noncomputable def idctReal (y : Block ℝ) : Block ℝ :=
  fun i j => ∑ u, ∑ v, basisReal u i * y u v * basisReal v j

/-- The sum of the 64 squares of a block (R69 (3)). -/
noncomputable def energyReal (b : Block ℝ) : ℝ := ∑ i, ∑ j, b i j ^ 2

/-- The real value of a finite binary32 sample (R70). -/
noncomputable def f32ToReal (x : F32) : ℝ := ((f32ToRat x : Rat) : ℝ)

end Sys2Proof.Machine
end

