-- ==== Sys2Proof/Safety.lean ====
section
/-! DEFINITION. What counts as a safe run: the caller contract in the spec's own terms (R34, R126), the invariant of
the machine, and runs that stay inside the contract. -/

namespace Sys2Proof.Machine

/-- `FP(A)` of R34 with `S`, `W`, `H` and the sample size: the address `x` is a byte of it. -/
def InFootprint (base stride width height size x : Nat) : Prop :=
  ∃ r c k, r < height ∧ c < width ∧ k < size ∧ x = base + size * (r * stride + c) + k

/-- The operand registers that a command reads hold these words (R52). For an in-place command both pointers are
`DST`. -/
def HoldsOperands (i : Instr) (e : Engine) (src dst stride w h : Word) : Prop :=
  (match shapeOf i with
    | .twoBuffer => e.src = .holds src
    | .inPlace => src = dst) ∧
  e.dst = .holds dst ∧ e.stride = .holds stride ∧ e.roiW = .holds w ∧ e.roiH = .holds h

/-- One pointer keeps the bound of R38 (`PV6`). -/
def PointerInMemory (i : Instr) (p : Platform) (a stride w h : Word) : Prop :=
  (0 < w.toNat → 0 < h.toNat →
    a.toNat + sampleSize i * ((h.toNat - 1) * stride.toNat + w.toNat) ≤ addressLimit) ∧
  ∀ x, InFootprint a.toNat stride.toNat w.toNat h.toNat (sampleSize i) x → populated p x = true

/-- The clauses `PV1` to `PV6` of R126 are all kept. -/
def MeetsContract (i : Instr) (p : Platform) (src dst stride w h : Word) : Prop :=
  (w.toNat % 8 = 0 ∧ h.toNat % 8 = 0) ∧
  w.toNat ≤ stride.toNat ∧
  (src ≠ 0#32 ∧ dst ≠ 0#32) ∧
  (src = dst ∨ ∀ x, ¬ (InFootprint src.toNat stride.toNat w.toNat h.toNat (sampleSize i) x ∧
    InFootprint dst.toNat stride.toNat w.toNat h.toNat (sampleSize i) x)) ∧
  (src.toNat % sampleSize i = 0 ∧ dst.toNat % sampleSize i = 0) ∧
  (PointerInMemory i p src stride w h ∧ PointerInMemory i p dst stride w h)

/-- The regions that these operand words give a command. -/
def launchWords (i : Instr) (src dst stride w h : Word) : Launch :=
  { src := ⟨src.toNat, stride.toNat, w.toNat, h.toNat, sampleSize i⟩
    dst := ⟨dst.toNat, stride.toNat, w.toNat, h.toNat, sampleSize i⟩ }

/-- The address `x` is a byte of the footprint of a region (R34). -/
def InRegion (g : Region) (x : Nat) : Prop := InFootprint g.base g.stride g.width g.height g.size x

/-- No command that another engine is running reads or writes a byte that these regions write, nor writes a byte
that they read (R45, R132). -/
def OthersApart (s : State) (l : Launch) : Prop :=
  ∀ e ∈ s.others, ∀ m, e.running = some m → ∀ x,
    ¬ (InRegion l.dst x ∧ (InRegion m.src x ∨ InRegion m.dst x)) ∧ ¬ (InRegion l.src x ∧ InRegion m.dst x)

/-- The next event writes `CMD`, by number or by address (R21, R54). -/
def IsCommandWrite (s : State) : Prop :=
  (∃ w rest, s.events = .regWrite 5 w :: rest) ∨
    ∃ a w rest, s.events = .busStore a w :: rest ∧ registerAt s.platform a.toNat = some 5

/-- The next event is a reset (R145). -/
def IsReset (s : State) : Prop := ∃ rest, s.events = .reset :: rest

/-- The next event brings another engine to hand (R132). -/
def IsSelect (s : State) : Prop := ∃ k rest, s.events = .select k :: rest

/-- Writing the byte at `a` breaks `PV11`: a running command, on any engine, has it in its source or destination
footprint (R45, R126). -/
def WriteTouchesRunning (s : State) (a : Nat) : Prop :=
  ∃ e ∈ s.engine :: s.others, ∃ m, e.running = some m ∧ (InRegion m.src a ∨ InRegion m.dst a)

/-- Reading the byte at `a` breaks `PV11`: a running command, on any engine, has it in its destination footprint
(R45, R126). -/
def ReadTouchesRunning (s : State) (a : Nat) : Prop :=
  ∃ e ∈ s.engine :: s.others, ∃ m, e.running = some m ∧ InRegion m.dst a

/-- Every product that `DEQS` forms in a region fits a 16-bit sample (R109, `PV10`). -/
def DeqsProductsFit (s : State) (g : Region) : Prop :=
  ∀ y x : Nat, y < g.height / 8 → x < g.width / 8 → ∀ i j : Fin 8,
    -32768 ≤ readS16 s.mem (g.addr (8 * y + i.val) (8 * x + j.val)) * (qtabAt s.platform i j).val ∧
      readS16 s.mem (g.addr (8 * y + i.val) (8 * x + j.val)) * (qtabAt s.platform i j).val ≤ 32767

/-- Everything that R23, R45 and R126 want of a command before it completes with its effect: its operand registers
hold these words, they meet the contract, and no other engine's running command is in the way; memory is in canonical
form. -/
def RunsOn (i : Instr) (s : State) (src dst stride w h : Word) : Prop :=
  HoldsOperands i s.engine src dst stride w h ∧ MeetsContract i s.platform src dst stride w h ∧
    OthersApart s (launchWords i src dst stride w h) ∧ s.mem.wf

/-- `addr(A, r, c)` of R33 on operand words. -/
def sampleAddr (i : Instr) (a stride : Word) (r c : Nat) : Nat :=
  a.toNat + sampleSize i * (r * stride.toNat + c)

/-- The footprint of R34 on operand words. -/
def InOperandFootprint (i : Instr) (a stride w h : Word) (x : Nat) : Prop :=
  InFootprint a.toNat stride.toNat w.toNat h.toNat (sampleSize i) x

/-- Completion changed nothing but memory, `BUSY`, `DONE` and the model's count of free values (R24): the operand
registers, the other engines, the platform, what happens next and what the host has read are as before. -/
def OnlyMemoryAndStatus (s t : State) : Prop :=
  t.engine = { s.engine with busy := false, done := true } ∧ t.others = s.others ∧ t.platform = s.platform ∧
    t.events = s.events ∧ t.replies = s.replies

/-- The value of the sample of a command at an address: a binary32 value or a 16-bit integer (R31). -/
def sampleAt (i : Instr) (m : Memory) (a : Nat) : F32 ⊕ Int :=
  if sampleSize i = 4 then .inl (readF32 m a) else .inr (readS16 m a)

/-- The operand registers after the writes of a command's expansion (R56): a command that does not read `SRC` has no
write of it. -/
def afterOperandWrites (i : Instr) (e : Engine) (src dst stride w h : Word) : Engine :=
  { e with
    src := (match shapeOf i with
      | .twoBuffer => .holds src
      | .inPlace => e.src)
    dst := .holds dst, stride := .holds stride, roiW := .holds w, roiH := .holds h }

/-- One engine is as runs leave it: never both `BUSY` and `DONE` (R14), and a command in flight is one of R51 that
met the contract at its launch (R23). -/
def EngineInv (p : Platform) (e : Engine) : Prop :=
  (e.busy && e.done) = false ∧
  (e.busy = true → ∃ i l, decode e.command = .ok i ∧ launchOf i e = some l ∧ l.violation p = none)

/-- The invariant of the machine: memory in canonical form and inside the address space (R25), and every engine as
`EngineInv` says. -/
def MachineInv (s : State) : Prop :=
  s.mem.wf ∧ s.mem.inSpace ∧ EngineInv s.platform s.engine ∧ ∀ e ∈ s.others, EngineInv s.platform e

/-- `n` steps from a state stay inside the caller contract: no refusal and no fault. -/
def SafeRun (n : Nat) (s : State) : Prop := ∃ t, Host.Core.run Sys2Proof.core n s = .next t

end Sys2Proof.Machine
end

