-- ==== Sys2Proof/Certificates/Slice0/Obligations.lean ====
section
/-! DEFINITION. The statements for the provers. Each says which rule of spec/ it formalises, or which it is derived
from; nothing is proved here. -/

open Sys2Proof Sys2Proof.Machine

/-! ### Encoding and decoding -/

/-- R51: the six command words, each with the command of its row of the opcode table. -/
def Obligations.CommandWordsDecodeAsTabled : Prop :=
  decode 0x00000001#32 = .ok .dct8x8 ∧ decode 0x00000002#32 = .ok .idct8x8 ∧ decode 0x00000003#32 = .ok .qntf ∧
    decode 0x00000004#32 = .ok .qnts ∧ decode 0x00000005#32 = .ok .deqf ∧ decode 0x00000006#32 = .ok .deqs

/-- From R51: encoding a command and decoding the word gives the command back, through the decoder and through the
entry for table words. -/
def Obligations.EncodedCommandDecodesToItself : Prop :=
  ∀ i : Instr, i.wellFormed = true →
    decode (encode i) = .ok i ∧ decodeTableWord 32 (encode i).toNat = some i ∧ commandWordWellFormed (encode i) = true

/-- R51: over all 2^32 words, a word selects the row of a mnemonic exactly when `w & mask = match`. -/
def Obligations.DecoderAcceptsExactlyTheTableWords : Prop :=
  ∀ w : Word,
    (decode w = .ok .dct8x8 ↔ w &&& 0xFFFFFFFF#32 = 0x00000001#32) ∧
      (decode w = .ok .idct8x8 ↔ w &&& 0xFFFFFFFF#32 = 0x00000002#32) ∧
      (decode w = .ok .qntf ↔ w &&& 0xFFFFFFFF#32 = 0x00000003#32) ∧
      (decode w = .ok .qnts ↔ w &&& 0xFFFFFFFF#32 = 0x00000004#32) ∧
      (decode w = .ok .deqf ↔ w &&& 0xFFFFFFFF#32 = 0x00000005#32) ∧
      (decode w = .ok .deqs ↔ w &&& 0xFFFFFFFF#32 = 0x00000006#32)

/-! ### Steps, launch and completion -/

/-- From R24: while a command is in flight, the engine's move is the effect of exactly that command. That the engine
moves when nothing else is asked for (second clause) is the model's choice of order, log 5; that a poll of a `WAIT` which
has not read `DONE` = 1 lets the engine move in the same step and stays at the head of the events (third clause) is the
model's choice, log 15. -/
def Obligations.EngineMoveRunsTheCommandInFlight : Prop :=
  ∀ (s : State) (i : Instr), s.engine.busy = true → decode s.engine.command = .ok i →
    (∀ rest, s.events = .engineTurn :: rest → step s = exec i { s with events := rest }) ∧
      (s.events = [] → step s = exec i s) ∧
      (∀ rest, s.events = .wait :: rest → s.engine.done = false → step s = exec i s)

/-- From R23 and the model's placing of a command word (the model's own, log 6): the step after `withFetchWord` runs
that command, with the operand registers as they stand, or with the start-up values where nothing has written them. -/
def Obligations.PlacedCommandRunsNext : Prop :=
  ∀ (s : State) (i : Instr),
    step (s.withFetchWord 32 (encode i).toNat) =
      exec i { s with engine := { startupEngine s.engine with busy := true, done := false, command := encode i } }

/-- From R21, R23 and R126 (`PV1` to `PV7`, `PV9`): a write of `CMD` by the host on an idle engine is accepted exactly
when the word is one of the table, the operand registers the command reads hold values, and these meet the contract. -/
def Obligations.LaunchAcceptedExactlyUnderTheContract : Prop :=
  ∀ (s : State) (w : Word) (rest : List Event), s.engine.busy = false → s.events = .regWrite 5 w :: rest →
    ((∃ t, step s = .next t) ↔
      ∃ i src dst stride width height, decode w = .ok i ∧ HoldsOperands i s.engine src dst stride width height ∧
        MeetsContract i s.platform src dst stride width height)

/-- From R23: what an accepted launch does, and that it does nothing else. -/
def Obligations.LaunchSetsBusyAndClearsDone : Prop :=
  ∀ (s : State) (i : Instr) (src dst stride width height : Word) (rest : List Event),
    s.engine.busy = false → s.events = .regWrite 5 (encode i) :: rest →
    HoldsOperands i s.engine src dst stride width height → MeetsContract i s.platform src dst stride width height →
    step s = .next { s with
      events := rest
      engine := { s.engine with busy := true, done := false, command := encode i } }

/-- R53: a word is reserved exactly when `OP` is 0 or 7 or a bit of 31:3 is set; these are the words that match no row
of R51, so the decoder is total; and one written to `CMD` of an idle engine is refused as `PV7`. -/
def Obligations.ReservedCommandWordIsRefused : Prop :=
  ∀ w : Word,
    ((w.extractLsb' 0 3 = 0#3 ∨ w.extractLsb' 0 3 = 7#3 ∨ w.extractLsb' 3 29 ≠ 0#29) ↔ ∀ i, w ≠ encode i) ∧
    ((∃ r, decode w = .error r) ↔ ∀ i, w ≠ encode i) ∧
    ∀ (s : State) (rest : List Event), s.engine.busy = false → s.events = .regWrite 5 w :: rest → (∀ i, w ≠ encode i) →
      step s = .refused .pv7ReservedCommand

/-- R12: an operand register holds `⊥` after reset and until something writes it (by number, by address, or another
engine's registers coming to hand in its place); a launch that reads one holding `⊥`, and a host read of one, is
`PV9`. -/
def Obligations.UnwrittenOperandIsRefused : Prop :=
  (∀ n, Engine.afterReset.operand n = .unwritten ∧ State.reset.engine.operand n = .unwritten) ∧
  (∀ (s t : State) (n : Nat), step s = .next t → s.engine.operand n = .unwritten →
    t.engine.operand n = .unwritten ∨ (∃ v rest, s.events = .regWrite n v :: rest) ∨
      (∃ a v rest, s.events = .busStore a v :: rest ∧ registerAt s.platform a.toNat = some n) ∨ IsSelect s) ∧
  (∀ (s : State) (i : Instr) (n : Nat) (rest : List Event), s.engine.busy = false →
    s.events = .regWrite 5 (encode i) :: rest → n < 5 → (n = 0 → shapeOf i = .twoBuffer) →
    s.engine.operand n = .unwritten → step s = .refused .pv9UnwrittenOperand) ∧
  (∀ (s : State) (n : Nat) (rest : List Event), s.events = .regRead n :: rest → n < 5 →
    s.engine.operand n = .unwritten → step s = .refused .pv9UnwrittenOperand)

/-- From R21 (the operand part), R22 and R11: a write of operand register `n` on an idle engine stores the value, and
changes nothing else; in particular `DONE` stays as it is. A read of the register then gives the value. In every state,
also while `BUSY` is 1, a read of an operand register that holds a value gives it and changes nothing. -/
def Obligations.OperandWriteStoresAndReadsBack : Prop :=
  (∀ (s : State) (n : Nat) (v : Word) (rest : List Event), n < 5 → s.engine.operand n = .holds v →
    s.events = .regRead n :: rest → step s = .next { s with events := rest, replies := .word v :: s.replies }) ∧
  ∀ (s : State) (n : Nat) (v : Word) (rest : List Event), n < 5 → s.engine.busy = false →
    s.events = .regWrite n v :: rest →
    ∃ t, step s = .next t ∧ t.engine.operand n = .holds v ∧
      (∀ k, k < 5 → k ≠ n → t.engine.operand k = s.engine.operand k) ∧ t.engine.busy = s.engine.busy ∧
      t.engine.done = s.engine.done ∧ t.engine.command = s.engine.command ∧ t.others = s.others ∧ t.mem = s.mem ∧
      t.platform = s.platform ∧ t.events = rest ∧ t.replies = s.replies ∧ t.draws = s.draws ∧
      ∀ rest', step { t with events := .regRead n :: rest' } =
        .next { t with events := rest', replies := .word v :: s.replies }

/-- From R14, R22 and R55: `STATUS` reads at any time; bit 0 is `BUSY`, bit 1 `DONE`, the rest 0; the read changes
nothing. A `WAIT` that finds `DONE` = 1 is such a read and ends: the host gets `STATUS`, and nothing else changes (that
only this last poll gives a reply is the model's choice, log 15). -/
def Obligations.StatusReadsBusyAndDone : Prop :=
  ∀ (s : State) (rest : List Event),
    (s.events = .regRead 6 :: rest ∨ (s.events = .wait :: rest ∧ s.engine.done = true)) →
    ∃ v : Word, step s = .next { s with events := rest, replies := .word v :: s.replies } ∧
      v.getLsbD 0 = s.engine.busy ∧ v.getLsbD 1 = s.engine.done ∧ v.extractLsb' 2 30 = 0#30

/-- From R21, R22 and R126 (`PV8`, `PV12`): register accesses outside the map, and register writes while `BUSY` is 1. -/
def Obligations.BadRegisterAccessesAreRefused : Prop :=
  ∀ (s : State) (n : Nat) (v : Word) (rest : List Event),
    (s.events = .regWrite n v :: rest → (n = 6 ∨ 6 < n) → step s = .refused .pv12OutsideRegisterMap) ∧
      (s.events = .regRead n :: rest → (n = 5 ∨ 6 < n) → step s = .refused .pv12OutsideRegisterMap) ∧
      (s.events = .regWrite n v :: rest → n < 6 → s.engine.busy = true → step s = .refused .pv8WriteWhileBusy)

/-- From R54: the register words in the host's address map are the registers. R54 defines only whole-word accesses; that
any other access which touches a register word is refused as `partialRegisterAccess` is the model's choice, log 13: a byte
access, a 32-bit access that starts inside a word and not on it, and one that starts 1 to 3 bytes below the first word. -/
def Obligations.RegisterWordsAreTheRegisters : Prop :=
  ∀ (s : State) (n : Nat) (a v : Word) (b : Byte) (rest : List Event), n < 7 →
    (a.toNat = s.platform.regBase + 4 * n →
      (s.events = .busStore a v :: rest → step s = step { s with events := .regWrite n v :: rest }) ∧
        (s.events = .busLoad a :: rest → step s = step { s with events := .regRead n :: rest })) ∧
    (∀ k, k < 4 → a.toNat = s.platform.regBase + 4 * n + k →
      (s.events = .storeByte a b :: rest → step s = .refused .partialRegisterAccess) ∧
        (s.events = .loadByte a :: rest → step s = .refused .partialRegisterAccess) ∧
        (k ≠ 0 → (s.events = .busStore a v :: rest → step s = .refused .partialRegisterAccess) ∧
          (s.events = .busLoad a :: rest → step s = .refused .partialRegisterAccess))) ∧
    (a.toNat < s.platform.regBase → s.platform.regBase < a.toNat + 4 →
      (s.events = .busStore a v :: rest → step s = .refused .partialRegisterAccess) ∧
        (s.events = .busLoad a :: rest → step s = .refused .partialRegisterAccess))

/-- From R26 and R145: reset from outside puts the engine in the state of R26, whatever it was doing. That the other
engines of the platform are as before is the model's choice, log 19 (unsafe there): the spec does not say whether one
reset event reaches every engine. The platform's constants and,
when no command was running, all of memory are as before; with a command running, every byte outside its destination
footprint is. -/
def Obligations.ResetPutsTheEngineInTheResetState : Prop :=
  ∀ (s : State) (rest : List Event), s.events = .reset :: rest → s.mem.wf →
    (∀ l, s.engine.running = some l → OthersApart s l) →
    ∃ t, step s = .next t ∧
      (t.engine.src = .unwritten ∧ t.engine.dst = .unwritten ∧ t.engine.stride = .unwritten ∧
        t.engine.roiW = .unwritten ∧ t.engine.roiH = .unwritten ∧ t.engine.busy = false ∧ t.engine.done = false) ∧
      statusWord t.engine = 0#32 ∧ t.platform = s.platform ∧ t.others = s.others ∧ t.events = rest ∧
      t.replies = s.replies ∧ (s.engine.running = none → t.mem = s.mem) ∧
      ∀ l, s.engine.running = some l → ∀ a, ¬ InRegion l.dst a → t.mem.read a = s.mem.read a

/-- From R26: the machine right after reset. -/
def Obligations.ResetStateIsIdleAndUnwritten : Prop :=
  (∀ n, State.reset.engine.operand n = .unwritten) ∧ State.reset.engine.busy = false ∧
    State.reset.engine.done = false ∧ statusWord State.reset.engine = 0#32

/-! ### The six commands: result, frame and completion -/

/-- From R90 and R91: `DCT8X8` completes under its contract; each destination sample is the forward transform of the
source block at its position, every byte outside the destination footprint is as before, and nothing else changes but
`BUSY` and `DONE`. -/
def Obligations.Dct8x8WritesForwardTransform : Prop :=
  ∀ (s : State) (src dst stride w h : Word), RunsOn .dct8x8 s src dst stride w h →
    ∃ t, exec .dct8x8 s = .next t ∧
      (∀ y x : Nat, y < h.toNat / 8 → x < w.toNat / 8 → ∀ i j : Fin 8,
        readF32 t.mem (sampleAddr .dct8x8 dst stride (8 * y + i.val) (8 * x + j.val)) =
          (platformNum s.platform).dct2d (fun i' j' =>
            readF32 s.mem (sampleAddr .dct8x8 src stride (8 * y + i'.val) (8 * x + j'.val))) i j) ∧
      (∀ a, ¬ InOperandFootprint .dct8x8 dst stride w h a → t.mem.read a = s.mem.read a) ∧ OnlyMemoryAndStatus s t

/-- From R90 and R92: the same for `IDCT8X8` and the inverse transform. -/
def Obligations.Idct8x8WritesInverseTransform : Prop :=
  ∀ (s : State) (src dst stride w h : Word), RunsOn .idct8x8 s src dst stride w h →
    ∃ t, exec .idct8x8 s = .next t ∧
      (∀ y x : Nat, y < h.toNat / 8 → x < w.toNat / 8 → ∀ i j : Fin 8,
        readF32 t.mem (sampleAddr .idct8x8 dst stride (8 * y + i.val) (8 * x + j.val)) =
          (platformNum s.platform).idct2d (fun i' j' =>
            readF32 s.mem (sampleAddr .idct8x8 src stride (8 * y + i'.val) (8 * x + j'.val))) i j) ∧
      (∀ a, ¬ InOperandFootprint .idct8x8 dst stride w h a → t.mem.read a = s.mem.read a) ∧ OnlyMemoryAndStatus s t

/-- From R105 and R106: `QNTF` divides each sample by the table entry at its position in its block, in place. -/
def Obligations.QntfDividesEachSample : Prop :=
  ∀ (s : State) (dst stride w h : Word), RunsOn .qntf s dst dst stride w h →
    ∃ t, exec .qntf s = .next t ∧
      (∀ y x : Nat, y < h.toNat / 8 → x < w.toNat / 8 → ∀ i j : Fin 8,
        readF32 t.mem (sampleAddr .qntf dst stride (8 * y + i.val) (8 * x + j.val)) =
          (platformNum s.platform).qdiv
            (readF32 s.mem (sampleAddr .qntf dst stride (8 * y + i.val) (8 * x + j.val)))
            (qtabAt s.platform i j)) ∧
      (∀ a, ¬ InOperandFootprint .qntf dst stride w h a → t.mem.read a = s.mem.read a) ∧ OnlyMemoryAndStatus s t

/-- From R105, R107 and R84: `QNTS` divides each 16-bit sample by the table entry at its position and rounds to
nearest, ties away from zero. It has no condition on the data (R107). -/
def Obligations.QntsDividesAndRounds : Prop :=
  ∀ (s : State) (dst stride w h : Word), RunsOn .qnts s dst dst stride w h →
    ∃ t, exec .qnts s = .next t ∧
      (∀ y x : Nat, y < h.toNat / 8 → x < w.toNat / 8 → ∀ i j : Fin 8,
        readS16 t.mem (sampleAddr .qnts dst stride (8 * y + i.val) (8 * x + j.val)) =
          let v := readS16 s.mem (sampleAddr .qnts dst stride (8 * y + i.val) (8 * x + j.val))
          let q := (qtabAt s.platform i j).val
          if v < 0 then -(((v.natAbs + q / 2) / q : Nat) : Int) else (((v.natAbs + q / 2) / q : Nat) : Int)) ∧
      (∀ a, ¬ InOperandFootprint .qnts dst stride w h a → t.mem.read a = s.mem.read a) ∧ OnlyMemoryAndStatus s t

/-- From R105 and R108: `DEQF` multiplies each sample by the table entry at its position, in place. -/
def Obligations.DeqfMultipliesEachSample : Prop :=
  ∀ (s : State) (dst stride w h : Word), RunsOn .deqf s dst dst stride w h →
    ∃ t, exec .deqf s = .next t ∧
      (∀ y x : Nat, y < h.toNat / 8 → x < w.toNat / 8 → ∀ i j : Fin 8,
        readF32 t.mem (sampleAddr .deqf dst stride (8 * y + i.val) (8 * x + j.val)) =
          (platformNum s.platform).qmul
            (readF32 s.mem (sampleAddr .deqf dst stride (8 * y + i.val) (8 * x + j.val)))
            (qtabAt s.platform i j)) ∧
      (∀ a, ¬ InOperandFootprint .deqf dst stride w h a → t.mem.read a = s.mem.read a) ∧ OnlyMemoryAndStatus s t

/-- From R105 and R109: `DEQS` multiplies each 16-bit sample by the table entry at its position, when every product
fits 16 bits; and when some product does not fit, the command is `PV10`. -/
def Obligations.DeqsMultipliesOrRefuses : Prop :=
  ∀ (s : State) (dst stride w h : Word), RunsOn .deqs s dst dst stride w h →
    ((∀ y x : Nat, y < h.toNat / 8 → x < w.toNat / 8 → ∀ i j : Fin 8,
        -32768 ≤ readS16 s.mem (sampleAddr .deqs dst stride (8 * y + i.val) (8 * x + j.val)) *
            (qtabAt s.platform i j).val ∧
          readS16 s.mem (sampleAddr .deqs dst stride (8 * y + i.val) (8 * x + j.val)) *
            (qtabAt s.platform i j).val ≤ 32767) →
      ∃ t, exec .deqs s = .next t ∧
        (∀ y x : Nat, y < h.toNat / 8 → x < w.toNat / 8 → ∀ i j : Fin 8,
          readS16 t.mem (sampleAddr .deqs dst stride (8 * y + i.val) (8 * x + j.val)) =
            readS16 s.mem (sampleAddr .deqs dst stride (8 * y + i.val) (8 * x + j.val)) *
              (qtabAt s.platform i j).val) ∧
        (∀ a, ¬ InOperandFootprint .deqs dst stride w h a → t.mem.read a = s.mem.read a) ∧
        OnlyMemoryAndStatus s t) ∧
    (∀ y x : Nat, y < h.toNat / 8 → x < w.toNat / 8 → ∀ i j : Fin 8,
      (32767 < readS16 s.mem (sampleAddr .deqs dst stride (8 * y + i.val) (8 * x + j.val)) *
          (qtabAt s.platform i j).val ∨
        readS16 s.mem (sampleAddr .deqs dst stride (8 * y + i.val) (8 * x + j.val)) *
          (qtabAt s.platform i j).val < -32768) →
      exec .deqs s = .refused .pv10ProductOutOfRange)

/-- From R126: no command runs outside its contract. Whatever the state, a command that gives a next state found its
operand registers written, met `PV1` to `PV6`, and was in no other engine's way. R127 places these checks at the launch;
that the command itself makes them again when it completes, in every state, is the model's choice, log 10. -/
def Obligations.CommandsRunOnlyUnderTheContract : Prop :=
  ∀ (i : Instr) (s t : State), exec i s = .next t →
    ∃ src dst stride w h, HoldsOperands i s.engine src dst stride w h ∧
      MeetsContract i s.platform src dst stride w h ∧ OthersApart s (launchWords i src dst stride w h)

/-- From R45, R126 (`PV11`) and R132: a command that meets its own contract, but writes a byte that another engine's
running command reads or writes, or reads a byte that one writes, is refused. -/
def Obligations.ConflictingCommandIsRefused : Prop :=
  ∀ (i : Instr) (s : State) (src dst stride w h : Word), HoldsOperands i s.engine src dst stride w h →
    MeetsContract i s.platform src dst stride w h → ¬ OthersApart s (launchWords i src dst stride w h) →
    exec i s = .refused .pv11BufferTouchedWhileBusy

/-- From R35: with a width or a height of 0 every command completes and touches no memory. -/
def Obligations.EmptyRegionCompletesUntouched : Prop :=
  ∀ (i : Instr) (s : State) (src dst stride w h : Word), RunsOn i s src dst stride w h → (w = 0#32 ∨ h = 0#32) →
    ∃ t, exec i s = .next t ∧ t.mem = s.mem ∧ OnlyMemoryAndStatus s t

/-- From R40, R41, R42 and R90: a transform that takes its blocks one after another, in any order, reading each block
from memory as it then stands, leaves the same memory as the one that reads all its input at launch; in place too. -/
def Obligations.BlockOrderDoesNotMatter : Prop :=
  ∀ (f : Block F32 → Block F32) (i : Instr) (s : State) (l : Launch) (blocks : List (Nat × Nat)),
    shapeOf i = .twoBuffer → launchOf i s.engine = some l → l.violation s.platform = none → s.mem.wf →
    blocks.Perm l.dst.blocks → exec2BlockByBlock f s l blocks = exec2 f s l

/-- From R42 and R105: the in-place commands sample after sample, in any order, leave the same memory as the one that
reads all its input at launch. -/
def Obligations.SampleOrderDoesNotMatter : Prop :=
  ∀ (i : Instr) (s : State) (l : Launch) (places : List ((Nat × Nat) × (Fin 8 × Fin 8))),
    launchOf i s.engine = some l → l.violation s.platform = none → s.mem.wf → places.Perm l.dst.places →
    (sampleSize i = 2 → shapeOf i = .inPlace → ∀ g, exec1S16SampleBySample g s l places = exec1S16 g s l) ∧
      (sampleSize i = 4 → shapeOf i = .inPlace → ∀ g, exec1F32SampleBySample g s l places = exec1F32 g s l)

/-- R94: the value written at a destination sample depends only on the 64 source samples of its block, on the command
and on the constants: not on other blocks, `W`, `H`, `S`, the pointers, or anything else of the state. -/
def Obligations.BlocksAreIndependent : Prop :=
  ∀ (i : Instr) (s s' t t' : State) (src dst stride w h src' dst' stride' w' h' : Word) (y x y' x' : Nat),
    RunsOn i s src dst stride w h → RunsOn i s' src' dst' stride' w' h' →
    s.platform.qtab = s'.platform.qtab → s.platform.numerics = s'.platform.numerics →
    y < h.toNat / 8 → x < w.toNat / 8 → y' < h'.toNat / 8 → x' < w'.toNat / 8 →
    (∀ a b : Fin 8,
      sampleAt i s.mem (sampleAddr i src stride (8 * y + a.val) (8 * x + b.val)) =
        sampleAt i s'.mem (sampleAddr i src' stride' (8 * y' + a.val) (8 * x' + b.val))) →
    exec i s = .next t → exec i s' = .next t' →
    ∀ a b : Fin 8,
      sampleAt i t.mem (sampleAddr i dst stride (8 * y + a.val) (8 * x + b.val)) =
        sampleAt i t'.mem (sampleAddr i dst' stride' (8 * y' + a.val) (8 * x' + b.val))

/-- From R93: `DCT8X8`, and then `IDCT8X8` from its output to a third buffer with the same stride and region, leaves
there, block by block, the inverse transform of the forward transform of the original block. -/
def Obligations.RoundTripIsBlockwise : Prop :=
  ∀ (s t u v : State) (src mid dst stride w h : Word), RunsOn .dct8x8 s src mid stride w h →
    exec .dct8x8 s = .next t → RunsOn .idct8x8 u mid dst stride w h → u.mem = t.mem → u.platform = s.platform →
    exec .idct8x8 u = .next v →
    ∀ y x : Nat, y < h.toNat / 8 → x < w.toNat / 8 → ∀ i j : Fin 8,
      readF32 v.mem (sampleAddr .idct8x8 dst stride (8 * y + i.val) (8 * x + j.val)) =
        (platformNum s.platform).idct2d ((platformNum s.platform).dct2d fun i' j' =>
          readF32 s.mem (sampleAddr .dct8x8 src stride (8 * y + i'.val) (8 * x + j'.val))) i j

/-- From R111: `QNTS`, and then `DEQS` on the same region where it stays in range, changes each sample by at most half
its table entry. -/
def Obligations.IntegerRoundTripErrorIsBounded : Prop :=
  ∀ (s t u : State) (dst stride w h : Word), RunsOn .qnts s dst dst stride w h → exec .qnts s = .next t →
    exec .deqs t = .next u →
    ∀ y x : Nat, y < h.toNat / 8 → x < w.toNat / 8 → ∀ i j : Fin 8,
      2 * |readS16 s.mem (sampleAddr .qnts dst stride (8 * y + i.val) (8 * x + j.val)) -
        readS16 u.mem (sampleAddr .qnts dst stride (8 * y + i.val) (8 * x + j.val))| ≤ (qtabAt s.platform i j).val

/-! ### Memory, other agents, other engines -/

/-- From R25, R32, R45 and R126 (`PV11`): the writes of another agent, of one byte and of a 32-bit word, to addresses that
are no register words. A write is accepted exactly when every byte of it is populated and in no running command's source
or destination footprint; it then changes these bytes and nothing else, a word little-endian. A write that touches a
running command's footprint is `PV11`. Three things here are the model's choice: that a write which touches none, but
leaves populated memory, is a fault, and that a 32-bit write needs no alignment (log 12); and that a write to the
footprints of a completed command is accepted before any `STATUS` read returned `DONE` = 1, where HZ2 of R147 names `PV11`
(log 20, unsafe there). -/
def Obligations.AgentWriteAcceptedAndStores : Prop :=
  (∀ (s : State) (a : Word) (b : Byte) (rest : List Event), s.events = .storeByte a b :: rest → s.mem.wf →
    inRegisterWindow s.platform a.toNat = false →
    ((∃ t, step s = .next t) ↔ populated s.platform a.toNat = true ∧ ¬ WriteTouchesRunning s a.toNat) ∧
    (∀ t, step s = .next t →
      (∀ x, t.mem.read x = if x = a.toNat then b else s.mem.read x) ∧ t.engine = s.engine ∧ t.others = s.others ∧
        t.platform = s.platform ∧ t.events = rest ∧ t.replies = s.replies ∧ t.draws = s.draws) ∧
    (WriteTouchesRunning s a.toNat → step s = .refused .pv11BufferTouchedWhileBusy) ∧
    (¬ WriteTouchesRunning s a.toNat → populated s.platform a.toNat = false →
      step s = .fault .hostAccessOutsideMemory)) ∧
  ∀ (s : State) (a v : Word) (rest : List Event), s.events = .busStore a v :: rest → s.mem.wf →
    (∀ k, k < 4 → inRegisterWindow s.platform (a.toNat + k) = false) →
    ((∃ t, step s = .next t) ↔ ∀ k, k < 4 →
      populated s.platform (a.toNat + k) = true ∧ ¬ WriteTouchesRunning s (a.toNat + k)) ∧
    (∀ t, step s = .next t →
      (∀ k, k < 4 → t.mem.read (a.toNat + k) = v.extractLsb' (8 * k) 8) ∧
        (∀ x, x < a.toNat ∨ a.toNat + 4 ≤ x → t.mem.read x = s.mem.read x) ∧ t.engine = s.engine ∧
        t.others = s.others ∧ t.platform = s.platform ∧ t.events = rest ∧ t.replies = s.replies ∧ t.draws = s.draws) ∧
    ((∃ k, k < 4 ∧ WriteTouchesRunning s (a.toNat + k)) → step s = .refused .pv11BufferTouchedWhileBusy) ∧
    ((∀ k, k < 4 → ¬ WriteTouchesRunning s (a.toNat + k)) →
      (∃ k, k < 4 ∧ populated s.platform (a.toNat + k) = false) → step s = .fault .hostAccessOutsideMemory)

/-- From R25, R32, R45 and R126 (`PV11`): the reads of another agent, of one byte and of a 32-bit word, at addresses that
are no register words. A read is accepted exactly when every byte of it is populated and in no running command's
destination footprint (a source footprint may be read); it gives the bytes, a word little-endian, and changes nothing. A
read that touches a running command's destination is `PV11`. Three things here are the model's choice: that a read which
touches none, but leaves populated memory, is a fault, and that a 32-bit read needs no alignment (log 12); and that a read
of a completed command's results is accepted and sees them before any `STATUS` read returned `DONE` = 1, where R43
promises nothing and HZ3 of R147 names `PV11` (log 20, unsafe there). -/
def Obligations.AgentReadAcceptedAndHarmless : Prop :=
  (∀ (s : State) (a : Word) (rest : List Event), s.events = .loadByte a :: rest →
    inRegisterWindow s.platform a.toNat = false →
    ((∃ t, step s = .next t) ↔ populated s.platform a.toNat = true ∧ ¬ ReadTouchesRunning s a.toNat) ∧
    (∀ t, step s = .next t →
      t = { s with events := rest, replies := .byte (s.mem.read a.toNat) :: s.replies }) ∧
    (ReadTouchesRunning s a.toNat → step s = .refused .pv11BufferTouchedWhileBusy) ∧
    (¬ ReadTouchesRunning s a.toNat → populated s.platform a.toNat = false →
      step s = .fault .hostAccessOutsideMemory)) ∧
  ∀ (s : State) (a : Word) (rest : List Event), s.events = .busLoad a :: rest →
    (∀ k, k < 4 → inRegisterWindow s.platform (a.toNat + k) = false) →
    ((∃ t, step s = .next t) ↔ ∀ k, k < 4 →
      populated s.platform (a.toNat + k) = true ∧ ¬ ReadTouchesRunning s (a.toNat + k)) ∧
    (∀ t, step s = .next t → ∃ v : Word,
      t = { s with events := rest, replies := .word v :: s.replies } ∧
        ∀ k, k < 4 → v.extractLsb' (8 * k) 8 = s.mem.read (a.toNat + k)) ∧
    ((∃ k, k < 4 ∧ ReadTouchesRunning s (a.toNat + k)) → step s = .refused .pv11BufferTouchedWhileBusy) ∧
    ((∀ k, k < 4 → ¬ ReadTouchesRunning s (a.toNat + k)) →
      (∃ k, k < 4 ∧ populated s.platform (a.toNat + k) = false) → step s = .fault .hostAccessOutsideMemory)

/-- From R132 and R45: two commands in flight on two engines, completing in either order, leave the same sample values in
both destination regions, and bytes outside both untouched. (The bits of a NaN are no value: R72; they are free, log 8.) -/
def Obligations.ParallelEnginesCommute : Prop :=
  ∀ (s t1 u1 t2 u2 : State) (e : Engine) (i j : Instr) (a d st w h a' d' st' w' h' : Word),
    s.others = [e] → s.mem.wf → s.engine.busy = true → e.busy = true → decode s.engine.command = .ok i →
    decode e.command = .ok j → HoldsOperands i s.engine a d st w h → HoldsOperands j e a' d' st' w' h' →
    exec i s = .next t1 → exec j (t1.selectEngine 0) = .next u1 →
    exec j (s.selectEngine 0) = .next t2 → exec i (t2.selectEngine 0) = .next u2 →
    (∀ y x : Nat, y < h.toNat / 8 → x < w.toNat / 8 → ∀ b c : Fin 8,
      sampleAt i u1.mem (sampleAddr i d st (8 * y + b.val) (8 * x + c.val)) =
        sampleAt i u2.mem (sampleAddr i d st (8 * y + b.val) (8 * x + c.val))) ∧
    (∀ y x : Nat, y < h'.toNat / 8 → x < w'.toNat / 8 → ∀ b c : Fin 8,
      sampleAt j u1.mem (sampleAddr j d' st' (8 * y + b.val) (8 * x + c.val)) =
        sampleAt j u2.mem (sampleAddr j d' st' (8 * y + b.val) (8 * x + c.val))) ∧
    ∀ x, ¬ InOperandFootprint i d st w h x → ¬ InOperandFootprint j d' st' w' h' x →
      u1.mem.read x = s.mem.read x ∧ u2.mem.read x = s.mem.read x

/-! ### The whole machine -/

/-- From R14, R23, R25 and the model's canonical memory (the model's own, log 2): every step keeps the invariant of the
machine. -/
def Obligations.StepKeepsTheMachineInvariant : Prop :=
  ∀ s t : State, MachineInv s → step s = .next t → MachineInv t

/-- The machine after reset meets the invariant (from R26). -/
def Obligations.ResetMeetsTheMachineInvariant : Prop := MachineInv State.reset

/-- From R17, R112 and R147 (HZ8): no step changes the quantization matrix or any other constant of the platform. -/
def Obligations.PlatformNeverChanges : Prop := ∀ s t : State, step s = .next t → t.platform = s.platform

/-- From R11, R14, R20, R21, R24 and R132, for every step. While a command is in flight its engine's operand registers
hold, unless the engine is reset. `BUSY` goes from 0 to 1 only by a write of `CMD`, and from 1 to 0 only by completion or
reset; `DONE` goes from 0 to 1 only by completion, and from 1 to 0 only by a write of `CMD` or a reset. Another engine
coming to hand is apart (it only exchanges two engines: `IdleEngineHoldsItsRegisters`). The engines that are not at hand
change only by the completion of their own command (that a reset does not reach them is the model's choice, log 19). -/
def Obligations.BusyDoneAndOperandsChangeOnlyAsStated : Prop :=
  ∀ s t : State, step s = .next t → ¬ IsSelect s →
    (s.engine.busy = true → ¬ IsReset s → ∀ n, t.engine.operand n = s.engine.operand n) ∧
    (s.engine.busy = false → t.engine.busy = true → IsCommandWrite s) ∧
    (s.engine.busy = true → t.engine.busy = false → t.engine.done = true ∨ IsReset s) ∧
    (s.engine.done = false → t.engine.done = true → s.engine.busy = true ∧ t.engine.busy = false) ∧
    (s.engine.done = true → t.engine.done = false → IsCommandWrite s ∨ IsReset s) ∧
    t.others.length = s.others.length ∧
    ∀ (k : Nat) (e : Engine), s.others[k]? = some e → t.others[k]? = some e ∨
      (e.busy = true ∧ t.others[k]? = some { e with busy := false, done := true })

/-- From R24, R148 and R126: a command in flight in a machine that meets the invariant, with nothing asked from outside. It
completes in the next step, with `DONE` = 1 and `BUSY` = 0, when no other engine is in its way and, for `DEQS`, every
product fits; it is `PV11` when another engine is in its way, and `PV10` when none is and a product of `DEQS` does not
fit. That the engine moves when nothing is asked, in one step, is the model's choice, log 5 and log 10. -/
def Obligations.CommandInFlightCompletes : Prop :=
  ∀ s : State, MachineInv s → s.engine.busy = true → s.events = [] →
    ∃ i l, decode s.engine.command = .ok i ∧ s.engine.running = some l ∧
      (OthersApart s l → (i = .deqs → DeqsProductsFit s l.dst) →
        ∃ t, step s = .next t ∧ t.engine.done = true ∧ t.engine.busy = false) ∧
      (¬ OthersApart s l → step s = .refused .pv11BufferTouchedWhileBusy) ∧
      (OthersApart s l → i = .deqs → ¬ DeqsProductsFit s l.dst → step s = .refused .pv10ProductOutOfRange)

/-- From R132 and R148: commands in flight on other engines complete too, while the engine at hand is idle and nothing is
asked of it but, at most, a `WAIT` that has not read `DONE` = 1. If the first busy one holds operands that meet the
contract, with no other engine in its way and, for `DEQS`, every product in range, then its command runs, and the step
answers the state that has the command's effect, that engine idle with `DONE` = 1, and every other engine as it was. The
order among the engines is the model's choice, log 5, and the poll's step is log 15. -/
def Obligations.OtherEnginesComplete : Prop :=
  ∀ (s : State) (k : Nat) (e : Engine) (i : Instr) (src dst stride w h : Word), s.engine.busy = false →
    (s.events = [] ∨ ∃ rest, s.events = .wait :: rest ∧ s.engine.done = false) →
    s.others[k]? = some e → e.busy = true → (∀ j e', j < k → s.others[j]? = some e' → e'.busy = false) →
    decode e.command = .ok i → RunsOn i { s with engine := e, others := s.others.set k s.engine } src dst stride w h →
    (i = .deqs → DeqsProductsFit s (launchWords i src dst stride w h).dst) →
    ∃ t, exec i { s with engine := e, others := s.others.set k s.engine } = .next t ∧
      step s = .next { t with
        engine := s.engine
        others := s.others.set k { e with busy := false, done := true } }

/-- From R132 and R133: an engine with `BUSY` = 0 holds its registers: its move changes nothing, and when nothing is asked
and no engine is busy, nothing changes at all; a `WAIT` that has not read `DONE` = 1 then polls for ever (its poll is a
step of its own by log 15). Bringing another engine to hand exchanges the two and changes neither's
registers, nor memory (the form of several engines in one state is the model's, log 9). -/
def Obligations.IdleEngineHoldsItsRegisters : Prop :=
  (∀ (s : State) (rest : List Event), s.events = .engineTurn :: rest → s.engine.busy = false →
    step s = .next { s with events := rest }) ∧
  (∀ s : State, (s.events = [] ∨ ∃ rest, s.events = .wait :: rest ∧ s.engine.done = false) →
    (∀ e ∈ s.engine :: s.others, e.busy = false) → step s = .next s) ∧
  ∀ (s : State) (k : Nat) (rest : List Event), s.events = .select k :: rest →
    (∀ e, s.others[k]? = some e →
      step s = .next { s with events := rest, engine := e, others := s.others.set k s.engine }) ∧
    (s.others.length ≤ k → step s = .next { s with events := rest })

/-- From R125 and R130: no command raises a fault, whatever the state and the data; it stops only for a clause of the
contract (R126), and for the data only if it is `DEQS` (`PV10`). The one fault of the model is its own, log 12: an access
of the host or of another agent that leaves populated memory. -/
def Obligations.EngineRaisesNoException : Prop :=
  (∀ (i : Instr) (s : State) (f : Fault), exec i s ≠ .fault f) ∧
  (∀ (i : Instr) (s : State) (r : Refusal), exec i s = .refused r →
    r = .pv9UnwrittenOperand ∨ r = .pv1RoiNotMultipleOf8 ∨ r = .pv2StrideBelowWidth ∨ r = .pv3NullPointer ∨
      r = .pv4PartialOverlap ∨ r = .pv5MisalignedPointer ∨ r = .pv6OutsideMemory ∨ r = .pv11BufferTouchedWhileBusy ∨
      (i = .deqs ∧ r = .pv10ProductOutOfRange)) ∧
  ∀ (s : State) (f : Fault), step s = .fault f →
    (∃ a b rest, s.events = .storeByte a b :: rest ∧ populated s.platform a.toNat = false) ∨
      (∃ a rest, s.events = .loadByte a :: rest ∧ populated s.platform a.toNat = false) ∨
      (∃ a v rest k, s.events = .busStore a v :: rest ∧ k < 4 ∧ populated s.platform (a.toNat + k) = false) ∨
      ∃ a rest k, s.events = .busLoad a :: rest ∧ k < 4 ∧ populated s.platform (a.toNat + k) = false

/-- From R55 and R56: the pseudo-instruction of a command behaves as a synchronous call. From any idle engine, the
operand writes, the write of `CMD` and the `WAIT` take the machine to the effect of the command on those operands, with
`DONE` read as 1, and to what comes after. The number of steps and the one reply of the `WAIT` are the model's choice,
log 15: a poll takes one step, it lets the engine move, and only the last poll replies. -/
def Obligations.PseudoInstructionIsASynchronousCall : Prop :=
  ∀ (i : Instr) (s t : State) (src dst stride w h : Word) (rest : List Event), s.engine.busy = false →
    s.events = pseudoInstruction i src dst stride w h ++ rest →
    exec i { s with
      engine := { afterOperandWrites i s.engine src dst stride w h with
        busy := true, done := false, command := encode i }
      events := .wait :: rest } = .next t →
    Host.Core.run Sys2Proof.core ((operandWrites i src dst stride w h).length + 3) s =
      .next { t with events := rest, replies := .word 0x00000002#32 :: s.replies }

/-! ### Numerics -/

/-- From R71: the sum of two finite values is the binary32 value nearest to the exact sum, ties to even, with overflow
to infinity. -/
def Obligations.AdditionIsCorrectlyRounded : Prop :=
  ∀ x y : F32, f32IsFinite x = true → f32IsFinite y = true →
    IsRoundedValue (f32ToRat x + f32ToRat y) (fadd x y)

/-- From R71: the same for the product, whose sign is the exclusive-or of the signs, a zero product's too. -/
def Obligations.MultiplicationIsCorrectlyRounded : Prop :=
  ∀ x y : F32, f32IsFinite x = true → f32IsFinite y = true →
    IsRoundedValue (f32ToRat x * f32ToRat y) (fmul x y) ∧ f32IsNeg (fmul x y) = (f32IsNeg x != f32IsNeg y)

/-- From R71: the same for the quotient by a value that is not zero. That a zero quotient has the exclusive-or of the
signs is IEEE 754's, read from R71's reference to it: log 16. -/
def Obligations.DivisionIsCorrectlyRounded : Prop :=
  ∀ x y : F32, f32IsFinite x = true → f32IsFinite y = true → f32ToRat y ≠ 0 →
    IsRoundedValue (f32ToRat x / f32ToRat y) (fdiv x y) ∧ f32IsNeg (fdiv x y) = (f32IsNeg x != f32IsNeg y)

/-- The signed-zero arithmetic that R71 lists (the first three lines), and the infinity arithmetic that R71 takes from IEEE
754 without listing it (the last two clauses: log 16). -/
def Obligations.SignedZerosAndInfinities : Prop :=
  (∀ e f, fadd (.fin false e f) (.fin true e f) = .fin false 0 0 ∧
    fadd (.fin true e f) (.fin false e f) = .fin false 0 0) ∧
  fadd (.fin false 0 0) (.fin true 0 0) = .fin false 0 0 ∧ fadd (.fin true 0 0) (.fin true 0 0) = .fin true 0 0 ∧
  (∀ s t e f, fmul (.fin t 0 0) (.fin s e f) = .fin (t != s) 0 0 ∧ fmul (.fin s e f) (.fin t 0 0) = .fin (s != t) 0 0) ∧
  (∀ s t x, f32IsFinite x = true → fadd (.inf s) x = .inf s ∧ fadd x (.inf s) = .inf s ∧ fadd (.inf s) (.inf s) = .inf s ∧
    fmul (.inf s) (.inf t) = .inf (s != t) ∧ fdiv (.inf s) x = .inf (s != f32IsNeg x) ∧
    fdiv x (.inf s) = .fin (f32IsNeg x != s) 0 0) ∧
  ∀ s x, f32IsFinite x = true → f32ToRat x ≠ 0 →
    fmul (.inf s) x = .inf (s != f32IsNeg x) ∧ fmul x (.inf s) = .inf (f32IsNeg x != s)

/-- From R72: an operation with a NaN operand, or an invalid operation (R71 lists them), returns a NaN. That there is one
NaN value, whose bits are drawn when it is stored, is the model's form of R72's draw, log 8: the draw's word is a NaN
encoding whatever the draw, every NaN encoding is some draw's, and any of them is read back as a NaN; and a float command
stores at a sample that is a NaN the word of the draw for its place, and uses one draw. -/
def Obligations.InvalidOperationsGiveNaN : Prop :=
  (∀ x, fadd .nan x = .nan ∧ fadd x .nan = .nan ∧ fmul .nan x = .nan ∧ fmul x .nan = .nan ∧ fdiv .nan x = .nan ∧
    fdiv x .nan = .nan) ∧
  (∀ s t u, fadd (.inf s) (.inf (!s)) = .nan ∧ fmul (.fin t 0 0) (.inf s) = .nan ∧ fmul (.inf s) (.fin t 0 0) = .nan ∧
    fdiv (.fin t 0 0) (.fin u 0 0) = .nan ∧ fdiv (.inf s) (.inf t) = .nan) ∧
  (∀ d, (nanWord d).extractLsb' 23 8 = 255#8 ∧ (nanWord d).extractLsb' 0 23 ≠ 0#23 ∧
    f32ToBits (nanWord d) .nan = nanWord d) ∧
  (∀ w : Word, w.extractLsb' 23 8 = 255#8 → w.extractLsb' 0 23 ≠ 0#23 → f32OfBits w = .nan ∧ ∃ d, nanWord d = w) ∧
  ∀ (i : Instr) (s t : State) (src dst stride w h : Word), sampleSize i = 4 → RunsOn i s src dst stride w h →
    exec i s = .next t → t.draws = s.draws + 1 ∧
      ∀ y x : Nat, y < h.toNat / 8 → x < w.toNat / 8 → ∀ a b : Fin 8,
        readF32 t.mem (sampleAddr i dst stride (8 * y + a.val) (8 * x + b.val)) = .nan →
          t.mem.read32 (sampleAddr i dst stride (8 * y + a.val) (8 * x + b.val)) =
            nanWord (Config.freeNan s.draws (sampleAddr i dst stride (8 * y + a.val) (8 * x + b.val)))

/-- R76, R77, R78 and R79: the one-dimensional transforms of `NUM_REF` are sums of eight rounded products, rounded after
each addition, left to right from index 0; the two-dimensional ones take the rows first and then the columns. -/
def Obligations.ReferenceTransformsFollowTheirSums : Prop :=
  (∀ (x : Fin 8 → F32) (k : Fin 8), dct1d x k =
    fadd (fadd (fadd (fadd (fadd (fadd (fadd (fmul (basisF32 k 0) (x 0)) (fmul (basisF32 k 1) (x 1)))
      (fmul (basisF32 k 2) (x 2))) (fmul (basisF32 k 3) (x 3))) (fmul (basisF32 k 4) (x 4)))
      (fmul (basisF32 k 5) (x 5))) (fmul (basisF32 k 6) (x 6))) (fmul (basisF32 k 7) (x 7))) ∧
  (∀ (x : Fin 8 → F32) (n : Fin 8), idct1d x n =
    fadd (fadd (fadd (fadd (fadd (fadd (fadd (fmul (basisF32 0 n) (x 0)) (fmul (basisF32 1 n) (x 1)))
      (fmul (basisF32 2 n) (x 2))) (fmul (basisF32 3 n) (x 3))) (fmul (basisF32 4 n) (x 4)))
      (fmul (basisF32 5 n) (x 5))) (fmul (basisF32 6 n) (x 6))) (fmul (basisF32 7 n) (x 7))) ∧
  (∀ (b : Block F32) (u v : Fin 8), numRef.dct2d b u v = dct1d (fun i => dct1d (fun j => b i j) v) u) ∧
  ∀ (b : Block F32) (i j : Fin 8), numRef.idct2d b i j = idct1d (fun u => idct1d (fun v => b u v) j) i

/-- From R74: a platform whose numerics is the reference runs `NUM_REF` (the field that says so is the model's, log 7),
and the float commands then leave its results in memory. -/
def Obligations.ReferencePlatformRunsNumRef : Prop :=
  (∀ p : Platform, p.numerics = .reference → platformNum p = numRef) ∧
  ∀ (s t : State) (i : Instr) (src dst stride w h : Word), s.platform.numerics = .reference →
    RunsOn i s src dst stride w h → exec i s = .next t →
    ∀ y x : Nat, y < h.toNat / 8 → x < w.toNat / 8 → ∀ a b : Fin 8,
      (i = .dct8x8 → readF32 t.mem (sampleAddr i dst stride (8 * y + a.val) (8 * x + b.val)) =
        refDct2d (fun a' b' => readF32 s.mem (sampleAddr i src stride (8 * y + a'.val) (8 * x + b'.val))) a b) ∧
      (i = .idct8x8 → readF32 t.mem (sampleAddr i dst stride (8 * y + a.val) (8 * x + b.val)) =
        refIdct2d (fun a' b' => readF32 s.mem (sampleAddr i src stride (8 * y + a'.val) (8 * x + b'.val))) a b) ∧
      (i = .qntf → readF32 t.mem (sampleAddr i dst stride (8 * y + a.val) (8 * x + b.val)) =
        fdiv (readF32 s.mem (sampleAddr i dst stride (8 * y + a.val) (8 * x + b.val)))
          (f32OfInt (qtabAt s.platform a b))) ∧
      (i = .deqf → readF32 t.mem (sampleAddr i dst stride (8 * y + a.val) (8 * x + b.val)) =
        fmul (readF32 s.mem (sampleAddr i dst stride (8 * y + a.val) (8 * x + b.val)))
          (f32OfInt (qtabAt s.platform a b)))

/-- R80: the conversion of a table entry is exact, and quantization is one division, dequantization one
multiplication, by it. -/
def Obligations.TableEntriesConvertExactly : Prop :=
  ∀ q : Divisor, f32IsFinite (f32OfInt q) = true ∧ f32ToRat (f32OfInt q) = (q.val : Rat) ∧
    ∀ x, numRef.qdiv x q = fdiv x (f32OfInt q) ∧ numRef.qmul x q = fmul x (f32OfInt q)

/-- R84: the formula of `QRND` and its listed properties. -/
def Obligations.IntegerRoundingProperties : Prop :=
  ∀ (x : Int) (q : Nat), -32768 ≤ x → x ≤ 32767 → 1 ≤ q → q ≤ 32767 →
    qrnd x q = (if x < 0 then -(((x.natAbs + q / 2) / q : Nat) : Int) else (((x.natAbs + q / 2) / q : Nat) : Int)) ∧
    (x ≠ -32768 → qrnd (-x) q = -qrnd x q) ∧ |qrnd x q| ≤ |x| ∧ (-32768 ≤ qrnd x q ∧ qrnd x q ≤ 32767) ∧
    2 * |x - q * qrnd x q| ≤ q ∧
    (2 * |x - q * qrnd x q| = q ↔ q % 2 = 0 ∧ x.natAbs % q = q / 2) ∧ qrnd x 1 = x ∧
    (qrnd x q = 0 ↔ |x| < (q : Int) - (q / 2 : Nat)) ∧
    (|x| < (q : Int) - (q / 2 : Nat) ↔ if q % 2 = 0 then 2 * |x| < q else 2 * |x| ≤ (q : Int) - 1)

/-- From R85 (2), (3): the blocks of zeros of one sign under both transforms of `NUM_REF`. -/
def Obligations.ZeroBlocksTransform : Prop :=
  refDct2d (fun _ _ => .fin false 0 0) = (fun _ _ => .fin false 0 0) ∧
    refIdct2d (fun _ _ => .fin false 0 0) = (fun _ _ => .fin false 0 0) ∧
    (refDct2d (fun _ _ => .fin true 0 0) = fun u v => if u = 0 ∧ v = 0 then .fin true 0 0 else .fin false 0 0) ∧
    (refIdct2d (fun _ _ => .fin true 0 0) = fun u v => if u = 0 ∧ v = 0 then .fin true 0 0 else .fin false 0 0)

/-- From R85 (1): a product with a basis constant is NaN only for a NaN, and infinite only for an infinity. -/
def Obligations.BasisProductsStayFinite : Prop :=
  ∀ (k n : Fin 8) (x : F32), (fmul (basisF32 k n) x = .nan ↔ x = .nan) ∧
    ((∃ s, fmul (basisF32 k n) x = .inf s) ↔ ∃ s, x = .inf s)

/-- From R85 (7): a NaN in any sample makes all 64 outputs of its block NaN, for both transforms of `NUM_REF`. -/
def Obligations.NaNSpoilsItsBlock : Prop :=
  ∀ (b : Block F32) (i j : Fin 8), b i j = .nan → ∀ u v, refDct2d b u v = .nan ∧ refIdct2d b u v = .nan

/-- From R81: `NUM_REF` has `P_ZERO`. -/
def Obligations.ReferenceHasZeroProperty : Prop := ZeroProperty numRef

/-- From R81: `NUM_REF` has `P_QRT`: dequantizing a quantized value gives it back within `TOL`. That "within tolerance"
needs a finite result, with `TOL` = 1e-4, is the model's reading, log 17. -/
def Obligations.ReferenceHasQuantRoundTripProperty : Prop := QuantRoundTripProperty Config.tol numRef

/-- From R110: the float round trip is not the identity on bits (13 by 11; and three units of 2^-149 by 2, vector Q2,
where the quotient underflows). It is exact whenever the quotient of a finite value is exactly representable, a zero or a
subnormal among them; for an infinity and a NaN; and so when the divisor is a power of two and the quotient is a normal
number. -/
def Obligations.FloatRoundTripIsNotExact : Prop :=
  (∃ (x : F32) (q : Divisor), q.val = 11 ∧ f32ToRat x = 13 ∧ numRef.qmul (numRef.qdiv x q) q ≠ x) ∧
    (∃ q : Divisor, q.val = 2 ∧ numRef.qmul (numRef.qdiv (.fin false 0 3) q) q ≠ .fin false 0 3) ∧
    (∀ (x : F32) (q : Divisor), f32IsFinite x = true →
      (∃ z : F32, f32IsFinite z = true ∧ f32ToRat z * q.val = f32ToRat x) → numRef.qmul (numRef.qdiv x q) q = x) ∧
    (∀ (x : F32) (q : Divisor), f32IsFinite x = false → numRef.qmul (numRef.qdiv x q) q = x) ∧
    ∀ (s : Bool) (e : Fin 255) (f : Fin 8388608) (q : Divisor) (k : Nat), q.val = 2 ^ k → k < e.val →
      numRef.qmul (numRef.qdiv (.fin s e f) q) q = .fin s e f

/-! ### The R level -/

/-- R66: the rows of `C` are orthonormal and so are its columns. -/
def Obligations.BasisMatrixIsOrthogonal : Prop :=
  (∀ i j : Fin 8, ∑ k, basisReal i k * basisReal j k = if i = j then 1 else 0) ∧
    ∀ i j : Fin 8, ∑ k, basisReal k i * basisReal k j = if i = j then 1 else 0

/-- R69: the laws over the reals: round trip, linearity, energy, DC, constant block, zero block. -/
def Obligations.RealTransformLaws : Prop :=
  (∀ b, idctReal (dctReal b) = b ∧ dctReal (idctReal b) = b) ∧
  (∀ (s t : ℝ) (a b : Block ℝ),
    dctReal (fun i j => s * a i j + t * b i j) = (fun i j => s * dctReal a i j + t * dctReal b i j) ∧
      idctReal (fun i j => s * a i j + t * b i j) = fun i j => s * idctReal a i j + t * idctReal b i j) ∧
  (∀ b, energyReal (dctReal b) = energyReal b) ∧
  (∀ b, dctReal b 0 0 = (∑ i, ∑ j, b i j) / 8) ∧
  (∀ s : ℝ, dctReal (fun _ _ => s) = fun u v => if u = 0 ∧ v = 0 then 8 * s else 0) ∧
  dctReal (fun _ _ => 128) 0 0 = 1024 ∧
  dctReal (fun _ _ => 0) = (fun _ _ => 0) ∧ idctReal (fun _ _ => 0) = fun _ _ => 0

/-- From R67 and R68: the matrix form is the 1D transform on each row and then on each resulting column. -/
def Obligations.RealTransformsAreSeparable : Prop :=
  ∀ b : Block ℝ, (dctReal b = fun u v => dctReal1d (fun i => dctReal1d (b i) v) u) ∧
    idctReal b = fun i j => idctReal1d (fun u => idctReal1d (b u) j) i

/-- From R75: each stored basis constant is a normal number, at most half a unit in its last place away from the real
`C[i][j]`, and no finite binary32 value is nearer to it. -/
def Obligations.StoredBasisIsNearest : Prop :=
  ∀ i j : Fin 8, ∃ s e f, basisF32 i j = .fin s e f ∧ 0 < e.val ∧
    |f32ToReal (basisF32 i j) - basisReal i j| ≤ (2 : ℝ) ^ ulpExponent e / 2 ∧
    ∀ y : F32, f32IsFinite y = true → |f32ToReal (basisF32 i j) - basisReal i j| ≤ |f32ToReal y - basisReal i j|
end

