-- ==== Sys2Proof/Laws/State.lean ====
section
/-! SUPPORT. One lemma per field per update of the state, each true by unfolding the update once, so that no later
proof unfolds one. -/

namespace Sys2Proof.Machine

section Updates
variable (s : State)

@[simp] theorem State.withEngine_engine (e : Engine) : (s.withEngine e).engine = e := rfl
@[simp] theorem State.withEngine_others (e : Engine) : (s.withEngine e).others = s.others := rfl
@[simp] theorem State.withEngine_mem (e : Engine) : (s.withEngine e).mem = s.mem := rfl
@[simp] theorem State.withEngine_platform (e : Engine) : (s.withEngine e).platform = s.platform := rfl
@[simp] theorem State.withEngine_events (e : Engine) : (s.withEngine e).events = s.events := rfl
@[simp] theorem State.withEngine_replies (e : Engine) : (s.withEngine e).replies = s.replies := rfl
@[simp] theorem State.withEngine_draws (e : Engine) : (s.withEngine e).draws = s.draws := rfl

@[simp] theorem State.withMem_engine (m : Memory) : (s.withMem m).engine = s.engine := rfl
@[simp] theorem State.withMem_others (m : Memory) : (s.withMem m).others = s.others := rfl
@[simp] theorem State.withMem_mem (m : Memory) : (s.withMem m).mem = m := rfl
@[simp] theorem State.withMem_platform (m : Memory) : (s.withMem m).platform = s.platform := rfl
@[simp] theorem State.withMem_events (m : Memory) : (s.withMem m).events = s.events := rfl
@[simp] theorem State.withMem_replies (m : Memory) : (s.withMem m).replies = s.replies := rfl
@[simp] theorem State.withMem_draws (m : Memory) : (s.withMem m).draws = s.draws := rfl

@[simp] theorem State.withEvents_engine (es : List Event) : (s.withEvents es).engine = s.engine := rfl
@[simp] theorem State.withEvents_others (es : List Event) : (s.withEvents es).others = s.others := rfl
@[simp] theorem State.withEvents_mem (es : List Event) : (s.withEvents es).mem = s.mem := rfl
@[simp] theorem State.withEvents_platform (es : List Event) : (s.withEvents es).platform = s.platform := rfl
@[simp] theorem State.withEvents_events (es : List Event) : (s.withEvents es).events = es := rfl
@[simp] theorem State.withEvents_replies (es : List Event) : (s.withEvents es).replies = s.replies := rfl
@[simp] theorem State.withEvents_draws (es : List Event) : (s.withEvents es).draws = s.draws := rfl

@[simp] theorem State.withReply_engine (r : Reply) : (s.withReply r).engine = s.engine := rfl
@[simp] theorem State.withReply_others (r : Reply) : (s.withReply r).others = s.others := rfl
@[simp] theorem State.withReply_mem (r : Reply) : (s.withReply r).mem = s.mem := rfl
@[simp] theorem State.withReply_platform (r : Reply) : (s.withReply r).platform = s.platform := rfl
@[simp] theorem State.withReply_events (r : Reply) : (s.withReply r).events = s.events := rfl
@[simp] theorem State.withReply_replies (r : Reply) : (s.withReply r).replies = r :: s.replies := rfl
@[simp] theorem State.withReply_draws (r : Reply) : (s.withReply r).draws = s.draws := rfl

@[simp] theorem State.afterDraw_engine : (s.afterDraw).engine = s.engine := rfl
@[simp] theorem State.afterDraw_others : (s.afterDraw).others = s.others := rfl
@[simp] theorem State.afterDraw_mem : (s.afterDraw).mem = s.mem := rfl
@[simp] theorem State.afterDraw_platform : (s.afterDraw).platform = s.platform := rfl
@[simp] theorem State.afterDraw_events : (s.afterDraw).events = s.events := rfl
@[simp] theorem State.afterDraw_replies : (s.afterDraw).replies = s.replies := rfl
@[simp] theorem State.afterDraw_draws : (s.afterDraw).draws = s.draws + 1 := rfl

@[simp] theorem complete_engine (m : Memory) : (complete s m).engine = s.engine.completed := rfl
@[simp] theorem complete_others (m : Memory) : (complete s m).others = s.others := rfl
@[simp] theorem complete_mem (m : Memory) : (complete s m).mem = m := rfl
@[simp] theorem complete_platform (m : Memory) : (complete s m).platform = s.platform := rfl
@[simp] theorem complete_events (m : Memory) : (complete s m).events = s.events := rfl
@[simp] theorem complete_replies (m : Memory) : (complete s m).replies = s.replies := rfl
@[simp] theorem complete_draws (m : Memory) : (complete s m).draws = s.draws := rfl

end Updates

section EngineUpdates
variable (e : Engine) (w : Word)

@[simp] theorem Engine.launched_src : (e.launched w).src = e.src := rfl
@[simp] theorem Engine.launched_dst : (e.launched w).dst = e.dst := rfl
@[simp] theorem Engine.launched_stride : (e.launched w).stride = e.stride := rfl
@[simp] theorem Engine.launched_roiW : (e.launched w).roiW = e.roiW := rfl
@[simp] theorem Engine.launched_roiH : (e.launched w).roiH = e.roiH := rfl
@[simp] theorem Engine.launched_busy : (e.launched w).busy = true := rfl
@[simp] theorem Engine.launched_done : (e.launched w).done = false := rfl
@[simp] theorem Engine.launched_command : (e.launched w).command = w := rfl

@[simp] theorem Engine.completed_src : (e.completed).src = e.src := rfl
@[simp] theorem Engine.completed_dst : (e.completed).dst = e.dst := rfl
@[simp] theorem Engine.completed_stride : (e.completed).stride = e.stride := rfl
@[simp] theorem Engine.completed_roiW : (e.completed).roiW = e.roiW := rfl
@[simp] theorem Engine.completed_roiH : (e.completed).roiH = e.roiH := rfl
@[simp] theorem Engine.completed_busy : (e.completed).busy = false := rfl
@[simp] theorem Engine.completed_done : (e.completed).done = true := rfl
@[simp] theorem Engine.completed_command : (e.completed).command = e.command := rfl

@[simp] theorem Engine.afterReset_src : Engine.afterReset.src = .unwritten := rfl
@[simp] theorem Engine.afterReset_dst : Engine.afterReset.dst = .unwritten := rfl
@[simp] theorem Engine.afterReset_stride : Engine.afterReset.stride = .unwritten := rfl
@[simp] theorem Engine.afterReset_roiW : Engine.afterReset.roiW = .unwritten := rfl
@[simp] theorem Engine.afterReset_roiH : Engine.afterReset.roiH = .unwritten := rfl
@[simp] theorem Engine.afterReset_busy : Engine.afterReset.busy = false := rfl
@[simp] theorem Engine.afterReset_done : Engine.afterReset.done = false := rfl

/-- Writing an operand register touches neither the status bits nor the command in flight. -/
@[simp] theorem Engine.setOperand_busy (n : Nat) : (e.setOperand n w).busy = e.busy := by
  unfold Engine.setOperand; split <;> rfl

@[simp] theorem Engine.setOperand_done (n : Nat) : (e.setOperand n w).done = e.done := by
  unfold Engine.setOperand; split <;> rfl

@[simp] theorem Engine.setOperand_command (n : Nat) : (e.setOperand n w).command = e.command := by
  unfold Engine.setOperand; split <;> rfl

/-- The register written reads back as written, and the others as before (R11). -/
theorem Engine.operand_setOperand (n k : Nat) (hn : n < 5) :
    (e.setOperand n w).operand k = if k = n then .holds w else e.operand k := by
  obtain rfl | rfl | rfl | rfl | rfl : n = 0 ∨ n = 1 ∨ n = 2 ∨ n = 3 ∨ n = 4 := by omega
  all_goals
    by_cases hk : k < 5
    · obtain rfl | rfl | rfl | rfl | rfl : k = 0 ∨ k = 1 ∨ k = 2 ∨ k = 3 ∨ k = 4 := by omega
      all_goals rfl
    · obtain ⟨m, rfl⟩ : ∃ m, k = m + 5 := ⟨k - 5, by omega⟩
      rfl

end EngineUpdates

section Select
variable (s : State) (k : Nat)

/-- Selecting an engine changes nothing but which engine is at hand. -/
@[simp] theorem State.selectEngine_mem : (s.selectEngine k).mem = s.mem := by
  unfold State.selectEngine; split <;> rfl

@[simp] theorem State.selectEngine_platform : (s.selectEngine k).platform = s.platform := by
  unfold State.selectEngine; split <;> rfl

@[simp] theorem State.selectEngine_events : (s.selectEngine k).events = s.events := by
  unfold State.selectEngine; split <;> rfl

@[simp] theorem State.selectEngine_replies : (s.selectEngine k).replies = s.replies := by
  unfold State.selectEngine; split <;> rfl

@[simp] theorem State.selectEngine_draws : (s.selectEngine k).draws = s.draws := by
  unfold State.selectEngine; split <;> rfl

/-- Two engines that change places twice are where they were. -/
@[simp] theorem State.selectEngine_selectEngine : (s.selectEngine k).selectEngine k = s := by
  unfold State.selectEngine
  cases he : s.others[k]? with
  | none => simp [he]
  | some e =>
    obtain ⟨hk, rfl⟩ := List.getElem?_eq_some_iff.mp he
    simp [hk]

/-- The engines after a selection are the engines before it. -/
theorem State.selectEngine_engines :
    ((s.selectEngine k).engine :: (s.selectEngine k).others).Perm (s.engine :: s.others) := by
  unfold State.selectEngine
  split
  · next e he =>
    obtain ⟨hk, rfl⟩ := List.getElem?_eq_some_iff.mp he
    simp only
    have h := List.getElem_cons_eraseIdx_perm hk
    have h2 : (s.others.set k s.engine).Perm (s.engine :: s.others.eraseIdx k) :=
      List.set_perm_cons_eraseIdx hk s.engine
    exact ((h2.cons _).trans (List.Perm.swap _ _ _)).trans (h.cons _)
  · exact List.Perm.refl _

end Select

end Sys2Proof.Machine
end

