-- ==== Sys2Proof/Laws/Memory.lean ====
section
/-! SUPPORT. What the memory operations do: read after write, the canonical form is kept, and two canonical memories
with the same bytes are the same memory. -/

namespace Sys2Proof.Machine

/-- An address below every listed one reads as an unlisted one. -/
theorem Memory.read_of_lt {m : Memory} {a : Nat} (h : ∀ c ∈ m, a < c.1) : m.read a = unlistedByte := by
  induction m with
  | nil => rfl
  | cons c rest ih =>
    have hc := h c (by simp)
    simp only [Memory.read]
    rw [if_neg (by omega)]
    exact ih fun d hd => h d (by simp [hd])

/-- The listed addresses after a write are the old ones and the new one. -/
theorem Memory.mem_write {m : Memory} {a : Nat} {b : Byte} {c : Host.Cell} (h : c ∈ m.write a b) :
    c = (a, b) ∨ c ∈ m := by
  induction m with
  | nil =>
    simp only [Memory.write] at h
    split at h
    · simp at h
    · left; simpa using h
  | cons d rest ih =>
    simp only [Memory.write] at h
    split at h
    · split at h
      · right; exact h
      · rcases List.mem_cons.mp h with h | h
        · exact .inl h
        · exact .inr h
    · split at h
      · split at h
        · right; exact List.mem_cons_of_mem _ h
        · rcases List.mem_cons.mp h with h | h
          · exact .inl h
          · exact .inr (List.mem_cons_of_mem _ h)
      · rcases List.mem_cons.mp h with h | h
        · right; simp [h]
        · rcases ih h with h | h
          · exact .inl h
          · exact .inr (List.mem_cons_of_mem _ h)

/-- A write keeps the canonical form. -/
theorem Memory.write_wf {m : Memory} (h : m.wf) (a : Nat) (b : Byte) : (m.write a b).wf := by
  induction m with
  | nil =>
    simp only [Memory.write]
    split
    · simp [Memory.wf]
    · next hb => simp [Memory.wf, hb]
  | cons c rest ih =>
    obtain ⟨hs, hz⟩ := h
    have hs' := List.pairwise_cons.mp hs
    have hrest : Memory.wf rest := ⟨hs'.2, fun d hd => hz d (List.mem_cons_of_mem _ hd)⟩
    simp only [Memory.write]
    split
    · next hlt =>
      split
      · exact ⟨hs, hz⟩
      · next hb =>
        refine ⟨List.pairwise_cons.mpr ⟨?_, hs⟩, ?_⟩
        · intro d hd
          rcases List.mem_cons.mp hd with rfl | hd
          · exact hlt
          · exact Nat.lt_trans hlt (hs'.1 d hd)
        · intro d hd
          rcases List.mem_cons.mp hd with rfl | hd
          · exact hb
          · exact hz d hd
    · split
      · next heq =>
        split
        · exact hrest
        · next hb =>
          refine ⟨List.pairwise_cons.mpr ⟨?_, hs'.2⟩, ?_⟩
          · intro d hd; simpa [heq] using hs'.1 d hd
          · intro d hd
            rcases List.mem_cons.mp hd with rfl | hd
            · exact hb
            · exact hrest.2 d hd
      · next hge hne =>
        have hw := ih hrest
        refine ⟨List.pairwise_cons.mpr ⟨?_, hw.1⟩, ?_⟩
        · intro d hd
          rcases Memory.mem_write hd with rfl | hd
          · simp only; omega
          · exact hs'.1 d hd
        · intro d hd
          rcases List.mem_cons.mp hd with rfl | hd
          · exact hz _ (by simp)
          · exact hw.2 d hd

/-- Read after write. -/
theorem Memory.read_write {m : Memory} (h : m.wf) (a : Nat) (b : Byte) (x : Nat) :
    (m.write a b).read x = if x = a then b else m.read x := by
  induction m with
  | nil =>
    simp only [Memory.write]
    by_cases hb : b = unlistedByte
    · simp [hb, Memory.read]
    · by_cases hx : x = a
      · simp [hb, Memory.read, hx]
      · simp [hb, Memory.read, hx, Ne.symm hx]
  | cons c rest ih =>
    obtain ⟨hs, hz⟩ := h
    have hs' := List.pairwise_cons.mp hs
    have hrest : Memory.wf rest := ⟨hs'.2, fun d hd => hz d (List.mem_cons_of_mem _ hd)⟩
    obtain ⟨k, e⟩ := c
    simp only [Memory.write]
    by_cases hlt : a < k
    · have hbelow : Memory.read ((k, e) :: rest) a = unlistedByte := by
        apply Memory.read_of_lt
        intro d hd
        rcases List.mem_cons.mp hd with rfl | hd
        · exact hlt
        · exact Nat.lt_trans hlt (hs'.1 d hd)
      rw [if_pos hlt]
      by_cases hb : b = unlistedByte
      · by_cases hx : x = a
        · simp [hb, hx, hbelow]
        · simp [hb, hx]
      · by_cases hx : x = a
        · simp [hb, hx, Memory.read]
        · rw [if_neg hb, if_neg hx]
          conv_lhs => rw [Memory.read]
          rw [if_neg (Ne.symm hx)]
    · rw [if_neg hlt]
      by_cases heq : a = k
      · have hrestlt : ∀ d ∈ rest, a < d.1 := fun d hd => by simpa [heq] using hs'.1 d hd
        rw [if_pos heq]
        by_cases hb : b = unlistedByte
        · by_cases hx : x = a
          · rw [if_pos hb, if_pos hx, hb, hx]; exact Memory.read_of_lt hrestlt
          · rw [if_pos hb, if_neg hx]
            conv_rhs => rw [Memory.read]
            rw [if_neg (by omega)]
        · by_cases hx : x = a
          · simp [hb, hx, Memory.read]
          · rw [if_neg hb, if_neg hx, Memory.read, Memory.read, if_neg (Ne.symm hx), if_neg (by omega)]
      · rw [if_neg heq, Memory.read, Memory.read]
        by_cases hk : k = x
        · rw [if_pos hk, if_pos hk, if_neg (by omega)]
        · rw [if_neg hk, if_neg hk, ih hrest]

/-- A list of writes keeps the canonical form. -/
theorem Memory.writeAll_wf {m : Memory} (h : m.wf) (cells : List Host.Cell) : (m.writeAll cells).wf := by
  induction cells generalizing m with
  | nil => exact h
  | cons c rest ih => exact ih (Memory.write_wf h c.1 c.2)

/-- Listed addresses stay in a set that holds the written ones. -/
theorem Memory.writeAll_all {P : Nat → Prop} {m : Memory} (h : ∀ c ∈ m, P c.1) {cells : List Host.Cell}
    (hc : ∀ c ∈ cells, P c.1) : ∀ c ∈ m.writeAll cells, P c.1 := by
  induction cells generalizing m with
  | nil => exact h
  | cons d rest ih =>
    refine ih (m := m.write d.1 d.2) ?_ fun c hc' => hc c (List.mem_cons_of_mem _ hc')
    intro c hc'
    rcases Memory.mem_write hc' with rfl | hc'
    · exact hc d (by simp)
    · exact h c hc'

/-- Writes inside the address space keep the listed addresses inside it. -/
theorem Memory.writeAll_inSpace {m : Memory} (h : m.inSpace) {cells : List Host.Cell}
    (hc : ∀ c ∈ cells, c.1 < addressLimit) : (m.writeAll cells).inSpace :=
  Memory.writeAll_all (P := fun a => a < addressLimit) h hc

/-- A byte that no write of the list names reads as before. -/
theorem Memory.read_writeAll_of_not_mem {m : Memory} (h : m.wf) {cells : List Host.Cell} {x : Nat}
    (hx : ∀ c ∈ cells, c.1 ≠ x) : (m.writeAll cells).read x = m.read x := by
  induction cells generalizing m with
  | nil => rfl
  | cons c rest ih =>
    have h1 := ih (Memory.write_wf h c.1 c.2) fun d hd => hx d (List.mem_cons_of_mem _ hd)
    exact h1.trans (by rw [Memory.read_write h, if_neg (Ne.symm (hx c (by simp)))])

/-- Where all writes to an address agree, the address reads as written. -/
theorem Memory.read_writeAll_of_mem {m : Memory} (h : m.wf) {cells : List Host.Cell} {a : Nat} {b : Byte}
    (hin : (a, b) ∈ cells) (hu : ∀ c ∈ cells, c.1 = a → c.2 = b) : (m.writeAll cells).read a = b := by
  induction cells generalizing m with
  | nil => simp at hin
  | cons c rest ih =>
    have hwf := Memory.write_wf h c.1 c.2
    have hu' : ∀ d ∈ rest, d.1 = a → d.2 = b := fun d hd => hu d (List.mem_cons_of_mem _ hd)
    by_cases hr : (a, b) ∈ rest
    · exact ih hwf hr hu'
    · have hcb : c = (a, b) := by
        rcases List.mem_cons.mp hin with h' | h'
        · exact h'.symm
        · exact absurd h' hr
      have hno : ∀ d ∈ rest, d.1 ≠ a := by
        intro d hd hda
        exact hr (by have := hu' d hd hda; rw [← hda, ← this]; exact hd)
      have := Memory.read_writeAll_of_not_mem hwf hno
      exact this.trans (by rw [Memory.read_write h, hcb]; simp)

/-- Two canonical memories that read the same everywhere are the same list. -/
theorem Memory.ext_of_wf {m n : Memory} (hm : m.wf) (hn : n.wf) (h : ∀ x, m.read x = n.read x) : m = n := by
  induction m generalizing n with
  | nil =>
    cases n with
    | nil => rfl
    | cons c rest =>
      have := h c.1
      simp only [Memory.read, if_true] at this
      exact absurd this.symm (hn.2 c (by simp))
  | cons c rest ih =>
    have hs := List.pairwise_cons.mp hm.1
    have hrest : Memory.wf rest := ⟨hs.2, fun d hd => hm.2 d (List.mem_cons_of_mem _ hd)⟩
    cases n with
    | nil =>
      have := h c.1
      simp only [Memory.read, if_true] at this
      exact absurd this (hm.2 c (by simp))
    | cons d tail =>
      have ht := List.pairwise_cons.mp hn.1
      have htail : Memory.wf tail := ⟨ht.2, fun e he => hn.2 e (List.mem_cons_of_mem _ he)⟩
      have key : c.1 = d.1 := by
        rcases Nat.lt_trichotomy c.1 d.1 with hlt | heq | hgt
        · have hr : Memory.read (d :: tail) c.1 = unlistedByte := by
            apply Memory.read_of_lt
            intro e he
            rcases List.mem_cons.mp he with rfl | he
            · exact hlt
            · exact Nat.lt_trans hlt (ht.1 e he)
          have := h c.1
          simp only [Memory.read, if_true] at this
          exact absurd (this.trans hr) (hm.2 c (by simp))
        · exact heq
        · have hr : Memory.read (c :: rest) d.1 = unlistedByte := by
            apply Memory.read_of_lt
            intro e he
            rcases List.mem_cons.mp he with rfl | he
            · exact hgt
            · exact Nat.lt_trans hgt (hs.1 e he)
          have := h d.1
          rw [hr] at this
          simp only [Memory.read, if_true] at this
          exact absurd this.symm (hn.2 d (by simp))
      have hval : c.2 = d.2 := by
        have := h c.1
        simpa [Memory.read, key] using this
      have hcd : c = d := Prod.ext key hval
      subst hcd
      rw [ih hrest htail fun x => ?_]
      by_cases hx : c.1 = x
      · rw [Memory.read_of_lt fun e he => hx ▸ hs.1 e he, Memory.read_of_lt fun e he => hx ▸ ht.1 e he]
      · have := h x
        simpa [Memory.read, hx] using this

/-- The four bytes that a 32-bit store writes lie at its address and the three after it. -/
theorem mem_cells32 {a : Nat} {w : Word} {c : Host.Cell} (h : c ∈ cells32 a w) : a ≤ c.1 ∧ c.1 < a + 4 := by
  simp only [cells32, List.mem_cons, List.not_mem_nil, or_false] at h
  rcases h with rfl | rfl | rfl | rfl <;> simp

/-- The two bytes that a 16-bit store writes lie at its address and the one after it. -/
theorem mem_cells16 {a : Nat} {v : Half} {c : Host.Cell} (h : c ∈ cells16 a v) : a ≤ c.1 ∧ c.1 < a + 2 := by
  simp only [cells16, List.mem_cons, List.not_mem_nil, or_false] at h
  rcases h with rfl | rfl <;> simp

/-- Memory whose four bytes at `a` are those of `w` reads as `w` (R32). -/
theorem Memory.read32_of_bytes {m : Memory} {a : Nat} {w : Word} (h : ∀ c ∈ cells32 a w, m.read c.1 = c.2) :
    m.read32 a = w := by
  have h0 := h (a, w.extractLsb' 0 8) (by simp [cells32])
  have h1 := h (a + 1, w.extractLsb' 8 8) (by simp [cells32])
  have h2 := h (a + 2, w.extractLsb' 16 8) (by simp [cells32])
  have h3 := h (a + 3, w.extractLsb' 24 8) (by simp [cells32])
  simp only at h0 h1 h2 h3
  rw [Memory.read32, h0, h1, h2, h3]
  ext i hi
  simp only [BitVec.getElem_append, BitVec.getElem_extractLsb']
  split
  · simp [BitVec.getLsbD_eq_getElem hi]
  · split
    · rw [← BitVec.getLsbD_eq_getElem]; congr 1; omega
    · split
      · rw [← BitVec.getLsbD_eq_getElem]; congr 1; omega
      · rw [← BitVec.getLsbD_eq_getElem]; congr 1; omega

/-- Memory whose two bytes at `a` are those of `v` reads as `v` (R32). -/
theorem Memory.read16_of_bytes {m : Memory} {a : Nat} {v : Half} (h : ∀ c ∈ cells16 a v, m.read c.1 = c.2) :
    m.read16 a = v := by
  have h0 := h (a, v.extractLsb' 0 8) (by simp [cells16])
  have h1 := h (a + 1, v.extractLsb' 8 8) (by simp [cells16])
  simp only at h0 h1
  rw [Memory.read16, h0, h1]
  ext i hi
  simp only [BitVec.getElem_append, BitVec.getElem_extractLsb']
  split
  · simp [BitVec.getLsbD_eq_getElem hi]
  · rw [← BitVec.getLsbD_eq_getElem]; congr 1; omega

end Sys2Proof.Machine
end

