-- ==== Sys2Proof/Laws/Regions.lean ====
section
/-! SUPPORT. What the executable checks on plane regions say in the spec's terms (R33 to R40), and what a block command
leaves in memory. -/

namespace Sys2Proof.Machine

/-- A sample lies in its row. -/
theorem Region.addr_eq (g : Region) (r c : Nat) : g.addr r c = g.addr r 0 + g.size * c := by
  simp only [Region.addr, Nat.add_zero, Nat.mul_add]; omega

/-- The footprint of R34, row by row. -/
theorem inRegion_iff {g : Region} {x : Nat} :
    InRegion g x ↔ ∃ r, r < g.height ∧ g.addr r 0 ≤ x ∧ x < g.addr r 0 + g.size * g.width := by
  constructor
  · rintro ⟨r, c, k, hr, hc, hk, hx⟩
    have h1 : x = g.addr r 0 + (g.size * c + k) := by
      rw [hx]; simp only [Region.addr, Nat.add_zero, Nat.mul_add]; omega
    have h2 : g.size * (c + 1) ≤ g.size * g.width := Nat.mul_le_mul_left _ hc
    rw [Nat.mul_add] at h2
    exact ⟨r, hr, by omega, by omega⟩
  · rintro ⟨r, hr, h1, h2⟩
    have hpos : 0 < g.size := by
      rcases Nat.eq_zero_or_pos g.size with h | h
      · rw [h] at h2; simp at h2; omega
      · exact h
    obtain ⟨d, rfl⟩ : ∃ d, x = g.addr r 0 + d := ⟨x - g.addr r 0, by omega⟩
    refine ⟨r, d / g.size, d % g.size, hr, ?_, Nat.mod_lt _ hpos, ?_⟩
    · exact Nat.div_lt_of_lt_mul (by omega)
    · have := Nat.div_add_mod d g.size
      simp only [Region.addr, Nat.add_zero, Nat.mul_add] at *
      omega

/-- The executable test of membership is membership (R34). -/
theorem Region.contains_iff {g : Region} {x : Nat} : g.contains x = true ↔ InRegion g x := by
  rw [inRegion_iff]
  simp [Region.contains, Region.rowContains]

/-- The list of a footprint's bytes is the footprint (R34). -/
theorem Region.mem_bytes {g : Region} {x : Nat} : x ∈ g.bytes ↔ InRegion g x := by
  rw [inRegion_iff]
  simp only [Region.bytes, Region.rowBytes, List.mem_flatMap, List.mem_map, List.mem_range]
  constructor
  · rintro ⟨r, hr, k, hk, rfl⟩; exact ⟨r, hr, by omega, by omega⟩
  · rintro ⟨r, hr, h1, h2⟩; exact ⟨r, hr, x - g.addr r 0, by omega, by omega⟩

/-- A region of no width or no height has no byte (R34). -/
theorem Region.not_inRegion_of_isEmpty {g : Region} (h : g.isEmpty = true) (x : Nat) : ¬ InRegion g x := by
  rintro ⟨r, c, k, hr, hc, -⟩
  simp only [Region.isEmpty, Bool.or_eq_true, beq_iff_eq] at h
  omega

/-- Rows of two footprints meet exactly when they share a byte, unless a row is empty. -/
theorem Region.rowsMeet_iff {g h : Region} {r q : Nat} (hg : 0 < g.size * g.width) (hh : 0 < h.size * h.width) :
    g.rowsMeet h r q = true ↔
      ∃ x, (g.addr r 0 ≤ x ∧ x < g.addr r 0 + g.size * g.width) ∧
        (h.addr q 0 ≤ x ∧ x < h.addr q 0 + h.size * h.width) := by
  simp only [Region.rowsMeet, Bool.and_eq_true, decide_eq_true_eq]
  constructor
  · rintro ⟨h1, h2⟩
    exact ⟨max (g.addr r 0) (h.addr q 0), by omega, by omega⟩
  · rintro ⟨x, h1, h2⟩; omega

/-- The executable test of overlap is a shared byte (R40). -/
theorem Region.meets_iff {g h : Region} (hg : 0 < g.size) (hh : 0 < h.size) :
    g.meets h = true ↔ ∃ x, InRegion g x ∧ InRegion h x := by
  by_cases hge : g.isEmpty = true
  · simp [Region.meets, hge, Region.not_inRegion_of_isEmpty hge]
  by_cases hhe : h.isEmpty = true
  · simp [Region.meets, hhe, Region.not_inRegion_of_isEmpty hhe]
  have hgw : 0 < g.size * g.width := by
    simp only [Region.isEmpty, Bool.or_eq_true, beq_iff_eq, not_or] at hge
    exact Nat.mul_pos hg (by omega)
  have hhw : 0 < h.size * h.width := by
    simp only [Region.isEmpty, Bool.or_eq_true, beq_iff_eq, not_or] at hhe
    exact Nat.mul_pos hh (by omega)
  simp only [Bool.not_eq_true] at hge hhe
  simp only [Region.meets, hge, hhe, Bool.not_false, Bool.true_and, List.any_eq_true, List.mem_range,
    Region.rowsMeet_iff hgw hhw, inRegion_iff]
  constructor
  · rintro ⟨r, hr, q, hq, x, h1, h2⟩; exact ⟨x, ⟨r, hr, h1⟩, q, hq, h2⟩
  · rintro ⟨x, ⟨r, hr, h1⟩, q, hq, h2⟩; exact ⟨r, hr, q, hq, x, h1, h2⟩

/-- The executable bound is the bound of R38. -/
theorem Region.inMemory_iff {p : Platform} {g : Region} :
    g.inMemory p = true ↔
      (0 < g.width → 0 < g.height → g.base + g.size * ((g.height - 1) * g.stride + g.width) ≤ addressLimit) ∧
        ∀ x, InRegion g x → populated p x = true := by
  by_cases he : g.isEmpty = true
  · have hn := Region.not_inRegion_of_isEmpty he
    simp only [Region.inMemory, he, Bool.true_or, true_iff]
    refine ⟨fun hw hh => ?_, fun x hx => absurd hx (hn x)⟩
    simp only [Region.isEmpty, Bool.or_eq_true, beq_iff_eq] at he
    omega
  · have he' : 0 < g.width ∧ 0 < g.height := by
      simp only [Region.isEmpty, Bool.or_eq_true, beq_iff_eq, not_or] at he; omega
    simp only [Bool.not_eq_true] at he
    simp only [Region.inMemory, he, Bool.false_or, Bool.and_eq_true, decide_eq_true_eq, List.all_eq_true,
      List.mem_range, he', true_imp_iff]
    refine and_congr_right fun _ => ?_
    simp only [← Region.mem_bytes, Region.bytes, List.mem_flatMap, List.mem_range]
    constructor
    · rintro h x ⟨r, hr, hx⟩; exact h r hr x hx
    · intro h r hr x hx; exact h x ⟨r, hr, hx⟩

/-- A populated address is an address of the 32-bit space. -/
theorem populated_lt {p : Platform} {x : Nat} (h : populated p x = true) : x < addressLimit := by
  simp only [populated, Bool.and_eq_true, decide_eq_true_eq] at h
  exact h.1.1

/-- No byte of a register word is populated (R54). -/
theorem populated_not_register {p : Platform} {x : Nat} (h : populated p x = true) :
    inRegisterWindow p x = false := by
  simp only [populated, Bool.and_eq_true, Bool.not_eq_true'] at h
  exact h.1.2

/-- The blocks of the tiling (R35). -/
theorem Region.mem_blocks {g : Region} {b : Nat × Nat} :
    b ∈ g.blocks ↔ b.1 < g.height / 8 ∧ b.2 < g.width / 8 := by
  obtain ⟨y, x⟩ := b
  simp [Region.blocks]

/-- The 64 positions of a block are all there. -/
theorem mem_positions (p : Fin 8 × Fin 8) : p ∈ positions := by
  obtain ⟨i, j⟩ := p
  simp only [positions, List.mem_flatMap, List.mem_map]
  refine ⟨i, ?_, j, ?_, rfl⟩ <;> simp only [eight] <;> fin_cases i <;> fin_cases j <;> simp

/-- A sample of a block of the tiling lies in the region (R35). -/
theorem Region.blockAddr_inRegion {g : Region} {y x : Nat} {i j : Fin 8} (hb : (y, x) ∈ g.blocks) {k : Nat}
    (hk : k < g.size) : InRegion g (g.blockAddr y x i j + k) := by
  have h := Region.mem_blocks.mp hb
  have hi := i.isLt
  have hj := j.isLt
  simp only at h
  exact ⟨8 * y + i.val, 8 * x + j.val, k, by omega, by omega, hk, rfl⟩

/-- With a stride at least the width, samples at different places share no byte (R33, R35). -/
theorem Region.addr_apart {g : Region} (hs : g.width ≤ g.stride) {r c r' c' : Nat} (hc : c < g.width)
    (hc' : c' < g.width) {k k' : Nat} (hk : k < g.size) (hk' : k' < g.size)
    (h : g.addr r c + k = g.addr r' c' + k') : r = r' ∧ c = c' ∧ k = k' := by
  have h' : g.size * (r * g.stride + c) + k = g.size * (r' * g.stride + c') + k' := by
    simp only [Region.addr] at h; omega
  have hq : r * g.stride + c = r' * g.stride + c' := by
    have := congrArg (· / g.size) h'
    simpa [Nat.mul_add_div (by omega : 0 < g.size), Nat.div_eq_of_lt hk, Nat.div_eq_of_lt hk'] using this
  have hkk : k = k' := by rw [hq] at h'; omega
  have hS : 0 < g.stride := by omega
  have hr : r = r' := by
    have := congrArg (· / g.stride) hq
    simpa [Nat.mul_comm _ g.stride, Nat.mul_add_div hS, Nat.div_eq_of_lt (show c < g.stride by omega),
      Nat.div_eq_of_lt (show c' < g.stride by omega)] using this
  subst hr
  exact ⟨rfl, by omega, hkk⟩

/-- The same for the samples of the blocks of the tiling (R35): "every sample of the region is in exactly one block". -/
theorem Region.blockAddr_apart {g : Region} (hs : g.width ≤ g.stride) {y x y' x' : Nat} {i j i' j' : Fin 8}
    (hb : (y, x) ∈ g.blocks) (hb' : (y', x') ∈ g.blocks) {k k' : Nat} (hk : k < g.size) (hk' : k' < g.size)
    (h : g.blockAddr y x i j + k = g.blockAddr y' x' i' j' + k') :
    (y = y' ∧ x = x') ∧ (i = i' ∧ j = j') ∧ k = k' := by
  have h1 := Region.mem_blocks.mp hb
  have h2 := Region.mem_blocks.mp hb'
  have hi := i.isLt
  have hj := j.isLt
  have hi' := i'.isLt
  have hj' := j'.isLt
  simp only at h1 h2
  obtain ⟨hr, hc, hkk⟩ := Region.addr_apart hs (by omega) (by omega) hk hk' h
  exact ⟨by omega, ⟨Fin.ext (by omega), Fin.ext (by omega)⟩, hkk⟩

/-- The bytes a command stores are those of its samples. -/
theorem mem_blockCells {g : Region} {bs : List (Nat × Nat)} {cells : Nat → Nat → Fin 8 → Fin 8 → Nat → List Host.Cell}
    {c : Host.Cell} :
    c ∈ blockCells g bs cells ↔
      ∃ y x i j, (y, x) ∈ bs ∧ c ∈ cells y x i j (g.blockAddr y x i j) := by
  simp only [blockCells, List.mem_flatMap]
  constructor
  · rintro ⟨⟨y, x⟩, hb, ⟨i, j⟩, -, hc⟩; exact ⟨y, x, i, j, hb, hc⟩
  · rintro ⟨y, x, i, j, hb, hc⟩; exact ⟨(y, x), hb, (i, j), mem_positions _, hc⟩

/-- A command whose samples are stored in place of the region's samples stores inside the region (R39). -/
theorem blockCells_inRegion {g : Region} {cells : Nat → Nat → Fin 8 → Fin 8 → Nat → List Host.Cell}
    (hsz : ∀ y x i j a, ∀ c ∈ cells y x i j a, a ≤ c.1 ∧ c.1 < a + g.size) :
    ∀ c ∈ blockCells g g.blocks cells, InRegion g c.1 := by
  intro c hc
  obtain ⟨y, x, i, j, hb, hc⟩ := mem_blockCells.mp hc
  obtain ⟨h1, h2⟩ := hsz _ _ _ _ _ c hc
  have := Region.blockAddr_inRegion (i := i) (j := j) hb (k := c.1 - g.blockAddr y x i j) (by omega)
  rwa [Nat.add_sub_cancel' h1] at this

/-- What a block command leaves outside its destination: everything as before (R39, R90). -/
theorem Memory.read_blockCells_outside {m : Memory} (h : m.wf) {g : Region}
    {cells : Nat → Nat → Fin 8 → Fin 8 → Nat → List Host.Cell}
    (hsz : ∀ y x i j a, ∀ c ∈ cells y x i j a, a ≤ c.1 ∧ c.1 < a + g.size) {a : Nat} (ha : ¬ InRegion g a) :
    (m.writeAll (blockCells g g.blocks cells)).read a = m.read a :=
  Memory.read_writeAll_of_not_mem h fun c hc hca => ha (hca ▸ blockCells_inRegion hsz c hc)

/-- What a block command leaves at each byte of its destination: the byte it stored there (R90, R105). -/
theorem Memory.read_blockCells_inside {m : Memory} (h : m.wf) {g : Region} (hs : g.width ≤ g.stride)
    {cells : Nat → Nat → Fin 8 → Fin 8 → Nat → List Host.Cell}
    (hsz : ∀ y x i j a, ∀ c ∈ cells y x i j a, a ≤ c.1 ∧ c.1 < a + g.size)
    (hu : ∀ y x i j a, ∀ c ∈ cells y x i j a, ∀ d ∈ cells y x i j a, c.1 = d.1 → c.2 = d.2)
    {y x : Nat} {i j : Fin 8} (hb : (y, x) ∈ g.blocks) :
    ∀ c ∈ cells y x i j (g.blockAddr y x i j), (m.writeAll (blockCells g g.blocks cells)).read c.1 = c.2 := by
  intro c hc
  refine Memory.read_writeAll_of_mem h (mem_blockCells.mpr ⟨y, x, i, j, hb, hc⟩) fun d hd hda => ?_
  obtain ⟨y', x', i', j', hb', hd⟩ := mem_blockCells.mp hd
  obtain ⟨h1, h2⟩ := hsz _ _ _ _ _ c hc
  obtain ⟨h3, h4⟩ := hsz _ _ _ _ _ d hd
  have key := Region.blockAddr_apart (i := i) (j := j) (i' := i') (j' := j') hs hb hb'
    (k := c.1 - g.blockAddr y x i j) (k' := d.1 - g.blockAddr y' x' i' j') (by omega) (by omega) (by omega)
  obtain ⟨⟨rfl, rfl⟩, ⟨rfl, rfl⟩, -⟩ := key
  exact hu _ _ _ _ _ d hd c hc hda

/-- Within one 32-bit sample the byte at an address is one byte. -/
theorem cells32_unique {a : Nat} {w : Word} : ∀ c ∈ cells32 a w, ∀ d ∈ cells32 a w, c.1 = d.1 → c.2 = d.2 := by
  intro c hc d hd h
  simp only [cells32, List.mem_cons, List.not_mem_nil, or_false] at hc hd
  rcases hc with rfl | rfl | rfl | rfl <;> rcases hd with rfl | rfl | rfl | rfl <;> simp at h ⊢

/-- Within one 16-bit sample the byte at an address is one byte. -/
theorem cells16_unique {a : Nat} {v : Half} : ∀ c ∈ cells16 a v, ∀ d ∈ cells16 a v, c.1 = d.1 → c.2 = d.2 := by
  intro c hc d hd h
  simp only [cells16, List.mem_cons, List.not_mem_nil, or_false] at hc hd
  rcases hc with rfl | rfl <;> rcases hd with rfl | rfl <;> simp at h ⊢

end Sys2Proof.Machine
end

