-- ==== Sys2Proof/Laws/Commands.lean ====
section
/-! SUPPORT. What a command does, said once: the operands it takes, the contract it checks, the memory it leaves, and
everything it leaves alone. -/

namespace Sys2Proof.Machine

/-! ### Samples -/

/-- A drawn NaN is a NaN (R72). -/
theorem f32OfBits_nanWord (d : Bool × Fin 8388607) : f32OfBits (nanWord d) = .nan := by
  obtain ⟨s, f, hf⟩ := d
  have hv : (nanWord (s, ⟨f, hf⟩)).toNat = s.toNat * 2147483648 + 255 * 8388608 + (f + 1) := by
    simp only [nanWord, BitVec.toNat_ofNat]
    cases s <;> simp <;> omega
  unfold f32OfBits
  simp only [hv]
  rw [dif_neg (by cases s <;> simp <;> omega), if_neg (by cases s <;> simp <;> omega)]

/-- The bits of a value stand for that value (R70). -/
theorem f32OfBits_f32ToBits {n : Word} (hn : f32OfBits n = .nan) (x : F32) : f32OfBits (f32ToBits n x) = x := by
  cases x with
  | nan => exact hn
  | inf s => cases s <;> (simp only [f32ToBits]; decide)
  | fin s e f =>
    obtain ⟨e, he⟩ := e
    obtain ⟨f, hf⟩ := f
    have hv : (f32ToBits n (.fin s ⟨e, he⟩ ⟨f, hf⟩)).toNat = s.toNat * 2147483648 + e * 8388608 + f := by
      simp only [f32ToBits, BitVec.toNat_ofNat]
      cases s <;> simp <;> omega
    unfold f32OfBits
    simp only [hv]
    have h1 : (s.toNat * 2147483648 + e * 8388608 + f) / 8388608 % 256 = e := by cases s <;> simp <;> omega
    have h2 : (s.toNat * 2147483648 + e * 8388608 + f) % 8388608 = f := by cases s <;> simp <;> omega
    have h3 : (s.toNat * 2147483648 + e * 8388608 + f) / 2147483648 = s.toNat := by cases s <;> simp <;> omega
    simp only [h1, h2, h3]
    rw [dif_pos he]
    cases s <;> rfl

/-- A float sample reads back as it was stored (R32, R72). -/
theorem readF32_of_storeF32 {m : Memory} {s : State} {a : Nat} {x : F32}
    (h : ∀ c ∈ storeF32 s a x, m.read c.1 = c.2) : readF32 m a = x := by
  rw [readF32, Memory.read32_of_bytes h]
  exact f32OfBits_f32ToBits (f32OfBits_nanWord _) x

/-- An integer sample in range reads back as it was stored (R32). -/
theorem readS16_of_storeS16 {m : Memory} {a : Nat} {v : Int} (hv : fitsHalf v = true)
    (h : ∀ c ∈ storeS16 a v, m.read c.1 = c.2) : readS16 m a = v := by
  rw [readS16, Memory.read16_of_bytes h]
  simp only [fitsHalf, Bool.and_eq_true, decide_eq_true_eq] at hv
  rw [BitVec.toInt_ofInt]
  simp only [Int.bmod_def]
  omega

/-! ### Operands and contract -/

/-- The regions of a command differ in the base pointer only (R33, R52). -/
theorem launchOf_regions {i : Instr} {e : Engine} {l : Launch} (h : launchOf i e = some l) :
    l.src.size = sampleSize i ∧ l.dst.size = sampleSize i ∧ l.src.stride = l.dst.stride ∧
      l.src.width = l.dst.width ∧ l.src.height = l.dst.height := by
  unfold launchOf at h
  split at h
  · split at h
    · cases h; exact ⟨rfl, rfl, rfl, rfl, rfl⟩
    · cases h; exact ⟨rfl, rfl, rfl, rfl, rfl⟩
    · cases h
  · cases h

/-- The regions of an in-place command are one (R39). -/
theorem launchOf_inPlace {i : Instr} {e : Engine} {l : Launch} (h : launchOf i e = some l)
    (hi : shapeOf i = .inPlace) : l.src = l.dst := by
  unfold launchOf at h
  split at h
  · split at h
    · cases h; rfl
    · next h2 _ => rw [hi] at h2; cases h2
    · cases h
  · cases h

/-- The operands depend on the operand registers alone. -/
theorem launchOf_congr {i : Instr} {e e' : Engine} (h0 : e.src = e'.src) (h1 : e.dst = e'.dst)
    (h2 : e.stride = e'.stride) (h3 : e.roiW = e'.roiW) (h4 : e.roiH = e'.roiH) : launchOf i e = launchOf i e' := by
  unfold launchOf; rw [h0, h1, h2, h3, h4]

@[simp] theorem launchOf_launched (i : Instr) (e : Engine) (w : Word) : launchOf i (e.launched w) = launchOf i e := rfl

@[simp] theorem launchOf_completed (i : Instr) (e : Engine) : launchOf i e.completed = launchOf i e := rfl

/-- A sample size is 2 or 4 (R31). -/
theorem sampleSize_pos (i : Instr) : 0 < sampleSize i := by cases i <;> decide

/-- No violation: every clause `PV1` to `PV6` is kept (R126). -/
theorem violation_eq_none_iff {p : Platform} {l : Launch} :
    l.violation p = none ↔
      (l.dst.width % 8 = 0 ∧ l.dst.height % 8 = 0) ∧ l.dst.width ≤ l.dst.stride ∧
        (l.src.base ≠ 0 ∧ l.dst.base ≠ 0) ∧ (l.src.base % l.src.size = 0 ∧ l.dst.base % l.dst.size = 0) ∧
          (l.src.inMemory p = true ∧ l.dst.inMemory p = true) ∧
            (l.src.base = l.dst.base ∨ l.src.meets l.dst = false) := by
  unfold Launch.violation
  split
  · next h => simp; omega
  · next h1 =>
    split
    · next h => simp; omega
    · next h2 =>
      split
      · next h => simp; omega
      · next h3 =>
        split
        · next h => simp; omega
        · next h4 =>
          split
          · next h =>
            simp only [Bool.or_eq_true, Bool.not_eq_true'] at h
            constructor
            · intro hh; cases hh
            · rintro ⟨-, -, -, -, ⟨h5, h6⟩, -⟩
              rcases h with h | h
              · rw [h5] at h; cases h
              · rw [h6] at h; cases h
          · next h5 =>
            split
            · next h =>
              constructor
              · intro hh; cases hh
              · rintro ⟨-, -, -, -, -, h6 | h6⟩
                · exact absurd h6 h.1
                · rw [h6] at h; exact absurd h.2 (by simp)
            · next h6 =>
              simp only [Bool.or_eq_true, Bool.not_eq_true', not_or, Bool.not_eq_false] at h5
              refine ⟨fun _ => ⟨by omega, by omega, by omega, by omega, h5, ?_⟩, fun _ => rfl⟩
              by_cases hb : l.src.base = l.dst.base
              · exact .inl hb
              · refine .inr ?_
                cases hm : l.src.meets l.dst
                · rfl
                · exact absurd ⟨hb, hm⟩ h6

/-! ### The shared command operation -/

/-- A command that runs: its operands are there, the contract holds, no other engine is in the way, and the effect
gives the outcome. -/
theorem runCommand_next {i : Instr} {s t : State} {f : Launch → Host.Outcome State Fault Refusal}
    (h : runCommand i s f = .next t) :
    ∃ l, launchOf i s.engine = some l ∧ l.violation s.platform = none ∧ othersConflict s l = false ∧ f l = .next t := by
  unfold runCommand at h
  split at h
  · cases h
  · next l hl =>
    split at h
    · cases h
    · next hv =>
      split at h
      · cases h
      · next hc => exact ⟨l, hl, hv, by simpa using hc, h⟩

/-- A command whose contract holds runs its effect. -/
theorem runCommand_eq {i : Instr} {s : State} {f : Launch → Host.Outcome State Fault Refusal} {l : Launch}
    (hl : launchOf i s.engine = some l) (hv : l.violation s.platform = none) (hc : othersConflict s l = false) :
    runCommand i s f = f l := by
  unfold runCommand; simp [hl, hv, hc]

/-! ### The memory of a command -/

theorem mem_storeF32 {s : State} {a : Nat} {x : F32} {c : Host.Cell} (h : c ∈ storeF32 s a x) :
    a ≤ c.1 ∧ c.1 < a + 4 := mem_cells32 h

theorem mem_storeS16 {a : Nat} {v : Int} {c : Host.Cell} (h : c ∈ storeS16 a v) : a ≤ c.1 ∧ c.1 < a + 2 :=
  mem_cells16 h

/-- `Exec2`: each destination sample is the block function's value at its position (R90). -/
theorem readF32_exec2 {f : Block F32 → Block F32} {s : State} {l : Launch} (hm : s.mem.wf)
    (hsz : l.dst.size = 4) (hs : l.dst.width ≤ l.dst.stride) {y x : Nat} (hb : (y, x) ∈ l.dst.blocks) (i j : Fin 8) :
    readF32 (exec2 f s l) (l.dst.blockAddr y x i j) = f (readBlock s.mem l.src y x) i j :=
  readF32_of_storeF32 fun c hc => Memory.read_blockCells_inside
    (cells := fun y x i j a => storeF32 s a (f (readBlock s.mem l.src y x) i j))
    hm hs (fun _ _ _ _ _ _ hc => by rw [hsz]; exact mem_storeF32 hc) (fun _ _ _ _ _ => cells32_unique) hb c hc

/-- `Exec2` leaves bytes outside the destination footprint alone (R39, R90). -/
theorem read_exec2_outside {f : Block F32 → Block F32} {s : State} {l : Launch} (hm : s.mem.wf)
    (hsz : l.dst.size = 4) {a : Nat} (ha : ¬ InRegion l.dst a) : (exec2 f s l).read a = s.mem.read a :=
  Memory.read_blockCells_outside hm (fun _ _ _ _ _ _ hc => by rw [hsz]; exact mem_storeF32 hc) ha

/-- `Exec1` on float samples: each sample is replaced by `g` of itself and its table entry (R105). -/
theorem readF32_exec1F32 {g : F32 → Divisor → F32} {s : State} {l : Launch} (hm : s.mem.wf)
    (hsz : l.dst.size = 4) (hs : l.dst.width ≤ l.dst.stride) {y x : Nat} (hb : (y, x) ∈ l.dst.blocks) (i j : Fin 8) :
    readF32 (exec1F32 g s l) (l.dst.blockAddr y x i j) =
      g (readF32 s.mem (l.dst.blockAddr y x i j)) (qtabAt s.platform i j) :=
  readF32_of_storeF32 fun c hc => Memory.read_blockCells_inside
    (cells := fun _ _ i j a => storeF32 s a (g (readF32 s.mem a) (qtabAt s.platform i j)))
    hm hs (fun _ _ _ _ _ _ hc => by rw [hsz]; exact mem_storeF32 hc) (fun _ _ _ _ _ => cells32_unique) hb c hc

theorem read_exec1F32_outside {g : F32 → Divisor → F32} {s : State} {l : Launch} (hm : s.mem.wf)
    (hsz : l.dst.size = 4) {a : Nat} (ha : ¬ InRegion l.dst a) : (exec1F32 g s l).read a = s.mem.read a :=
  Memory.read_blockCells_outside hm (fun _ _ _ _ _ _ hc => by rw [hsz]; exact mem_storeF32 hc) ha

/-- `Exec1` on integer samples: each sample whose new value fits 16 bits is replaced by `g` of itself and its table
entry (R105). -/
theorem readS16_exec1S16 {g : Int → Nat → Int} {s : State} {l : Launch} (hm : s.mem.wf)
    (hsz : l.dst.size = 2) (hs : l.dst.width ≤ l.dst.stride) {y x : Nat} (hb : (y, x) ∈ l.dst.blocks) (i j : Fin 8)
    (hfit : fitsHalf (g (readS16 s.mem (l.dst.blockAddr y x i j)) (qtabAt s.platform i j).val) = true) :
    readS16 (exec1S16 g s l) (l.dst.blockAddr y x i j) =
      g (readS16 s.mem (l.dst.blockAddr y x i j)) (qtabAt s.platform i j).val :=
  readS16_of_storeS16 hfit fun c hc => Memory.read_blockCells_inside
    (cells := fun _ _ i j a => storeS16 a (g (readS16 s.mem a) (qtabAt s.platform i j).val))
    hm hs (fun _ _ _ _ _ _ hc => by rw [hsz]; exact mem_storeS16 hc) (fun _ _ _ _ _ => cells16_unique) hb c hc

theorem read_exec1S16_outside {g : Int → Nat → Int} {s : State} {l : Launch} (hm : s.mem.wf)
    (hsz : l.dst.size = 2) {a : Nat} (ha : ¬ InRegion l.dst a) : (exec1S16 g s l).read a = s.mem.read a :=
  Memory.read_blockCells_outside hm (fun _ _ _ _ _ _ hc => by rw [hsz]; exact mem_storeS16 hc) ha

/-! ### A command whose contract holds -/

section Completion
variable {s : State} {l : Launch}

/-- `DCT8X8` under its contract (R91). -/
theorem exec_dct8x8_eq (hl : launchOf .dct8x8 s.engine = some l) (hv : l.violation s.platform = none)
    (hc : othersConflict s l = false) :
    exec .dct8x8 s = .next (complete s (exec2 (platformNum s.platform).dct2d s l)).afterDraw :=
  runCommand_eq hl hv hc

/-- `IDCT8X8` under its contract (R92). -/
theorem exec_idct8x8_eq (hl : launchOf .idct8x8 s.engine = some l) (hv : l.violation s.platform = none)
    (hc : othersConflict s l = false) :
    exec .idct8x8 s = .next (complete s (exec2 (platformNum s.platform).idct2d s l)).afterDraw :=
  runCommand_eq hl hv hc

/-- `QNTF` under its contract (R106). -/
theorem exec_qntf_eq (hl : launchOf .qntf s.engine = some l) (hv : l.violation s.platform = none)
    (hc : othersConflict s l = false) :
    exec .qntf s = .next (complete s (exec1F32 (platformNum s.platform).qdiv s l)).afterDraw :=
  runCommand_eq hl hv hc

/-- `QNTS` under its contract (R107). -/
theorem exec_qnts_eq (hl : launchOf .qnts s.engine = some l) (hv : l.violation s.platform = none)
    (hc : othersConflict s l = false) : exec .qnts s = .next (complete s (exec1S16 qrnd s l)) :=
  runCommand_eq hl hv hc

/-- `DEQF` under its contract (R108). -/
theorem exec_deqf_eq (hl : launchOf .deqf s.engine = some l) (hv : l.violation s.platform = none)
    (hc : othersConflict s l = false) :
    exec .deqf s = .next (complete s (exec1F32 (platformNum s.platform).qmul s l)).afterDraw :=
  runCommand_eq hl hv hc

/-- `DEQS` under its contract (R109): the products in range, or `PV10`. -/
theorem exec_deqs_eq (hl : launchOf .deqs s.engine = some l) (hv : l.violation s.platform = none)
    (hc : othersConflict s l = false) :
    exec .deqs s = if deqsInRange s l then .next (complete s (exec1S16 deqProduct s l))
      else .refused .pv10ProductOutOfRange :=
  runCommand_eq hl hv hc

end Completion

/-! ### Everything a command can do -/

/-- Any command that gives a next state: its operands and contract are in order, it stores to bytes of its destination
footprint only, it clears `BUSY` and sets `DONE`, and it changes nothing else but the count of free values. -/
theorem exec_next {i : Instr} {s t : State} (h : exec i s = .next t) :
    ∃ l cells, launchOf i s.engine = some l ∧ l.violation s.platform = none ∧ othersConflict s l = false ∧
      (∀ c ∈ cells, InRegion l.dst c.1) ∧
        (t = complete s (s.mem.writeAll cells) ∨ t = (complete s (s.mem.writeAll cells)).afterDraw) := by
  have float : ∀ {l : Launch} {cells : Nat → Nat → Fin 8 → Fin 8 → Nat → F32}, l.dst.size = 4 →
      ∀ c ∈ blockCells l.dst l.dst.blocks (fun y x i j a => storeF32 s a (cells y x i j a)), InRegion l.dst c.1 :=
    fun hsz => blockCells_inRegion fun _ _ _ _ _ c hc => by rw [hsz]; exact mem_storeF32 hc
  have half : ∀ {l : Launch} {cells : Nat → Nat → Fin 8 → Fin 8 → Nat → Int}, l.dst.size = 2 →
      ∀ c ∈ blockCells l.dst l.dst.blocks (fun y x i j a => storeS16 a (cells y x i j a)), InRegion l.dst c.1 :=
    fun hsz => blockCells_inRegion fun _ _ _ _ _ c hc => by rw [hsz]; exact mem_storeS16 hc
  cases i with
  | dct8x8 =>
    obtain ⟨l, hl, hv, hc, hf⟩ := runCommand_next (show runCommand .dct8x8 s _ = _ from h)
    cases hf
    exact ⟨l, _, hl, hv, hc, float (launchOf_regions hl).2.1, .inr rfl⟩
  | idct8x8 =>
    obtain ⟨l, hl, hv, hc, hf⟩ := runCommand_next (show runCommand .idct8x8 s _ = _ from h)
    cases hf
    exact ⟨l, _, hl, hv, hc, float (launchOf_regions hl).2.1, .inr rfl⟩
  | qntf =>
    obtain ⟨l, hl, hv, hc, hf⟩ := runCommand_next (show runCommand .qntf s _ = _ from h)
    cases hf
    exact ⟨l, _, hl, hv, hc, float (launchOf_regions hl).2.1, .inr rfl⟩
  | qnts =>
    obtain ⟨l, hl, hv, hc, hf⟩ := runCommand_next (show runCommand .qnts s _ = _ from h)
    cases hf
    exact ⟨l, _, hl, hv, hc, half (launchOf_regions hl).2.1, .inl rfl⟩
  | deqf =>
    obtain ⟨l, hl, hv, hc, hf⟩ := runCommand_next (show runCommand .deqf s _ = _ from h)
    cases hf
    exact ⟨l, _, hl, hv, hc, float (launchOf_regions hl).2.1, .inr rfl⟩
  | deqs =>
    obtain ⟨l, hl, hv, hc, hf⟩ := runCommand_next (show runCommand .deqs s _ = _ from h)
    split at hf
    · cases hf
      exact ⟨l, _, hl, hv, hc, half (launchOf_regions hl).2.1, .inl rfl⟩
    · cases hf

end Sys2Proof.Machine
end

