-- ==== Sys2Proof/Laws/Contract.lean ====
section
/-! SUPPORT. The executable contract checks against the contract in the spec's own terms (R34, R38, R40, R45, R126). -/

namespace Sys2Proof.Machine

/-- Operand registers that hold words give the regions of those words (R52). -/
theorem launchOf_of_holds {i : Instr} {e : Engine} {src dst stride w h : Word}
    (ho : HoldsOperands i e src dst stride w h) : launchOf i e = some (launchWords i src dst stride w h) := by
  obtain ⟨h0, h1, h2, h3, h4⟩ := ho
  unfold launchOf
  rw [h1, h2, h3, h4]
  cases hs : shapeOf i with
  | twoBuffer =>
    have h0 : e.src = .holds src := by rw [hs] at h0; exact h0
    simp only [h0]; rfl
  | inPlace =>
    have h0 : src = dst := by rw [hs] at h0; exact h0
    subst h0
    rfl

/-- Regions come from operand registers that hold words (R12, R52). -/
theorem holds_of_launchOf {i : Instr} {e : Engine} {l : Launch} (h : launchOf i e = some l) :
    ∃ src dst stride w h, HoldsOperands i e src dst stride w h ∧ l = launchWords i src dst stride w h := by
  unfold launchOf at h
  split at h
  · next d s w hh hd hs hw hhh =>
    split at h
    · next hsh =>
      cases h
      exact ⟨d, d, s, w, hh, ⟨by rw [hsh], hd, hs, hw, hhh⟩, rfl⟩
    · next a hsh ha =>
      cases h
      exact ⟨a, d, s, w, hh, ⟨by rw [hsh]; exact ha, hd, hs, hw, hhh⟩, rfl⟩
    · cases h
  · cases h

/-- No violation found is the contract kept (R126, `PV1` to `PV6`). -/
theorem violation_eq_none_iff_meetsContract {i : Instr} {p : Platform} {src dst stride w h : Word} :
    (launchWords i src dst stride w h).violation p = none ↔ MeetsContract i p src dst stride w h := by
  have hz : ∀ a : Word, a.toNat ≠ 0 ↔ a ≠ 0#32 := fun a => by
    rw [ne_eq, ne_eq, ← BitVec.toNat_inj]; simp
  have hb : src.toNat = dst.toNat ↔ src = dst := BitVec.toNat_inj
  have hp := sampleSize_pos i
  have hm : (launchWords i src dst stride w h).src.meets (launchWords i src dst stride w h).dst = false ↔
      ∀ x, ¬ (InFootprint src.toNat stride.toNat w.toNat h.toNat (sampleSize i) x ∧
        InFootprint dst.toNat stride.toNat w.toNat h.toNat (sampleSize i) x) := by
    rw [← not_exists, ← Bool.not_eq_true, not_iff_not]
    exact Region.meets_iff hp hp
  rw [violation_eq_none_iff, hm]
  simp only [Region.inMemory_iff]
  simp only [launchWords, MeetsContract, PointerInMemory, InRegion, hz, hb]
  constructor
  · rintro ⟨a, b, c, e, f, d⟩; exact ⟨a, b, c, d, e, f⟩
  · rintro ⟨a, b, c, d, e, f⟩; exact ⟨a, b, c, e, f, d⟩

/-- No conflict found is no conflict with another engine's running command (R45, `PV11`). -/
theorem othersConflict_eq_false_iff {s : State} {l : Launch} (h1 : 0 < l.src.size) (h2 : 0 < l.dst.size) :
    othersConflict s l = false ↔ OthersApart s l := by
  have size : ∀ {e : Engine} {m : Launch}, e.running = some m → 0 < m.src.size ∧ 0 < m.dst.size := by
    intro e m hm
    unfold Engine.running at hm
    split at hm
    · split at hm
      · next i _ =>
        obtain ⟨ha, hb, -⟩ := launchOf_regions hm
        exact ⟨ha ▸ sampleSize_pos i, hb ▸ sampleSize_pos i⟩
      · cases hm
    · cases hm
  unfold othersConflict OthersApart
  rw [List.any_eq_false]
  refine forall₂_congr fun e _ => ?_
  cases hr : e.running with
  | none => simp
  | some m =>
    obtain ⟨h3, h4⟩ := size hr
    simp only [Launch.conflicts, Bool.or_eq_true, not_or, Option.some.injEq, forall_eq', Region.meets_iff h2 h3,
      Region.meets_iff h2 h4, Region.meets_iff h1 h4, not_exists, not_and]
    constructor
    · rintro ⟨⟨a, b⟩, c⟩ x
      exact ⟨fun hd => ⟨a x hd, b x hd⟩, c x⟩
    · intro h
      exact ⟨⟨fun x hd => ((h x).1 hd).1, fun x hd => ((h x).1 hd).2⟩, fun x => (h x).2⟩

/-- The checks that `RunsOn` stands for, on a state where they can be computed. -/
theorem runsOn_of_checks {i : Instr} {s : State} {src dst stride w h : Word}
    (ho : HoldsOperands i s.engine src dst stride w h)
    (hv : (launchWords i src dst stride w h).violation s.platform = none)
    (hc : othersConflict s (launchWords i src dst stride w h) = false) (hm : s.mem.wf) :
    RunsOn i s src dst stride w h :=
  ⟨ho, violation_eq_none_iff_meetsContract.mp hv,
    (othersConflict_eq_false_iff (sampleSize_pos i) (sampleSize_pos i)).mp hc, hm⟩

/-- `RunsOn` is what the machine checks. -/
theorem checks_of_runsOn {i : Instr} {s : State} {src dst stride w h : Word} (hr : RunsOn i s src dst stride w h) :
    launchOf i s.engine = some (launchWords i src dst stride w h) ∧
      (launchWords i src dst stride w h).violation s.platform = none ∧
        othersConflict s (launchWords i src dst stride w h) = false ∧ s.mem.wf :=
  ⟨launchOf_of_holds hr.1, violation_eq_none_iff_meetsContract.mpr hr.2.1,
    (othersConflict_eq_false_iff (sampleSize_pos i) (sampleSize_pos i)).mpr hr.2.2.1, hr.2.2.2⟩

/-- What the machine checks at a write of a byte is whether a running command uses the byte (`PV11`). -/
theorem touchesRunning_write_iff {s : State} {a : Nat} : touchesRunning s true a = true ↔ WriteTouchesRunning s a := by
  simp only [touchesRunning, WriteTouchesRunning, List.any_eq_true]
  refine exists_congr fun e => and_congr_right fun _ => ?_
  cases e.running with
  | none => simp
  | some m => simp [Region.contains_iff, or_comm]

/-- What the machine checks at a read of a byte is whether a running command writes the byte (`PV11`). -/
theorem touchesRunning_read_iff {s : State} {a : Nat} : touchesRunning s false a = true ↔ ReadTouchesRunning s a := by
  simp only [touchesRunning, ReadTouchesRunning, List.any_eq_true]
  refine exists_congr fun e => and_congr_right fun _ => ?_
  cases e.running with
  | none => simp
  | some m => simp [Region.contains_iff]

/-- What the machine checks for `DEQS` is whether every product fits (R109, `PV10`). -/
theorem deqsInRange_iff {s : State} {l : Launch} : deqsInRange s l = true ↔ DeqsProductsFit s l.dst := by
  simp only [deqsInRange, DeqsProductsFit, List.all_eq_true, Prod.forall, Region.mem_blocks, fitsHalf, deqProduct,
    Region.blockAddr, Bool.and_eq_true]
  constructor
  · intro h y x hy hx i j
    obtain ⟨h1, h2⟩ := h y x ⟨hy, hx⟩ i j (mem_positions (i, j))
    exact ⟨of_decide_eq_true h1, of_decide_eq_true h2⟩
  · intro h y x hyx i j _
    exact ⟨decide_eq_true (h y x hyx.1 hyx.2 i j).1, decide_eq_true (h y x hyx.1 hyx.2 i j).2⟩

end Sys2Proof.Machine
end

