-- ==== Sys2Proof/Laws/PerInstr.lean ====
section
/-! SUPPORT. One lemma per command for the families that LAWS.json names. -/

namespace Sys2Proof.Laws.EncodeDecode

/-- The command word of `i` is well formed and decodes to `i`, and its sample size is 2 or 4 (R31, R51). -/
def Statement (i : Instr) : Prop :=
  i.wellFormed = true ∧ commandWordWellFormed (encode i) = true ∧ decode (encode i) = .ok i ∧
    (Machine.sampleSize i = 2 ∨ Machine.sampleSize i = 4)

theorem dct8x8 : Statement .dct8x8 := by unfold Statement; decide

theorem idct8x8 : Statement .idct8x8 := by unfold Statement; decide

theorem qntf : Statement .qntf := by unfold Statement; decide

theorem qnts : Statement .qnts := by unfold Statement; decide

theorem deqf : Statement .deqf := by unfold Statement; decide

theorem deqs : Statement .deqs := by unfold Statement; decide

end Sys2Proof.Laws.EncodeDecode
end

