-- ==== Sys2Proof/Laws/Steps.lean ====
section
/-! SUPPORT. What a step can do, said once. -/

namespace Sys2Proof.Machine

/-- A launch that is accepted (R23). -/
theorem launch_next {w : Word} {s t : State} (h : launch w s = .next t) :
    ∃ i l, decode w = .ok i ∧ launchOf i s.engine = some l ∧ l.violation s.platform = none ∧
      t = s.withEngine (s.engine.launched w) := by
  unfold launch at h
  split at h
  · cases h
  · next i hi =>
    split at h
    · cases h
    · next l hl =>
      split at h
      · cases h
      · next hv => cases h; exact ⟨i, l, hi, hl, hv, rfl⟩

/-- A register write that is accepted (R21): an operand register, or a launch. -/
theorem regWrite_next {n : Nat} {v : Word} {s t : State} (h : regWrite n v s = .next t) :
    s.engine.busy = false ∧
      ((n < 5 ∧ t = s.withEngine (s.engine.setOperand n v)) ∨ (n = 5 ∧ launch v s = .next t)) := by
  unfold regWrite at h
  split at h
  · cases h
  · split at h
    · cases h
    · next hb =>
      split at h
      · next h5 => exact ⟨by simpa using hb, .inr ⟨h5, h⟩⟩
      · cases h
        exact ⟨by simpa using hb, .inl ⟨by omega, rfl⟩⟩

/-- A register read that is accepted gives the host a word and changes nothing else (R22). -/
theorem regRead_next {n : Nat} {s t : State} (h : regRead n s = .next t) :
    ∃ v, t = s.withReply (.word v) ∧
      ((n = 6 ∧ v = statusWord s.engine) ∨ (n < 5 ∧ s.engine.operand n = .holds v)) := by
  unfold regRead at h
  split at h
  · cases h
  · split at h
    · next h6 => cases h; exact ⟨_, rfl, .inl ⟨h6, rfl⟩⟩
    · split at h
      · cases h
      · next v hv => cases h; exact ⟨v, rfl, .inr ⟨by omega, hv⟩⟩

/-- Every outcome of an access to addresses that are no register words: what stops it, and that nothing else does
(R25, R45). -/
theorem hostAccess_eq {s u : State} {wr : Bool} {addrs : List Nat}
    (hw : ∀ a ∈ addrs, inRegisterWindow s.platform a = false) :
    ((∃ a ∈ addrs, touchesRunning s wr a = true) →
      hostAccess s wr addrs u = .refused .pv11BufferTouchedWhileBusy) ∧
    ((∀ a ∈ addrs, touchesRunning s wr a = false) → (∃ a ∈ addrs, populated s.platform a = false) →
      hostAccess s wr addrs u = .fault .hostAccessOutsideMemory) ∧
    ((∀ a ∈ addrs, touchesRunning s wr a = false) → (∀ a ∈ addrs, populated s.platform a = true) →
      hostAccess s wr addrs u = .next u) := by
  have h0 : addrs.any (inRegisterWindow s.platform) = false := by simpa using hw
  refine ⟨fun h => ?_, fun h1 h2 => ?_, fun h1 h2 => ?_⟩
  · simp [hostAccess, h0, List.any_eq_true.mpr h, violate]
  · have h3 : addrs.any (touchesRunning s wr) = false := by simpa using h1
    have h4 : addrs.all (populated s.platform) = false := by simpa using h2
    simp [hostAccess, h0, h3, h4]
  · have h3 : addrs.any (touchesRunning s wr) = false := by simpa using h1
    have h4 : addrs.all (populated s.platform) = true := by simpa using h2
    simp [hostAccess, h0, h3, h4]

/-- An access to memory that is accepted: populated bytes of no running command's protected footprint (R25, R45). -/
theorem hostAccess_next {s t u : State} {wr : Bool} {addrs : List Nat} (h : hostAccess s wr addrs u = .next t) :
    t = u ∧ (∀ a ∈ addrs, populated s.platform a = true) ∧ ∀ a ∈ addrs, touchesRunning s wr a = false := by
  unfold hostAccess at h
  split at h
  · cases h
  · split at h
    · cases h
    · next ht =>
      split at h
      · cases h
      · next hp =>
        cases h
        simp only [Bool.not_eq_true, Bool.not_eq_false', List.all_eq_true] at hp
        simp only [List.any_eq_true, not_exists, not_and, Bool.not_eq_true] at ht
        exact ⟨rfl, hp, ht⟩

/-- The moves of the machine from `s`: everything a step that gives a next state can have done. `es` are the events
left. -/
inductive StepTo (s : State) : State → Prop
  /-- The host writes an operand register (R21). -/
  | operand (es : List Event) (n : Nat) (v : Word) : n < 5 → s.engine.busy = false →
      StepTo s ((s.withEvents es).withEngine (s.engine.setOperand n v))
  /-- The host launches a command (R23). -/
  | launch (es : List Event) (w : Word) (i : Instr) (l : Launch) : s.engine.busy = false → decode w = .ok i →
      launchOf i s.engine = some l → l.violation s.platform = none →
      StepTo s ((s.withEvents es).withEngine (s.engine.launched w))
  /-- A read gives the host a reply, and changes nothing (R22, R25, R55). -/
  | reply (es : List Event) (r : Reply) : StepTo s ((s.withEvents es).withReply r)
  /-- Another agent writes populated bytes that no running command uses (R25, R45). -/
  | store (es : List Event) (cells : List Host.Cell) : (∀ c ∈ cells, populated s.platform c.1 = true) →
      (∀ c ∈ cells, touchesRunning s true c.1 = false) →
      StepTo s ((s.withEvents es).withMem (s.mem.writeAll cells))
  /-- The command in flight completes (R24). -/
  | complete (es : List Event) (i : Instr) (t : State) : s.engine.busy = true → decode s.engine.command = .ok i →
      exec i (s.withEvents es) = .next t → StepTo s t
  /-- A command in flight on another engine completes, and the engine at hand is at hand again (R132, R148). -/
  | completeOther (es : List Event) (k : Nat) (i : Instr) (t : State) :
      ((s.withEvents es).selectEngine k).engine.busy = true →
      decode ((s.withEvents es).selectEngine k).engine.command = .ok i →
      exec i ((s.withEvents es).selectEngine k) = .next t → StepTo s (t.selectEngine k)
  /-- Nothing happens to the machine (R133). -/
  | idle (es : List Event) : StepTo s (s.withEvents es)
  /-- Another engine comes to hand (R132). -/
  | select (es : List Event) (k : Nat) : StepTo s ((s.withEvents es).selectEngine k)
  /-- Reset while no command runs (R145). -/
  | reset (es : List Event) : s.engine.running = none → StepTo s ((s.withEvents es).withEngine Engine.afterReset)
  /-- Reset while a command runs (R26, R145). -/
  | abandon (es : List Event) (l : Launch) (cells : List Host.Cell) : s.engine.running = some l →
      (∀ c ∈ cells, InRegion l.dst c.1) →
      StepTo s (((s.withEvents es).withMem (s.mem.writeAll cells)).withEngine Engine.afterReset).afterDraw

/-- An outcome changed by `f` is a next state only if it was one before. -/
theorem onNext_next {o : Host.Outcome State Fault Refusal} {f : State → State} {t : State}
    (h : onNext o f = .next t) : ∃ u, o = .next u ∧ t = f u := by
  unfold onNext at h
  split at h
  · cases h; exact ⟨_, rfl, rfl⟩
  · cases h
  · cases h

/-- The move of an engine (R24, R133). -/
theorem engineTurn_next {s t : State} (h : engineTurn s = .next t) :
    (s.engine.busy = false ∧ t = s) ∨
      ∃ i, s.engine.busy = true ∧ decode s.engine.command = .ok i ∧ exec i s = .next t := by
  unfold engineTurn at h
  split at h
  · next hb =>
    split at h
    · next i hi => exact .inr ⟨i, hb, hi, h⟩
    · cases h
  · next hb => cases h; exact .inl ⟨by simpa using hb, rfl⟩

/-- A reset that is accepted (R145). -/
theorem resetEngine_next {s t : State} (h : resetEngine s = .next t) :
    (s.engine.running = none ∧ t = s.withEngine Engine.afterReset) ∨
      ∃ l, s.engine.running = some l ∧ othersConflict s l = false ∧
        t = ((s.withMem (s.mem.writeAll (abandonedCells s l.dst))).withEngine Engine.afterReset).afterDraw := by
  unfold resetEngine at h
  split at h
  · next hr => cases h; exact .inl ⟨hr, rfl⟩
  · next l hr =>
    split at h
    · cases h
    · next hc => cases h; exact .inr ⟨l, hr, by simpa using hc, rfl⟩

/-- An engine's move, seen from a state with other events. -/
theorem stepTo_of_engineTurn {s t : State} {es : List Event} (h : engineTurn (s.withEvents es) = .next t) :
    StepTo s t := by
  rcases engineTurn_next h with ⟨-, rfl⟩ | ⟨i, hb, hi, he⟩
  · exact .idle es
  · exact .complete es i t hb hi he

/-- A move of some engine while nothing is asked, seen from a state with other events. -/
theorem stepTo_of_idleTurn {s t : State} {es : List Event} (h : idleTurn (s.withEvents es) = .next t) : StepTo s t := by
  unfold idleTurn at h
  split at h
  · exact stepTo_of_engineTurn h
  · unfold othersTurn at h
    split at h
    · next k hk =>
      obtain ⟨u, hu, rfl⟩ := onNext_next h
      rcases engineTurn_next hu with ⟨hb, rfl⟩ | ⟨i, hb, hi, he⟩
      · rw [State.selectEngine_selectEngine]; exact .idle es
      · exact .completeOther es k i u hb hi he
    · cases h; exact .idle es

/-- A register write, seen from the state before its event was taken. -/
theorem stepTo_of_regWrite {s t : State} {es : List Event} {n : Nat} {v : Word}
    (h : regWrite n v (s.withEvents es) = .next t) : StepTo s t := by
  obtain ⟨hb, ⟨hn, rfl⟩ | ⟨-, hl⟩⟩ := regWrite_next h
  · exact .operand es n v hn hb
  · obtain ⟨i, l, hi, ho, hv, rfl⟩ := launch_next hl
    exact .launch es v i l hb hi ho hv

/-- A register read, seen from the state before its event was taken. -/
theorem stepTo_of_regRead {s t : State} {es : List Event} {n : Nat} (h : regRead n (s.withEvents es) = .next t) :
    StepTo s t := by
  obtain ⟨v, rfl, -⟩ := regRead_next h
  exact .reply es _

/-- Everything a step can do. -/
theorem step_cases {s t : State} (h : step s = .next t) : StepTo s t := by
  unfold step advance at h
  split at h
  · next he =>
    have hs : s = s.withEvents [] := by cases s; simp only at he; subst he; rfl
    rw [hs] at h
    exact stepTo_of_idleTurn h
  · next ev rest he =>
    cases ev with
    | regWrite n v => exact stepTo_of_regWrite h
    | regRead n => exact stepTo_of_regRead h
    | wait =>
      have h : waitTurn (s.withEvents rest) = .next t := h
      unfold waitTurn at h
      split at h
      · cases h; exact .reply rest _
      · exact stepTo_of_idleTurn (es := .wait :: rest) h
    | busStore a v =>
      simp only [handle, busStore] at h
      split at h
      · exact stepTo_of_regWrite h
      · obtain ⟨rfl, hp, ht⟩ := hostAccess_next h
        have hin : ∀ c ∈ cells32 a.toNat v, c.1 ∈ wordAddrs a.toNat := by
          intro c hc
          simp only [cells32, List.mem_cons, List.not_mem_nil, or_false] at hc
          rcases hc with rfl | rfl | rfl | rfl <;> simp [wordAddrs]
        exact .store rest _ (fun c hc => hp _ (hin c hc)) fun c hc => ht _ (hin c hc)
    | busLoad a =>
      simp only [handle, busLoad] at h
      split at h
      · exact stepTo_of_regRead h
      · obtain ⟨rfl, -, -⟩ := hostAccess_next h
        exact .reply rest _
    | storeByte a b =>
      obtain ⟨rfl, hp, ht⟩ := hostAccess_next (show hostAccess (s.withEvents rest) true _ _ = _ from h)
      exact .store rest [(a.toNat, b)] (fun c hc => hp c.1 (by simp_all)) fun c hc => ht c.1 (by simp_all)
    | loadByte a =>
      obtain ⟨rfl, -, -⟩ := hostAccess_next (show hostAccess (s.withEvents rest) false _ _ = _ from h)
      exact .reply rest _
    | engineTurn => exact stepTo_of_engineTurn (es := rest) h
    | select k => cases h; exact .select rest k
    | reset =>
      rcases resetEngine_next (show resetEngine (s.withEvents rest) = _ from h) with ⟨hr, rfl⟩ | ⟨l, hr, -, rfl⟩
      · exact .reset rest hr
      · refine .abandon rest l _ hr fun c hc => ?_
        simp only [abandonedCells, List.mem_map] at hc
        obtain ⟨a, ha, rfl⟩ := hc
        exact Region.mem_bytes.mp ha

end Sys2Proof.Machine
end

