-- ==== Sys2Proof/Machine/ExamplePlatform.lean ====
section
/-! DEFINITION. The example platform of the spec's test vectors (spec/95_test_vectors.md sections 1, 5 and 6): the
table `QX`, the numerics `NUM_REF` and memory at 0x1000 to 0xFFFF. It is an instance to run vectors on: no meaning and
no reset value rests on it. -/

namespace Sys2Proof.Machine

/-- A number as a table entry; a number outside 1..32767 is none, and 1 stands in for it. -/
def divisorOf (n : Nat) : Divisor :=
  if h : 1 ≤ n ∧ n ≤ 32767 then ⟨n, h.1, h.2⟩ else ⟨1, by decide, by decide⟩

/-- A table whose entries are all `q`. -/
def uniformQTab (q : Nat) : QTab := Vector.replicate 8 (Vector.replicate 8 (divisorOf q))

/-- The example table `QX`, "an example instance only" (R17). -/
def exampleQTab : QTab :=
  (#v[#v[16, 11, 10, 16, 24, 40, 51, 61],
      #v[12, 12, 14, 19, 26, 58, 60, 55],
      #v[14, 13, 16, 24, 40, 57, 69, 56],
      #v[14, 17, 22, 29, 51, 87, 80, 62],
      #v[18, 22, 37, 56, 68, 109, 103, 77],
      #v[24, 35, 55, 64, 81, 104, 113, 92],
      #v[49, 64, 78, 87, 103, 121, 120, 101],
      #v[72, 92, 95, 98, 112, 100, 103, 99]] : Vector (Vector Nat 8) 8).map fun row => row.map divisorOf

/-- The example platform: `QX`, `NUM_REF`, `MEM_POP` = 0x1000..0xFFFF, and register words away from memory (the
spec leaves `REG_BASE` symbolic there). -/
def examplePlatform : Platform :=
  { qtab := exampleQTab, numerics := .reference, memPop := [⟨0x1000, 0xF000⟩], regBase := 0x40000000 }

/-- The machine after reset on the example platform, with a memory and with what happens next. -/
def exampleState (m : Memory) (events : List Event) : State :=
  { State.reset with platform := examplePlatform, mem := m, events := events }

end Sys2Proof.Machine
end

