-- ==== Sys2Proof/Tests/Slice0.lean ====
section
/-! SUPPORT. The model's own tests: words and values are those that spec/ states (30_encoding.md, 95_test_vectors.md), and
one witness for the hypotheses of each statement. -/

namespace Sys2Proof.Machine.Tests

/-! ### WellFormed: each check refuses an ill-formed term -/

theorem test_word_with_op_zero_is_ill_formed : commandWordWellFormed 0x00000000#32 = false := by decide

theorem test_word_with_op_seven_is_ill_formed : commandWordWellFormed 0x00000007#32 = false := by decide

theorem test_word_with_bit_above_op_is_ill_formed :
    commandWordWellFormed 0x00000009#32 = false ∧ commandWordWellFormed 0x80000001#32 = false := by decide

theorem test_every_command_is_well_formed : ∀ i : Instr, i.wellFormed = true := by intro i; cases i <;> rfl

theorem test_platform_checks :
    platformWellFormed examplePlatform = true ∧
      platformWellFormed { examplePlatform with regBase := 0x40000002 } = false ∧
      platformWellFormed { examplePlatform with regBase := 0xFFFFFFF0 } = false ∧
      platformWellFormed { examplePlatform with memPop := [⟨0x1000, 0x100000000⟩] } = false ∧
      platformWellFormed { examplePlatform with memPop := [⟨0x3FFFFFF0, 0x20⟩] } = false := by decide

/-! ### Decode: words from R51, bit by bit, and the reserved words of V7 -/

theorem test_decode_dct8x8 : decode 0b00000000000000000000000000000001#32 = .ok .dct8x8 := by decide

theorem test_decode_idct8x8 : decode 0b00000000000000000000000000000010#32 = .ok .idct8x8 := by decide

theorem test_decode_qntf : decode 0b00000000000000000000000000000011#32 = .ok .qntf := by decide

theorem test_decode_qnts : decode 0b00000000000000000000000000000100#32 = .ok .qnts := by decide

theorem test_decode_deqf : decode 0b00000000000000000000000000000101#32 = .ok .deqf := by decide

theorem test_decode_deqs : decode 0b00000000000000000000000000000110#32 = .ok .deqs := by decide

theorem test_decode_reserved :
    decode 0#32 = .error .opZero ∧ decode 7#32 = .error .opSeven ∧ decode 8#32 = .error .zeroFieldSet ∧
      decode 0x80000001#32 = .error .zeroFieldSet := by decide

/-- A table word longer than a command word is no command, and each command placed on the machine after reset is run
by its first step. -/
theorem test_table_words_run_after_reset :
    decodeTableWord 32 6 = some .deqs ∧ decodeTableWord 64 0x100000001 = none ∧
      (∃ t, step (State.reset.withFetchWord 32 1) = .next t ∧ t.engine.done = true) ∧
      (∃ t, step (State.reset.withFetchWord 32 6) = .next t ∧ t.engine.done = true) :=
  ⟨by decide, by decide, ⟨_, rfl, rfl⟩, ⟨_, rfl, rfl⟩⟩

/-! ### States to test on -/

/-- An engine with its operands written, idle. -/
def loaded (src dst stride w h : Word) : Engine :=
  { Engine.afterReset with src := .holds src, dst := .holds dst, stride := .holds stride, roiW := .holds w, roiH := .holds h }

/-- The example platform with an engine at hand, others, a memory and events. -/
def machine (e : Engine) (others : List Engine) (m : Memory) (events : List Event) : State :=
  { exampleState m events with engine := e, others := others }

/-- One 8x8 block from 0x1000 to 0x2000, the command `i` in flight, its completion next. -/
def inFlight (i : Instr) (m : Memory) : State :=
  machine ((loaded 0x1000 0x2000 8 8 8).launched (encode i)) [] m [.engineTurn]

/-- A property of the state that a step gives; false if it gives none. -/
def after (o : Host.Outcome State Fault Refusal) (p : State → Bool) : Bool :=
  match o with
  | .next t => p t
  | .fault _ => false
  | .refused _ => false

/-- The reason that a step was refused for, if it was. -/
def refusal (o : Host.Outcome State Fault Refusal) : Option Refusal :=
  match o with
  | .next _ => none
  | .fault _ => none
  | .refused r => some r

/-! ### One step of each command (vectors T3, T8, Q1, Q2, Q4, Q5) -/

/-- Vector T3: an impulse 1.0 at (0,0). -/
theorem test_dct8x8_impulse :
    after (step (inFlight .dct8x8 (Memory.writeAll [] (cells32 0x1000 0x3F800000#32)))) (fun t =>
      t.mem.read32 0x2000 == 0x3DFFFFFF#32 && t.mem.read32 0x2004 == 0x3E318A85#32 &&
        t.mem.read32 (0x2000 + 4 * 41) == 0x3E0B7E3F#32 && t.mem.read32 0x1000 == 0x3F800000#32 &&
        statusWord t.engine == 2#32) = true := by
  decide +kernel

/-- Vector T8: `Y[0][1]` = 1.0; every row reads alike, so rows and columns are told apart. -/
theorem test_idct8x8_horizontal_frequency :
    after (step (inFlight .idct8x8 (Memory.writeAll [] (cells32 0x1004 0x3F800000#32)))) (fun t =>
      t.mem.read32 0x2000 == 0x3E318A85#32 && t.mem.read32 0x2004 == 0x3E168317#32 &&
        t.mem.read32 (0x2000 + 4 * 8) == 0x3E318A85#32 && t.mem.read32 (0x2000 + 4 * 63) == 0xBE318A85#32) = true := by
  decide +kernel

/-- Vector Q1: 100.0 at (0,1), where `QX` has 11, and 2^-126 at (0,0), where it has 16. -/
theorem test_qntf_divides :
    after (step (inFlight .qntf (Memory.writeAll [] (cells32 0x2004 0x42C80000#32 ++ cells32 0x2000 0x00800000#32))))
      (fun t => t.mem.read32 0x2004 == 0x4111745D#32 && t.mem.read32 0x2000 == 0x00080000#32) = true := by
  decide +kernel

/-- Vector Q4: -104 by 16 is a tie, away from zero; 6 by 11 at (0,1). -/
theorem test_qnts_rounds_away_from_zero :
    after (step (inFlight .qnts (Memory.writeAll [] (cells16 0x2000 0xFF98#16 ++ cells16 0x2002 6#16))))
      (fun t => readS16 t.mem 0x2000 == -7 && readS16 t.mem 0x2002 == 1 && readS16 t.mem 0x2004 == 0) = true := by
  decide +kernel

/-- Vector Q2: 0x3F9745D1 by 11 gives 12.999999, not 13. -/
theorem test_deqf_multiplies :
    after (step (inFlight .deqf (Memory.writeAll [] (cells32 0x2004 0x3F9745D1#32 ++ cells32 0x2000 0x7F7FFFFF#32))))
      (fun t => t.mem.read32 0x2004 == 0x414FFFFF#32 && t.mem.read32 0x2000 == 0x7F800000#32) = true := by
  decide +kernel

/-- Vector Q5: -2048 by 16 just fits. -/
theorem test_deqs_multiplies :
    after (step (inFlight .deqs (Memory.writeAll [] (cells16 0x2000 0xF800#16))))
      (fun t => readS16 t.mem 0x2000 == -32768) = true := by
  decide +kernel

/-- Vectors Q5 and V30: 2048 by 16 does not fit. -/
theorem test_deqs_out_of_range :
    refusal (step (inFlight .deqs (Memory.writeAll [] (cells16 0x2000 2048#16)))) =
      some .pv10ProductOutOfRange := by
  decide +kernel

/-- Vector T0: the 1D transform of (1, 2, ..., 8). -/
theorem test_dct1d :
    (eight.map fun k => f32ToBits 0#32 (dct1d (fun n => roundToF32 false (n.val + 1) 0) k)) =
      [0x414BA592#32, 0xC0CE2782#32, 0xB4800000#32, 0xBF2C678C#32, 0x00000000#32, 0xBE4DB990#32, 0xB4000000#32,
        0xBD4FAD20#32] := by
  decide +kernel

/-! ### The interface (vectors of section 5) -/

/-- V8, V10, V11, V13, V14, V16, V19, V20: one launch check each, with an accepted neighbour. -/
theorem test_launch_checks :
    (launchWords .dct8x8 0x1000 0x2000 8 8 12).violation examplePlatform = some .pv1RoiNotMultipleOf8 ∧
      (launchWords .dct8x8 0x1000 0x2000 15 16 8).violation examplePlatform = some .pv2StrideBelowWidth ∧
      (launchWords .qntf 0 0 8 8 8).violation examplePlatform = some .pv3NullPointer ∧
      (launchWords .dct8x8 0x1002 0x2000 8 8 8).violation examplePlatform = some .pv5MisalignedPointer ∧
      (launchWords .qnts 0x3002 0x3002 8 8 8).violation examplePlatform = none ∧
      (launchWords .dct8x8 0x1000 0x2000 0x20000000 8 16).violation examplePlatform = some .pv6OutsideMemory := by
  decide +kernel

theorem test_footprint_checks :
    (launchWords .dct8x8 0x1000 0x1004 8 8 8).violation examplePlatform = some .pv4PartialOverlap ∧
      (launchWords .dct8x8 0x1000 0x1000 8 8 8).violation examplePlatform = none ∧
      (launchWords .dct8x8 0x1000 0x1020 16 8 8).violation examplePlatform = none ∧
      (launchWords .dct8x8 0x1000 0xFF80 8 8 8).violation examplePlatform = some .pv6OutsideMemory ∧
      (launchWords .dct8x8 0x1000 0xFF00 8 8 8).violation examplePlatform = none := by
  decide +kernel

/-- V2, V4: `RD SRC` and `WR CMD, 1` right after reset. -/
theorem test_unwritten_operands_after_reset :
    step (State.reset.withEvents [.regRead 0]) = .refused .pv9UnwrittenOperand ∧
      step (State.reset.withEvents [.regWrite 5 1#32]) = .refused .pv9UnwrittenOperand := ⟨rfl, rfl⟩

/-- V5, V6: `QNTS` is accepted with `SRC` unwritten, `DCT8X8` is not. -/
theorem test_in_place_command_does_not_read_src :
    after (step (machine { loaded 0 0x3000 8 8 8 with src := .unwritten } [] [] [.regWrite 5 4#32]))
        (fun t => statusWord t.engine == 1#32) = true ∧
      refusal (step (machine { loaded 0 0x3000 8 8 8 with src := .unwritten } [] [] [.regWrite 5 1#32])) =
        some .pv9UnwrittenOperand := by
  decide +kernel

/-- V24, V27, V31: a write while busy, accesses outside the map, a store into a running command's source. -/
theorem test_refused_host_accesses :
    refusal (step { inFlight .dct8x8 [] with events := [.regWrite 0 0x5000#32] }) = some .pv8WriteWhileBusy ∧
      refusal (step { inFlight .dct8x8 [] with events := [.regRead 5] }) = some .pv12OutsideRegisterMap ∧
      refusal (step { inFlight .dct8x8 [] with events := [.regWrite 9 0#32] }) = some .pv12OutsideRegisterMap ∧
      refusal (step { inFlight .dct8x8 [] with events := [.storeByte 0x1000#32 1#8] }) =
        some .pv11BufferTouchedWhileBusy := by
  decide +kernel

/-- R126: an access that breaks `PV11` is refused as that, though another of its bytes lies outside memory (which begins
at 0x1000); without a running command it is the fault. -/
theorem test_pv11_before_fault :
    refusal (step { inFlight .dct8x8 [] with events := [.busStore 0x0FFE 0] }) = some .pv11BufferTouchedWhileBusy ∧
      refusal (step { inFlight .qnts [] with events := [.busLoad 0x1FFE] }) = some .pv11BufferTouchedWhileBusy ∧
      step { exampleState [] [] with events := [.busStore 0x0FFE 0] } = .fault .hostAccessOutsideMemory := by
  refine ⟨by decide +kernel, by decide +kernel, rfl⟩

/-- R148: while the host waits for an idle engine, another engine's command completes, and the wait goes on. -/
theorem test_wait_lets_other_engines_complete :
    after (step (machine (loaded 0x1000 0x2000 8 8 8) [(inFlight .qnts []).engine] [] [.wait])) (fun t =>
      t.events == [.wait] && !t.engine.done && t.others == [(inFlight .qnts []).engine.completed]) = true := by
  decide +kernel

/-! ### Witnesses: a state and operands that meet all hypotheses of each statement -/

/-- One block, two buffers, on an idle engine; nothing next. -/
def idleMachine (events : List Event) : State := machine (loaded 0x1000 0x2000 8 8 8) [] [] events

theorem emptyMemory_wf : Memory.wf [] := by decide

/-- The transforms run on the idle machine. -/
theorem runsOn_transform (i : Instr) (hi : shapeOf i = .twoBuffer) (hz : sampleSize i = 4) (es : List Event) :
    RunsOn i (idleMachine es) 0x1000 0x2000 8 8 8 := by
  refine runsOn_of_checks ⟨by rw [hi]; rfl, rfl, rfl, rfl, rfl⟩ ?_ rfl emptyMemory_wf
  simp only [launchWords, hz]
  show Launch.violation examplePlatform _ = none
  decide +kernel

/-- The in-place commands run on the idle machine. -/
theorem runsOn_inPlace (i : Instr) (hi : shapeOf i = .inPlace) (hz : sampleSize i = 4 ∨ sampleSize i = 2)
    (es : List Event) : RunsOn i (idleMachine es) 0x2000 0x2000 8 8 8 := by
  refine runsOn_of_checks ⟨by rw [hi], rfl, rfl, rfl, rfl⟩ ?_ rfl emptyMemory_wf
  rcases hz with hz | hz <;>
  · simp only [launchWords, hz]
    show Launch.violation examplePlatform _ = none
    decide +kernel

theorem witness_Dct8x8WritesForwardTransform : RunsOn .dct8x8 (idleMachine []) 0x1000 0x2000 8 8 8 :=
  runsOn_transform _ rfl rfl _

theorem witness_Idct8x8WritesInverseTransform : RunsOn .idct8x8 (idleMachine []) 0x1000 0x2000 8 8 8 :=
  runsOn_transform _ rfl rfl _

theorem witness_QntfDividesEachSample : RunsOn .qntf (idleMachine []) 0x2000 0x2000 8 8 8 :=
  runsOn_inPlace _ rfl (.inl rfl) _

theorem witness_QntsDividesAndRounds : RunsOn .qnts (idleMachine []) 0x2000 0x2000 8 8 8 :=
  runsOn_inPlace _ rfl (.inr rfl) _

theorem witness_DeqfMultipliesEachSample : RunsOn .deqf (idleMachine []) 0x2000 0x2000 8 8 8 :=
  runsOn_inPlace _ rfl (.inl rfl) _

/-- Both clauses: all samples 0, and a sample 2048 where `QX` has 16. -/
theorem witness_DeqsMultipliesOrRefuses :
    (RunsOn .deqs (idleMachine []) 0x2000 0x2000 8 8 8 ∧ deqsInRange (idleMachine []) (launchWords .deqs 0x2000 0x2000 8 8 8)) ∧
      RunsOn .deqs { idleMachine [] with mem := [(0x2001, 8#8)] } 0x2000 0x2000 8 8 8 ∧
        32767 < readS16 [(0x2001, 8#8)] (sampleAddr .deqs 0x2000 8 0 0) * (qtabAt examplePlatform 0 0).val :=
  ⟨⟨runsOn_inPlace _ rfl (.inr rfl) _, by decide +kernel⟩,
    runsOn_of_checks ⟨rfl, rfl, rfl, rfl, rfl⟩ (by decide +kernel) rfl (by decide), by decide +kernel⟩

theorem witness_EncodedCommandDecodesToItself : Instr.wellFormed .dct8x8 = true := rfl

/-- Each of the three ways the engine moves. -/
theorem witness_EngineMoveRunsTheCommandInFlight :
    (inFlight .qnts []).engine.busy = true ∧ decode (inFlight .qnts []).engine.command = .ok .qnts ∧
      (inFlight .qnts []).engine.done = false ∧ (inFlight .qnts []).events = .engineTurn :: [] ∧
      { inFlight .qnts [] with events := [] }.events = [] ∧
      { inFlight .qnts [] with events := [.wait] }.events = .wait :: [] :=
  ⟨rfl, by decide, rfl, rfl, rfl, rfl⟩

theorem witness_LaunchAcceptedExactlyUnderTheContract :
    (idleMachine [.regWrite 5 1#32]).engine.busy = false ∧
      (idleMachine [.regWrite 5 1#32]).events = .regWrite 5 1#32 :: [] := ⟨rfl, rfl⟩

theorem witness_LaunchSetsBusyAndClearsDone :
    (idleMachine [.regWrite 5 (encode .dct8x8)]).engine.busy = false ∧
      (idleMachine [.regWrite 5 (encode .dct8x8)]).events = .regWrite 5 (encode .dct8x8) :: [] ∧
      HoldsOperands .dct8x8 (idleMachine [.regWrite 5 (encode .dct8x8)]).engine 0x1000 0x2000 8 8 8 ∧
      MeetsContract .dct8x8 (idleMachine [.regWrite 5 (encode .dct8x8)]).platform 0x1000 0x2000 8 8 8 :=
  ⟨rfl, rfl, (runsOn_transform .dct8x8 rfl rfl _).1, (runsOn_transform .dct8x8 rfl rfl []).2.1⟩

/-- A reserved word for each reason: a bit of 31:3 set, `OP` 0, `OP` 7. -/
theorem witness_ReservedCommandWordIsRefused :
    (idleMachine [.regWrite 5 8#32]).engine.busy = false ∧ (idleMachine [.regWrite 5 8#32]).events = .regWrite 5 8#32 :: [] ∧
      (∀ i, 8#32 ≠ encode i) ∧ (∀ i, 0#32 ≠ encode i) ∧ ∀ i, 7#32 ≠ encode i := by
  refine ⟨rfl, rfl, ?_, ?_, ?_⟩ <;> intro i <;> cases i <;> decide

/-- `SRC` for a transform, `ROI_H` for any command, a read of `SRC`, and a step that writes none. -/
theorem witness_UnwrittenOperandIsRefused :
    (exampleState [] [.regWrite 5 (encode .dct8x8)]).engine.busy = false ∧
      (exampleState [] [.regWrite 5 (encode .dct8x8)]).events = .regWrite 5 (encode .dct8x8) :: [] ∧
      shapeOf .dct8x8 = .twoBuffer ∧ (exampleState [] []).engine.operand 0 = .unwritten ∧
      (exampleState [] []).engine.operand 4 = .unwritten ∧ (exampleState [] [.regRead 0]).events = .regRead 0 :: [] ∧
      ∃ t, step (exampleState [] [.regRead 6]) = .next t :=
  ⟨rfl, rfl, rfl, rfl, rfl, rfl, _, rfl⟩

/-- The first and the last operand register; and a read while a command is in flight. -/
theorem witness_OperandWriteStoresAndReadsBack :
    (idleMachine [.regWrite 0 5#32]).engine.busy = false ∧ (idleMachine [.regWrite 0 5#32]).events = .regWrite 0 5#32 :: [] ∧
      (idleMachine [.regWrite 4 5#32]).events = .regWrite 4 5#32 :: [] ∧ 0 < 5 ∧ 4 < 5 ∧
      { inFlight .qnts [] with events := [.regRead 4] }.events = .regRead 4 :: [] ∧
      (inFlight .qnts []).engine.busy = true ∧ (inFlight .qnts []).engine.operand 4 = .holds 8 := by
  decide +kernel

/-- A read of `STATUS`, and a `WAIT` that finds `DONE` = 1. -/
theorem witness_StatusReadsBusyAndDone :
    (idleMachine [.regRead 6]).events = .regRead 6 :: [] ∧
      (machine { Engine.afterReset with done := true } [] [] [.wait]).events = .wait :: [] ∧
      (machine { Engine.afterReset with done := true } [] [] [.wait]).engine.done = true := ⟨rfl, rfl, rfl⟩

/-- A write of `STATUS`, of register 7; a read of `CMD`, of register 7; a write of `CMD` and of `SRC` while busy. -/
theorem witness_BadRegisterAccessesAreRefused :
    (idleMachine [.regWrite 6 0]).events = .regWrite 6 0 :: [] ∧ (idleMachine [.regWrite 7 0]).events = .regWrite 7 0 :: [] ∧
      (idleMachine [.regRead 5]).events = .regRead 5 :: [] ∧ (idleMachine [.regRead 7]).events = .regRead 7 :: [] ∧
      { inFlight .qnts [] with events := [.regWrite 5 4] }.events = .regWrite 5 4 :: [] ∧
      { inFlight .qnts [] with events := [.regWrite 0 4] }.engine.busy = true :=
  ⟨rfl, rfl, rfl, rfl, rfl, rfl⟩

/-- The first and the last register word, the last byte of the last, 32-bit accesses that start inside the first and the
last word, and ones that start 3 and 1 bytes below the first. -/
theorem witness_RegisterWordsAreTheRegisters :
    (0x40000000#32).toNat = (idleMachine []).platform.regBase + 4 * 0 ∧
      (0x40000018#32).toNat = (idleMachine []).platform.regBase + 4 * 6 ∧
      (0x4000001B#32).toNat = (idleMachine []).platform.regBase + 4 * 6 + 3 ∧
      (idleMachine [.busStore 0x40000000 1]).events = .busStore 0x40000000 1 :: [] ∧
      (idleMachine [.busLoad 0x40000018]).events = .busLoad 0x40000018 :: [] ∧
      (idleMachine [.storeByte 0x4000001B 1]).events = .storeByte 0x4000001B 1 :: [] ∧
      (idleMachine [.loadByte 0x4000001B]).events = .loadByte 0x4000001B :: [] ∧
      (idleMachine [.busStore 0x4000001B 1]).events = .busStore 0x4000001B 1 :: [] ∧
      (0x40000001#32).toNat = (idleMachine []).platform.regBase + 4 * 0 + 1 ∧
      (idleMachine [.busLoad 0x40000001]).events = .busLoad 0x40000001 :: [] ∧
      (0x3FFFFFFD#32).toNat < (idleMachine []).platform.regBase ∧
      (idleMachine []).platform.regBase < (0x3FFFFFFD#32).toNat + 4 ∧
      (0x3FFFFFFF#32).toNat < (idleMachine []).platform.regBase ∧
      (idleMachine [.busStore 0x3FFFFFFD 1]).events = .busStore 0x3FFFFFFD 1 :: [] ∧
      (idleMachine [.busLoad 0x3FFFFFFF]).events = .busLoad 0x3FFFFFFF :: [] := by
  refine ⟨rfl, rfl, rfl, rfl, rfl, rfl, rfl, rfl, rfl, rfl, ?_, ?_, ?_, rfl, rfl⟩ <;> decide

/-- Idle, and with a command in flight. -/
theorem witness_ResetPutsTheEngineInTheResetState :
    ((idleMachine [.reset]).events = .reset :: [] ∧ (idleMachine [.reset]).engine.running = none) ∧
      { inFlight .qnts [] with events := [.reset] }.events = .reset :: [] ∧
      { inFlight .qnts [] with events := [.reset] }.engine.running = some (launchWords .qnts 0x2000 0x2000 8 8 8) ∧
      (inFlight .qnts []).mem.wf ∧
      ∀ l, { inFlight .qnts [] with events := [.reset] }.engine.running = some l →
        OthersApart { inFlight .qnts [] with events := [.reset] } l :=
  ⟨⟨rfl, rfl⟩, rfl, by decide +kernel, emptyMemory_wf, fun _ _ e he => absurd he (by simp [inFlight, machine])⟩

theorem qnts_idle_eq (es : List Event) :
    exec .qnts (idleMachine es) =
      .next (complete (idleMachine es) (exec1S16 qrnd (idleMachine es) (launchWords .qnts 0x2000 0x2000 8 8 8))) := by
  obtain ⟨hl, hv, hc, -⟩ := checks_of_runsOn (runsOn_inPlace .qnts rfl (.inr rfl) es)
  exact exec_qnts_eq hl hv hc

theorem witness_CommandsRunOnlyUnderTheContract : ∃ t, exec .qnts (idleMachine []) = .next t := ⟨_, qnts_idle_eq []⟩

/-- Another engine runs `QNTS` on the destination. -/
theorem witness_ConflictingCommandIsRefused :
    let s := { idleMachine [] with others := [(inFlight .qnts []).engine] }
    HoldsOperands .dct8x8 s.engine 0x1000 0x2000 8 8 8 ∧ MeetsContract .dct8x8 s.platform 0x1000 0x2000 8 8 8 ∧
      ¬ OthersApart s (launchWords .dct8x8 0x1000 0x2000 8 8 8) := by
  refine ⟨(runsOn_transform .dct8x8 rfl rfl []).1, (runsOn_transform .dct8x8 rfl rfl []).2.1, ?_⟩
  rw [← othersConflict_eq_false_iff (by decide) (by decide)]
  decide +kernel

/-- Width 0, and height 0. -/
theorem witness_EmptyRegionCompletesUntouched :
    RunsOn .dct8x8 (machine (loaded 0x1000 0x2000 8 0 8) [] [] []) 0x1000 0x2000 8 0 8 ∧
      RunsOn .deqs (machine (loaded 0x1000 0x2000 8 8 0) [] [] []) 0x2000 0x2000 8 8 0 :=
  ⟨runsOn_of_checks ⟨rfl, rfl, rfl, rfl, rfl⟩ (by decide +kernel) rfl emptyMemory_wf,
    runsOn_of_checks ⟨rfl, rfl, rfl, rfl, rfl⟩ (by decide +kernel) rfl emptyMemory_wf⟩

/-- Four blocks in place, taken from the last to the first. -/
theorem witness_BlockOrderDoesNotMatter :
    let s := machine (loaded 0x1000 0x1000 24 16 16) [] [] []
    let l := launchWords .dct8x8 0x1000 0x1000 24 16 16
    shapeOf .dct8x8 = .twoBuffer ∧ launchOf .dct8x8 s.engine = some l ∧ l.violation s.platform = none ∧ s.mem.wf ∧
      l.dst.blocks.reverse.Perm l.dst.blocks ∧ l.dst.blocks.length = 4 :=
  ⟨rfl, rfl, by decide +kernel, emptyMemory_wf, List.reverse_perm _, by decide +kernel⟩

theorem witness_SampleOrderDoesNotMatter :
    let l := launchWords .qnts 0x2000 0x2000 8 8 8
    let m := launchWords .qntf 0x2000 0x2000 8 8 8
    launchOf .qnts (idleMachine []).engine = some l ∧ l.violation (idleMachine []).platform = none ∧
      (idleMachine []).mem.wf ∧ l.dst.places.reverse.Perm l.dst.places ∧ sampleSize .qnts = 2 ∧ sampleSize .qntf = 4 ∧
      shapeOf .qnts = .inPlace ∧ launchOf .qntf (idleMachine []).engine = some m ∧
      m.violation (idleMachine []).platform = none ∧ m.dst.places.reverse.Perm m.dst.places ∧ shapeOf .qntf = .inPlace :=
  ⟨rfl, by decide +kernel, emptyMemory_wf, List.reverse_perm _, rfl, rfl, rfl, rfl, by decide +kernel,
    List.reverse_perm _, rfl⟩

/-- One block, and the last of four at another place with another stride. -/
theorem witness_BlocksAreIndependent :
    let s' := machine (loaded 0 0x4000 24 16 16) [] [] []
    RunsOn .qnts (idleMachine []) 0x2000 0x2000 8 8 8 ∧ RunsOn .qnts s' 0x4000 0x4000 24 16 16 ∧
      (∀ a b : Fin 8, sampleAt .qnts (idleMachine []).mem (sampleAddr .qnts 0x2000 8 (8 * 0 + a.val) (8 * 0 + b.val)) =
        sampleAt .qnts s'.mem (sampleAddr .qnts 0x4000 24 (8 * 1 + a.val) (8 * 1 + b.val))) ∧
      (∃ t, exec .qnts (idleMachine []) = .next t) ∧ ∃ t', exec .qnts s' = .next t' := by
  have h : RunsOn .qnts (machine (loaded 0 0x4000 24 16 16) [] [] []) 0x4000 0x4000 24 16 16 :=
    runsOn_of_checks ⟨rfl, rfl, rfl, rfl, rfl⟩ (by decide +kernel) rfl emptyMemory_wf
  obtain ⟨hl, hv, hc, -⟩ := checks_of_runsOn h
  exact ⟨runsOn_inPlace _ rfl (.inr rfl) _, h, fun _ _ => rfl, ⟨_, qnts_idle_eq []⟩, ⟨_, exec_qnts_eq hl hv hc⟩⟩

theorem exec2_wf (f : Block F32 → Block F32) (s : State) (l : Launch) (hm : s.mem.wf) : (exec2 f s l).wf :=
  Memory.writeAll_wf hm _

theorem runsOn_second (m : Memory) (hm : m.wf) :
    RunsOn .idct8x8 (machine (loaded 0x2000 0x3000 8 8 8) [] m []) 0x2000 0x3000 8 8 8 := by
  refine runsOn_of_checks ⟨rfl, rfl, rfl, rfl, rfl⟩ ?_ rfl hm
  show Launch.violation examplePlatform _ = none
  decide +kernel

/-- `DCT8X8` from 0x1000 to 0x2000, and `IDCT8X8` from there to 0x3000. -/
theorem witness_RoundTripIsBlockwise :
    ∃ s t u v, RunsOn .dct8x8 s 0x1000 0x2000 8 8 8 ∧ exec .dct8x8 s = .next t ∧ RunsOn .idct8x8 u 0x2000 0x3000 8 8 8 ∧
      u.mem = t.mem ∧ u.platform = s.platform ∧ exec .idct8x8 u = .next v := by
  obtain ⟨hl, hv, hc, hm⟩ := checks_of_runsOn (runsOn_transform .dct8x8 rfl rfl [])
  generalize hM : exec2 (platformNum (idleMachine []).platform).dct2d (idleMachine [])
    (launchWords .dct8x8 0x1000 0x2000 8 8 8) = m
  have h1 := exec_dct8x8_eq hl hv hc
  rw [hM] at h1
  have h2 := runsOn_second m (by rw [← hM]; exact exec2_wf _ _ _ hm)
  obtain ⟨hl', hv', hc', -⟩ := checks_of_runsOn h2
  exact ⟨_, _, _, _, runsOn_transform .dct8x8 rfl rfl [], h1, h2, rfl, rfl, exec_idct8x8_eq hl' hv' hc'⟩

/-- `DEQS` on any state that has one engine with these operands, on the example platform. -/
theorem deqs_eq (s : State) (he : s.engine = { loaded 0x1000 0x2000 8 8 8 with done := true }) (ho : s.others = [])
    (hp : s.platform = examplePlatform) (hr : deqsInRange s (launchWords .deqs 0x2000 0x2000 8 8 8) = true) :
    exec .deqs s = .next (complete s (exec1S16 deqProduct s (launchWords .deqs 0x2000 0x2000 8 8 8))) := by
  refine (exec_deqs_eq (l := launchWords .deqs 0x2000 0x2000 8 8 8) (by rw [he]; rfl) (by rw [hp]; decide +kernel) (by simp [othersConflict, ho])).trans ?_
  rw [if_pos hr]

theorem deqs_after_qnts_inRange : deqsInRange (complete (idleMachine []) (exec1S16 qrnd (idleMachine [])
    (launchWords .qnts 0x2000 0x2000 8 8 8))) (launchWords .deqs 0x2000 0x2000 8 8 8) = true := by
  decide +kernel

theorem witness_IntegerRoundTripErrorIsBounded :
    ∃ s t u, RunsOn .qnts s 0x2000 0x2000 8 8 8 ∧ exec .qnts s = .next t ∧ exec .deqs t = .next u := by
  exact ⟨_, _, _, runsOn_inPlace .qnts rfl (.inr rfl) [], qnts_idle_eq [],
    deqs_eq _ rfl rfl rfl deqs_after_qnts_inRange⟩

/-- A product of 2048 by 16 (`PV10`). -/
theorem deqs_out_of_range : exec .deqs (inFlight .deqs [(0x2001, 8#8)]) = .refused .pv10ProductOutOfRange := by
  refine (exec_deqs_eq (l := launchWords .deqs 0x2000 0x2000 8 8 8) rfl (by decide +kernel) rfl).trans ?_
  rw [if_neg (by decide +kernel)]

/-- `QNTS` is running on 0x2000. -/
theorem running_touches : WriteTouchesRunning (inFlight .qnts []) 0x2000 ∧ ReadTouchesRunning (inFlight .qnts []) 0x207F :=
  ⟨touchesRunning_write_iff.mp (by decide +kernel), touchesRunning_read_iff.mp (by decide +kernel)⟩

theorem idle_untouched (a : Nat) : ¬ WriteTouchesRunning (idleMachine []) a ∧ ¬ ReadTouchesRunning (idleMachine []) a := by
  constructor <;> rintro ⟨e, he, m, hm, -⟩ <;> cases List.mem_singleton.mp he <;> cases hm

/-- Writes and reads, of a byte and of a word: accepted up to the last byte of memory; of a running command's footprint;
and past the end of memory. -/
theorem witness_AgentAccesses :
    (idleMachine []).mem.wf ∧ (∃ t, step (idleMachine [.storeByte 0xFFFF 7]) = .next t) ∧
      (∃ t, step (idleMachine [.loadByte 0xFFFF]) = .next t) ∧
      (∃ t, step (idleMachine [.busStore 0xFFFC 7]) = .next t) ∧ (∃ t, step (idleMachine [.busLoad 0xFFFC]) = .next t) ∧
      inRegisterWindow examplePlatform 0x2000 = false ∧ inRegisterWindow examplePlatform 0xFFFF = false ∧
      (∀ k, k < 4 → inRegisterWindow examplePlatform (0xFFFD + k) = false) ∧
      WriteTouchesRunning (inFlight .qnts []) (0x1FFD + 3) ∧ ReadTouchesRunning (inFlight .qnts []) 0x207F ∧
      populated examplePlatform 0xFFFF = true ∧ populated examplePlatform 0x10000 = false ∧
      ∀ a, ¬ WriteTouchesRunning (idleMachine []) a ∧ ¬ ReadTouchesRunning (idleMachine []) a :=
  ⟨emptyMemory_wf, ⟨_, rfl⟩, ⟨_, rfl⟩, ⟨_, rfl⟩, ⟨_, rfl⟩, by decide, by decide, by decide, running_touches.1,
    running_touches.2, by decide, by decide, idle_untouched⟩

/-- An access past the end of memory, the one fault there is; and a command refused for its data. -/
theorem witness_EngineRaisesNoException :
    step (idleMachine [.storeByte 0x10000 7]) = .fault .hostAccessOutsideMemory ∧
      step (idleMachine [.busLoad 0xFFFD]) = .fault .hostAccessOutsideMemory ∧
      exec .deqs (inFlight .deqs [(0x2001, 8#8)]) = .refused .pv10ProductOutOfRange :=
  ⟨rfl, rfl, deqs_out_of_range⟩

/-- A float command that runs; the numerics is the reference. -/
theorem witness_ReferencePlatformRunsNumRef :
    (idleMachine []).platform.numerics = .reference ∧ sampleSize .qntf = 4 ∧
      RunsOn .qntf (idleMachine []) 0x2000 0x2000 8 8 8 ∧ ∃ t, exec .qntf (idleMachine []) = .next t := by
  have h := runsOn_inPlace .qntf rfl (.inl rfl) []
  obtain ⟨hl, hv, hc, -⟩ := checks_of_runsOn h
  exact ⟨rfl, rfl, h, _, exec_qntf_eq hl hv hc⟩

theorem fmul_nan (q : Divisor) : (platformNum examplePlatform).qmul .nan q = .nan := rfl

/-- A NaN encoding, all ones, and a float command that reads it at 0x2000 and leaves a NaN there. -/
theorem witness_InvalidOperationsGiveNaN :
    let s := { idleMachine [] with mem := Memory.writeAll [] (cells32 0x2000 0xFFFFFFFF#32) }
    (0xFFFFFFFF#32).extractLsb' 23 8 = 255#8 ∧ (0xFFFFFFFF#32).extractLsb' 0 23 ≠ 0#23 ∧ sampleSize .deqf = 4 ∧
      RunsOn .deqf s 0x2000 0x2000 8 8 8 ∧
        ∃ t, exec .deqf s = .next t ∧ readF32 t.mem (sampleAddr .deqf 0x2000 8 (8 * 0 + 0) (8 * 0 + 0)) = .nan := by
  have hwf : (Memory.writeAll [] (cells32 0x2000 0xFFFFFFFF#32)).wf := Memory.writeAll_wf emptyMemory_wf _
  have hn : readF32 (Memory.writeAll [] (cells32 0x2000 0xFFFFFFFF#32)) 0x2000 = .nan := by decide +kernel
  generalize Memory.writeAll [] (cells32 0x2000 0xFFFFFFFF#32) = m at hwf hn
  have h : RunsOn .deqf { idleMachine [] with mem := m } 0x2000 0x2000 8 8 8 :=
    ⟨(runsOn_inPlace .deqf rfl (.inl rfl) []).1, (runsOn_inPlace .deqf rfl (.inl rfl) []).2.1,
      (runsOn_inPlace .deqf rfl (.inl rfl) []).2.2.1, hwf⟩
  obtain ⟨hl, hv, hc, -⟩ := checks_of_runsOn h
  refine ⟨by decide, by decide, rfl, h, _, exec_deqf_eq hl hv hc, ?_⟩
  have hr := readF32_exec1F32 (g := (platformNum examplePlatform).qmul) (s := { idleMachine [] with mem := m })
    (l := launchWords .deqf 0x2000 0x2000 8 8 8) hwf rfl (by decide) (y := 0) (x := 0) (by decide) 0 0
  have ha : (launchWords .deqf 0x2000 0x2000 8 8 8).dst.blockAddr 0 0 0 0 = 0x2000 := by decide
  have hs : sampleAddr .deqf 0x2000 8 (8 * 0 + 0) (8 * 0 + 0) = 0x2000 := by decide
  simp only [ha, hn] at hr
  rw [hs, State.afterDraw_mem, complete_mem]
  exact hr.trans (fmul_nan _)

/-- An idle engine asked to move, an idle machine, one that waits, and the two cases of bringing an engine to hand. -/
theorem witness_IdleEngineHoldsItsRegisters :
    (idleMachine [.engineTurn]).events = .engineTurn :: [] ∧ (idleMachine [.engineTurn]).engine.busy = false ∧
      (idleMachine []).events = [] ∧ (idleMachine [.wait]).events = .wait :: [] ∧ (idleMachine [.wait]).engine.done = false ∧
      (∀ e ∈ (idleMachine []).engine :: (idleMachine []).others, e.busy = false) ∧
      (machine Engine.afterReset [loaded 0 0x2000 8 8 8] [] [.select 0]).others[0]? = some (loaded 0 0x2000 8 8 8) ∧
      (machine Engine.afterReset [loaded 0 0x2000 8 8 8] [] [.select 1]).others.length ≤ 1 :=
  ⟨rfl, rfl, rfl, rfl, rfl, fun e he => by cases List.mem_singleton.mp he; rfl, rfl, Nat.le_refl 1⟩

/-- The engine at hand idle and waiting, another one running `QNTS`, the second of two others; and one running `DEQS`
with all its products in range. -/
theorem witness_OtherEnginesComplete :
    let s := machine (loaded 0x1000 0x2000 8 8 8) [Engine.afterReset, (inFlight .qnts []).engine] [] [.wait]
    let e := (inFlight .qnts []).engine
    s.engine.busy = false ∧ s.events = .wait :: [] ∧ s.engine.done = false ∧ s.others[1]? = some e ∧ e.busy = true ∧
      (∀ j e', j < 1 → s.others[j]? = some e' → e'.busy = false) ∧ decode e.command = .ok .qnts ∧
      RunsOn .qnts { s with engine := e, others := s.others.set 1 s.engine } 0x2000 0x2000 8 8 8 ∧
      DeqsProductsFit s (launchWords .deqs 0x2000 0x2000 8 8 8).dst := by
  refine ⟨rfl, rfl, rfl, rfl, rfl, ?_, by decide,
    runsOn_of_checks ⟨rfl, rfl, rfl, rfl, rfl⟩ (by decide +kernel) (by decide +kernel) emptyMemory_wf, ?_⟩
  · intro j e' hj he
    obtain rfl : j = 0 := by omega
    cases he
    rfl
  · exact deqsInRange_iff.mp (by decide +kernel)

/-- Two engines, `QNTS` on 0x2000 and on 0x3000. -/
theorem witness_ParallelEnginesCommute :
    ∃ s t1 u1 t2 u2 e, s.others = [e] ∧ s.mem.wf ∧ s.engine.busy = true ∧ e.busy = true ∧
      decode s.engine.command = .ok .qnts ∧ decode e.command = .ok .qnts ∧
      HoldsOperands .qnts s.engine 0x2000 0x2000 8 8 8 ∧ HoldsOperands .qnts e 0x3000 0x3000 8 8 8 ∧
      exec .qnts s = .next t1 ∧ exec .qnts (t1.selectEngine 0) = .next u1 ∧
      exec .qnts (s.selectEngine 0) = .next t2 ∧ exec .qnts (t2.selectEngine 0) = .next u2 := by
  let e := (loaded 0x3000 0x3000 8 8 8).launched (encode .qnts)
  let s : State := { inFlight .qnts [] with others := [e] }
  have h1 : exec .qnts s = _ := exec_qnts_eq (l := launchWords .qnts 0x2000 0x2000 8 8 8) rfl (by decide +kernel)
    (by decide +kernel)
  have h2 : exec .qnts (s.selectEngine 0) = _ := exec_qnts_eq (l := launchWords .qnts 0x3000 0x3000 8 8 8) rfl
    (by decide +kernel) (by decide +kernel)
  have h3 : exec .qnts ((complete s (exec1S16 qrnd s (launchWords .qnts 0x2000 0x2000 8 8 8))).selectEngine 0) = _ :=
    exec_qnts_eq (l := launchWords .qnts 0x3000 0x3000 8 8 8) rfl (by decide +kernel) (by decide +kernel)
  have h4 : exec .qnts ((complete (s.selectEngine 0)
      (exec1S16 qrnd (s.selectEngine 0) (launchWords .qnts 0x3000 0x3000 8 8 8))).selectEngine 0) = _ :=
    exec_qnts_eq (l := launchWords .qnts 0x2000 0x2000 8 8 8) rfl (by decide +kernel) (by decide +kernel)
  exact ⟨s, _, _, _, _, e, rfl, emptyMemory_wf, rfl, rfl, by decide, by decide, ⟨rfl, rfl, rfl, rfl, rfl⟩,
    ⟨rfl, rfl, rfl, rfl, rfl⟩, h1, h3, h2, h4⟩

/-- The invariant holds with a command in flight, also beside another engine that runs the same command on the same
bytes, and steps are taken from there. -/
theorem engineInv_inFlight (i : Instr) (hs : shapeOf i = .inPlace) (hz : sampleSize i = 2) (m : Memory) :
    EngineInv examplePlatform (inFlight i m).engine := by
  refine ⟨rfl, fun _ => ⟨i, launchWords i 0x2000 0x2000 8 8 8, ?_, ?_, ?_⟩⟩
  · show decode (encode i) = .ok i
    cases i <;> decide
  · exact launchOf_of_holds ⟨by rw [hs], rfl, rfl, rfl, rfl⟩
  · simp only [launchWords, hz]
    decide +kernel

theorem machineInv_inFlight (es : List Event) : MachineInv { inFlight .qnts [] with events := es } :=
  ⟨emptyMemory_wf, fun _ hc => absurd hc List.not_mem_nil, engineInv_inFlight .qnts rfl rfl [],
    fun _ he => absurd he List.not_mem_nil⟩

theorem witness_StepKeepsTheMachineInvariant :
    MachineInv { inFlight .qnts [] with events := [.regRead 6] } ∧
      ∃ t, step { inFlight .qnts [] with events := [.regRead 6] } = .next t := ⟨machineInv_inFlight _, ⟨_, rfl⟩⟩

/-- A step of each kind: one while a command is in flight, a launch that clears `DONE`, a completion, and a reset. -/
theorem witness_BusyDoneAndOperandsChangeOnlyAsStated :
    ((inFlight .qnts []).engine.busy = true ∧ (∃ t, step { inFlight .qnts [] with events := [.regRead 6] } = .next t) ∧
      ¬ IsReset { inFlight .qnts [] with events := [.regRead 6] } ∧
      ¬ IsSelect { inFlight .qnts [] with events := [.regRead 6] }) ∧
    after (step (machine { loaded 0x1000 0x2000 8 8 8 with done := true } [] [] [.regWrite 5 1#32]))
      (fun t => t.engine.busy && !t.engine.done) = true ∧
    after (step (inFlight .qnts [])) (fun t => t.engine.done && !t.engine.busy) = true ∧
    after (step (machine { loaded 0x1000 0x2000 8 8 8 with done := true } [loaded 0 0x2000 8 8 8] [] [.reset]))
      (fun t => !t.engine.done && t.others[0]? == some (loaded 0 0x2000 8 8 8)) = true := by
  refine ⟨⟨rfl, ⟨_, rfl⟩, ?_, ?_⟩, by decide +kernel, by decide +kernel, by decide +kernel⟩
  · rintro ⟨_, h⟩; cases h
  · rintro ⟨_, _, h⟩; cases h

/-- A machine for each case: nothing in the way; another engine on the same bytes; a product of 2048 by 16. -/
theorem witness_CommandInFlightCompletes :
    (MachineInv { inFlight .qnts [] with events := [] } ∧ (inFlight .qnts []).engine.busy = true ∧
      OthersApart { inFlight .qnts [] with events := [] } (launchWords .qnts 0x2000 0x2000 8 8 8)) ∧
    (let s := { inFlight .qnts [] with events := [], others := [(inFlight .qnts []).engine] };
      MachineInv s ∧ s.engine.running = some (launchWords .qnts 0x2000 0x2000 8 8 8) ∧
        ¬ OthersApart s (launchWords .qnts 0x2000 0x2000 8 8 8)) ∧
    (let s := { inFlight .deqs [(0x2001, 8#8)] with events := [] };
      MachineInv s ∧ OthersApart s (launchWords .deqs 0x2000 0x2000 8 8 8) ∧
        ¬ DeqsProductsFit s (launchWords .deqs 0x2000 0x2000 8 8 8).dst) := by
  refine ⟨⟨machineInv_inFlight [], rfl, fun _ he => absurd he List.not_mem_nil⟩, ⟨?_, by decide +kernel, ?_⟩, ?_,
    fun _ he => absurd he List.not_mem_nil, ?_⟩
  · exact ⟨emptyMemory_wf, fun _ hc => absurd hc List.not_mem_nil, engineInv_inFlight .qnts rfl rfl [],
      fun e he => by cases List.mem_singleton.mp he; exact engineInv_inFlight .qnts rfl rfl []⟩
  · rw [← othersConflict_eq_false_iff (by decide) (by decide)]
    decide +kernel
  · exact ⟨by decide, by decide, engineInv_inFlight .deqs rfl rfl [(0x2001, 8#8)], fun _ he => absurd he List.not_mem_nil⟩
  · rw [← deqsInRange_iff]
    decide +kernel

/-- The idle machine with the expansion of `QNTS`. -/
theorem witness_PseudoInstructionIsASynchronousCall :
    let s := idleMachine (pseudoInstruction .qnts 0 0x2000 8 8 8 ++ [])
    s.engine.busy = false ∧ s.events = pseudoInstruction .qnts 0 0x2000 8 8 8 ++ [] ∧
      ∃ t, exec .qnts { s with
        engine := { afterOperandWrites .qnts s.engine 0 0x2000 8 8 8 with
          busy := true, done := false, command := encode .qnts }
        events := .wait :: [] } = .next t :=
  ⟨rfl, rfl, ⟨_, exec_qnts_eq (l := launchWords .qnts 0x2000 0x2000 8 8 8) rfl (by decide +kernel) rfl⟩⟩

/-- Two finite values, the second not zero. -/
theorem witness_RoundedOperations :
    f32IsFinite (.fin false 127 0) = true ∧ f32IsFinite (.fin true 1 5) = true ∧ f32ToRat (.fin false 127 0) ≠ 0 := by
  refine ⟨rfl, rfl, ?_⟩
  norm_num [f32ToRat, significand, ulpExponent]

theorem witness_IntegerRoundingProperties : (-32768 : Int) ≤ -32768 ∧ (-32768 : Int) ≤ 32767 ∧ 1 ≤ 1 ∧ 1 ≤ 32767 := by
  decide

theorem witness_NaNSpoilsItsBlock : (fun _ _ => F32.nan : Block F32) 0 7 = .nan := rfl

/-- A finite value at each end of the range of R81, and zero. -/
theorem witness_ReferenceHasQuantRoundTripProperty :
    (f32IsFinite (.fin false 27 0) = true ∧ OrdinaryMagnitude |f32ToRat (.fin false 27 0)|) ∧
      (f32IsFinite (.fin true 227 0) = true ∧ OrdinaryMagnitude |f32ToRat (.fin true 227 0)|) ∧
      f32IsFinite f32Zero = true ∧ OrdinaryMagnitude |f32ToRat f32Zero| := by
  refine ⟨⟨rfl, .inr ?_⟩, ⟨rfl, .inr ?_⟩, rfl, .inl ?_⟩ <;>
    norm_num [f32Zero, f32ToRat, significand, ulpExponent, abs_of_pos, abs_of_neg]

/-- A finite value that is not zero, and a sign. -/
theorem witness_SignedZerosAndInfinities : f32IsFinite (.fin true 0 1) = true ∧ f32ToRat (.fin true 0 1) ≠ 0 := by
  refine ⟨rfl, ?_⟩
  norm_num [f32ToRat, significand, ulpExponent]

/-- A finite value, for the clause that no finite value is nearer. -/
theorem witness_StoredBasisIsNearest : f32IsFinite (.fin false 254 8388607) = true := rfl

/-- A divisor 2^14, the largest power of two there is, and an exponent just above it; a subnormal whose quotient by 3 is
exact; and a value that is not finite. -/
theorem witness_FloatRoundTripIsNotExact :
    ((divisorOf 16384).val = 2 ^ 14 ∧ 14 < (15 : Fin 255).val) ∧
      (f32IsFinite (.fin true 0 9) = true ∧ f32IsFinite (.fin true 0 3) = true ∧
        f32ToRat (.fin true 0 3) * (divisorOf 3).val = f32ToRat (.fin true 0 9)) ∧
      f32IsFinite .nan = false := by
  refine ⟨by decide, ⟨rfl, rfl, ?_⟩, rfl⟩
  have h : (divisorOf 3).val = 3 := by decide
  rw [h]
  norm_num [f32ToRat, significand, ulpExponent]

end Sys2Proof.Machine.Tests
end

section
/-! The family of `10_state.md`: one lemma per event of the host and per move of an engine, what they keep of the
registers, the memory and the invariant, and the statements on launch, registers, commands and steps. -/

namespace Sys2Proof.Machine

/-! ### Operand registers -/

section OperandRegisters
variable (e : Engine) (w : Word) (n : Nat)

@[simp] theorem Engine.operand_launched : (e.launched w).operand n = e.operand n := rfl

@[simp] theorem Engine.operand_completed : e.completed.operand n = e.operand n := rfl

@[simp] theorem Engine.operand_afterReset : Engine.afterReset.operand n = .unwritten := by
  unfold Engine.operand; split <;> rfl

end OperandRegisters

/-- Whoever holds the operands of a command holds a value in each register the command reads (R52). -/
theorem HoldsOperands.exists_operand {i : Instr} {e : Engine} {src dst stride w h : Word}
    (ho : HoldsOperands i e src dst stride w h) {n : Nat} (hn : n < 5) (h0 : n = 0 → shapeOf i = .twoBuffer) :
    ∃ v, e.operand n = .holds v := by
  obtain ⟨hsrc, hdst, hstride, hw, hh⟩ := ho
  obtain rfl | rfl | rfl | rfl | rfl : n = 0 ∨ n = 1 ∨ n = 2 ∨ n = 3 ∨ n = 4 := by omega
  · rw [h0 rfl] at hsrc
    exact ⟨src, hsrc⟩
  · exact ⟨dst, hdst⟩
  · exact ⟨stride, hstride⟩
  · exact ⟨w, hw⟩
  · exact ⟨h, hh⟩

/-- A command that reads a register holding `⊥` has no regions (R12). -/
theorem launchOf_eq_none_of_unwritten {i : Instr} {e : Engine} {n : Nat} (hn : n < 5)
    (h0 : n = 0 → shapeOf i = .twoBuffer) (hu : e.operand n = .unwritten) : launchOf i e = none := by
  cases hl : launchOf i e with
  | none => rfl
  | some l =>
    obtain ⟨src, dst, stride, w, h, ho, -⟩ := holds_of_launchOf hl
    obtain ⟨v, hv⟩ := ho.exists_operand hn h0
    rw [hu] at hv
    cases hv

/-! ### Register accesses and launch -/

/-- A step with an event asked for handles that event. -/
theorem step_eq_handle {s : State} {ev : Event} {rest : List Event} (he : s.events = ev :: rest) :
    step s = handle ev (s.withEvents rest) := by
  unfold step advance
  rw [he]

section RegisterAccesses
variable {s : State} {n : Nat} {v : Word}

theorem regWrite_outside_map (hn : n = 6 ∨ 6 < n) : regWrite n v s = .refused .pv12OutsideRegisterMap :=
  if_pos hn.symm

theorem regWrite_busy (hn : n < 6) (hb : s.engine.busy = true) : regWrite n v s = .refused .pv8WriteWhileBusy := by
  unfold regWrite
  rw [if_neg (by omega), if_pos hb, violate]

theorem regWrite_command_idle (hb : s.engine.busy = false) : regWrite 5 v s = launch v s := by
  simp [regWrite, hb]

theorem regWrite_operand_idle (hn : n < 5) (hb : s.engine.busy = false) :
    regWrite n v s = .next (s.withEngine (s.engine.setOperand n v)) := by
  unfold regWrite
  rw [if_neg (by omega), if_neg (by simp [hb]), if_neg (by omega)]

theorem regRead_outside_map (hn : n = 5 ∨ 6 < n) : regRead n s = .refused .pv12OutsideRegisterMap :=
  if_pos hn.symm

theorem regRead_holds (hn : n < 5) (hv : s.engine.operand n = .holds v) :
    regRead n s = .next (s.withReply (.word v)) := by
  unfold regRead
  rw [if_neg (by omega), if_neg (by omega), hv]

theorem regRead_unwritten (hn : n < 5) (hu : s.engine.operand n = .unwritten) :
    regRead n s = .refused .pv9UnwrittenOperand := by
  unfold regRead
  rw [if_neg (by omega), if_neg (by omega), hu, violate]

end RegisterAccesses

/-- Every command word decodes to its command (R51). -/
theorem decode_encode (i : Instr) : decode (encode i) = .ok i := by
  cases i <;> decide

section Launching
variable {s : State} {w : Word} {i : Instr} {l : Launch}

/-- A launch that breaks no clause is accepted (R23). -/
theorem launch_eq (hi : decode w = .ok i) (hl : launchOf i s.engine = some l)
    (hv : l.violation s.platform = none) : launch w s = .next (s.withEngine (s.engine.launched w)) := by
  simp only [launch, hi, hl, hv]

/-- A launch that reads a register holding `⊥` is `PV9` (R12, R23). -/
theorem launch_unwritten (hi : decode w = .ok i) (hl : launchOf i s.engine = none) :
    launch w s = .refused .pv9UnwrittenOperand := by
  simp only [launch, hi, hl, violate]

/-- A launch is accepted exactly under the contract, in the words of R126. -/
theorem exists_launch_next_iff :
    (∃ t, launch w s = .next t) ↔
      ∃ i src dst stride width height, decode w = .ok i ∧ HoldsOperands i s.engine src dst stride width height ∧
        MeetsContract i s.platform src dst stride width height := by
  constructor
  · rintro ⟨t, h⟩
    obtain ⟨i, l, hi, hl, hv, -⟩ := launch_next h
    obtain ⟨src, dst, stride, width, height, ho, rfl⟩ := holds_of_launchOf hl
    exact ⟨i, src, dst, stride, width, height, hi, ho, violation_eq_none_iff_meetsContract.mp hv⟩
  · rintro ⟨i, src, dst, stride, width, height, hi, ho, hm⟩
    exact ⟨_, launch_eq hi (launchOf_of_holds ho) (violation_eq_none_iff_meetsContract.mpr hm)⟩

end Launching

/-! ### What the moves of the engines keep -/

/-- A command that completes changes only memory, `BUSY`, `DONE` and the count of free values (R24). -/
theorem exec_frame {i : Instr} {s t : State} (h : exec i s = .next t) :
    t.engine = s.engine.completed ∧ t.others = s.others ∧ t.platform = s.platform := by
  obtain ⟨l, cells, -, -, -, -, rfl | rfl⟩ := exec_next h <;> exact ⟨rfl, rfl, rfl⟩

/-- If the others are as a selection left them, the same selection brings back the engine that was at hand. -/
theorem State.selectEngine_engine_back {s u : State} {k : Nat} (hk : k < s.others.length)
    (ho : u.others = (s.selectEngine k).others) : (u.selectEngine k).engine = s.engine := by
  have hu : u.others[k]? = some s.engine := by
    simp [ho, State.selectEngine, hk]
  simp [State.selectEngine, hu]

/-- The completion of another engine's command leaves the engine at hand as it is (R132). -/
theorem othersTurn_engine {s t : State} (h : othersTurn s = .next t) : t.engine = s.engine := by
  unfold othersTurn at h
  split at h
  · next k hk =>
    obtain ⟨hlt, -⟩ := List.findIdx?_eq_some_iff_getElem.mp hk
    obtain ⟨u, hu, rfl⟩ := onNext_next h
    rcases engineTurn_next hu with ⟨-, rfl⟩ | ⟨i, -, -, he⟩
    · rw [State.selectEngine_selectEngine]
    · exact State.selectEngine_engine_back hlt (exec_frame he).2.1
  · cases h; rfl

section OperandsKept
variable {s t : State} (n : Nat)

theorem engineTurn_operand (h : engineTurn s = .next t) : t.engine.operand n = s.engine.operand n := by
  rcases engineTurn_next h with ⟨-, rfl⟩ | ⟨i, -, -, he⟩
  · rfl
  · rw [(exec_frame he).1, Engine.operand_completed]

theorem idleTurn_operand (h : idleTurn s = .next t) : t.engine.operand n = s.engine.operand n := by
  unfold idleTurn at h
  split at h
  · exact engineTurn_operand n h
  · rw [othersTurn_engine h]

theorem waitTurn_operand (h : waitTurn s = .next t) : t.engine.operand n = s.engine.operand n := by
  unfold waitTurn at h
  split at h
  · cases h; rfl
  · rw [idleTurn_operand n h, State.withEvents_engine]

theorem regRead_engine {m : Nat} (h : regRead m s = .next t) : t.engine = s.engine := by
  obtain ⟨v, rfl, -⟩ := regRead_next h
  rfl

theorem resetEngine_engine (h : resetEngine s = .next t) : t.engine = Engine.afterReset := by
  rcases resetEngine_next h with ⟨-, rfl⟩ | ⟨l, -, -, rfl⟩ <;> rfl

/-- A register write changes no operand register but the one it names (R21). -/
theorem regWrite_operand {m : Nat} {v : Word} (h : regWrite m v s = .next t) (hm : m ≠ n) :
    t.engine.operand n = s.engine.operand n := by
  obtain ⟨-, ⟨hlt, rfl⟩ | ⟨-, hl⟩⟩ := regWrite_next h
  · rw [State.withEngine_engine, Engine.operand_setOperand _ _ _ _ hlt, if_neg hm.symm]
  · obtain ⟨i, l, -, -, -, rfl⟩ := launch_next hl
    rfl

/-- The events after which a register that held `⊥` may hold a value: a write of it by number or by address, and the
exchange of two engines (R12, R132). -/
theorem handle_unwritten {ev : Event} (h : handle ev s = .next t) (hu : s.engine.operand n = .unwritten) :
    t.engine.operand n = .unwritten ∨ (∃ v, ev = .regWrite n v) ∨
      (∃ a v, ev = .busStore a v ∧ registerAt s.platform a.toNat = some n) ∨ ∃ k, ev = .select k := by
  cases ev with
  | regWrite m v =>
    by_cases hm : m = n
    · exact .inr (.inl ⟨v, by rw [hm]⟩)
    · exact .inl ((regWrite_operand n h hm).trans hu)
  | busStore a v =>
    simp only [handle, busStore] at h
    split at h
    · next m hreg =>
      by_cases hm : m = n
      · exact .inr (.inr (.inl ⟨a, v, rfl, by rw [hreg, hm]⟩))
      · exact .inl ((regWrite_operand n h hm).trans hu)
    · obtain ⟨rfl, -, -⟩ := hostAccess_next h
      exact .inl hu
  | regRead m => exact .inl (by rw [regRead_engine h, hu])
  | busLoad a =>
    simp only [handle, busLoad] at h
    split at h
    · exact .inl (by rw [regRead_engine h, hu])
    · obtain ⟨rfl, -, -⟩ := hostAccess_next h
      exact .inl hu
  | wait => exact .inl ((waitTurn_operand n h).trans hu)
  | storeByte a b =>
    obtain ⟨rfl, -, -⟩ := hostAccess_next (show hostAccess s true _ _ = _ from h)
    exact .inl hu
  | loadByte a =>
    obtain ⟨rfl, -, -⟩ := hostAccess_next (show hostAccess s false _ _ = _ from h)
    exact .inl hu
  | engineTurn => exact .inl ((engineTurn_operand n h).trans hu)
  | select k => exact .inr (.inr (.inr ⟨k, rfl⟩))
  | reset => exact .inl (by rw [resetEngine_engine h, Engine.operand_afterReset])

end OperandsKept

/-! ### The invariant of the machine -/

/-- The invariant asks the same of every engine, whichever is at hand. -/
theorem machineInv_iff {s : State} :
    MachineInv s ↔ s.mem.wf ∧ s.mem.inSpace ∧ ∀ e ∈ s.engine :: s.others, EngineInv s.platform e := by
  rw [List.forall_mem_cons, MachineInv]

/-- `EngineInv` asks nothing of an engine that runs no command. -/
theorem engineInv_of_idle {p : Platform} {e : Engine} (hb : e.busy = false) : EngineInv p e := by
  simp [EngineInv, hb]

/-- A launched engine meets its part of the invariant when the launch met the contract (R23). -/
theorem engineInv_launched {p : Platform} {e : Engine} {w : Word} {i : Instr} {l : Launch} (hi : decode w = .ok i)
    (hl : launchOf i e = some l) (hv : l.violation p = none) : EngineInv p (e.launched w) :=
  ⟨rfl, fun _ => ⟨i, l, hi, hl, hv⟩⟩

/-- The regions of a running command met the contract at its launch. -/
theorem EngineInv.violation_of_running {p : Platform} {e : Engine} (hinv : EngineInv p e) {l : Launch}
    (hr : e.running = some l) : l.violation p = none := by
  unfold Engine.running at hr
  split at hr
  · next hb =>
    obtain ⟨i, m, hi, hm, hv⟩ := hinv.2 hb
    rw [hi] at hr
    obtain rfl : m = l := Option.some.inj (hm.symm.trans hr)
    exact hv
  · cases hr

/-- Under the contract every byte of the destination is an address of the 32-bit space (R38). -/
theorem lt_addressLimit_of_inRegion_dst {p : Platform} {l : Launch} (hv : l.violation p = none) {a : Nat}
    (ha : InRegion l.dst a) : a < addressLimit := by
  obtain ⟨-, -, -, -, ⟨-, hdst⟩, -⟩ := violation_eq_none_iff.mp hv
  exact populated_lt ((Region.inMemory_iff.mp hdst).2 a ha)

section Kept
variable {s : State} (hs : MachineInv s)
include hs

/-- The invariant does not look at the events, the replies or the count of draws; of the engine at hand it asks only
`EngineInv`. -/
theorem MachineInv.withEngine {e : Engine} (he : EngineInv s.platform e) : MachineInv (s.withEngine e) :=
  let ⟨hwf, hin, _, ho⟩ := hs
  ⟨hwf, hin, he, ho⟩

theorem MachineInv.withEvents (es : List Event) : MachineInv (s.withEvents es) := hs

theorem MachineInv.withReply (r : Reply) : MachineInv (s.withReply r) := hs

theorem MachineInv.afterDraw : MachineInv s.afterDraw := hs

/-- Bytes written inside the address space keep the invariant (R25). -/
theorem MachineInv.writeAll {cells : List Host.Cell} (hc : ∀ c ∈ cells, c.1 < addressLimit) :
    MachineInv (s.withMem (s.mem.writeAll cells)) :=
  let ⟨hwf, hin, he, ho⟩ := hs
  ⟨Memory.writeAll_wf hwf cells, Memory.writeAll_inSpace hin hc, he, ho⟩

/-- Two engines that change places are the same engines (R132). -/
theorem MachineInv.selectEngine (k : Nat) : MachineInv (s.selectEngine k) := by
  obtain ⟨hwf, hin, hall⟩ := machineInv_iff.mp hs
  rw [machineInv_iff, State.selectEngine_mem, State.selectEngine_platform]
  exact ⟨hwf, hin, fun e he => hall e ((State.selectEngine_engines s k).mem_iff.mp he)⟩

/-- The completion of a command keeps the invariant: it stores inside its destination footprint and leaves its engine
idle (R24). -/
theorem MachineInv.exec {i : Instr} {t : State} (h : exec i s = .next t) : MachineInv t := by
  obtain ⟨l, cells, -, hv, -, hc, ht⟩ := exec_next h
  have hmem := hs.writeAll fun c hcm => lt_addressLimit_of_inRegion_dst hv (hc c hcm)
  have hdone := hmem.withEngine (engineInv_of_idle (e := s.engine.completed) rfl)
  obtain rfl | rfl := ht
  · exact hdone
  · exact hdone.afterDraw

end Kept

/-- Every move of the machine keeps the invariant. -/
theorem StepTo.keeps_machineInv {s t : State} (h : StepTo s t) (hs : MachineInv s) : MachineInv t := by
  cases h with
  | operand es n v hn hb =>
    exact (hs.withEvents es).withEngine (engineInv_of_idle (by rw [Engine.setOperand_busy, hb]))
  | launch es w i l hb hi hl hv => exact (hs.withEvents es).withEngine (engineInv_launched hi hl hv)
  | reply es r => exact (hs.withEvents es).withReply r
  | store es cells hp ht => exact (hs.withEvents es).writeAll fun c hc => populated_lt (hp c hc)
  | complete es i t hb hi he => exact (hs.withEvents es).exec he
  | completeOther es k i t hb hi he => exact (((hs.withEvents es).selectEngine k).exec he).selectEngine k
  | idle es => exact hs.withEvents es
  | select es k => exact (hs.withEvents es).selectEngine k
  | reset es hr => exact (hs.withEvents es).withEngine (engineInv_of_idle rfl)
  | abandon es l cells hr hc =>
    have ⟨_, _, he, _⟩ := hs
    have hv := he.violation_of_running hr
    have hmem := (hs.withEvents es).writeAll fun c hcm => lt_addressLimit_of_inRegion_dst hv (hc c hcm)
    exact (hmem.withEngine (engineInv_of_idle rfl)).afterDraw

/-- No move of the machine touches the platform's constants (R17, R112). -/
theorem StepTo.platform_eq {s t : State} (h : StepTo s t) : t.platform = s.platform := by
  cases h with
  | complete es i t hb hi he => exact (exec_frame he).2.2
  | completeOther es k i u hb hi he =>
    rw [State.selectEngine_platform, (exec_frame he).2.2, State.selectEngine_platform, State.withEvents_platform]
  | select es k => exact State.selectEngine_platform _ k
  | _ => rfl

/-! ### The results of the commands -/

theorem onlyMemoryAndStatus_complete (s : State) (m : Memory) : OnlyMemoryAndStatus s (complete s m) :=
  ⟨rfl, rfl, rfl, rfl, rfl⟩

theorem onlyMemoryAndStatus_afterDraw {s t : State} (h : OnlyMemoryAndStatus s t) :
    OnlyMemoryAndStatus s t.afterDraw := h

section Results
variable {i : Instr} {s : State} {src dst stride w h : Word}

/-- A transform that completes with `Exec2` of a block function leaves that function of every block, and nothing else
(R90). -/
theorem exec2_completes {f : Block F32 → Block F32} (hr : RunsOn i s src dst stride w h) (hsz : sampleSize i = 4)
    (he : exec i s = .next (complete s (exec2 f s (launchWords i src dst stride w h))).afterDraw) :
    ∃ t, exec i s = .next t ∧
      (∀ y x : Nat, y < h.toNat / 8 → x < w.toNat / 8 → ∀ a b : Fin 8,
        readF32 t.mem (sampleAddr i dst stride (8 * y + a.val) (8 * x + b.val)) =
          f (fun a' b' => readF32 s.mem (sampleAddr i src stride (8 * y + a'.val) (8 * x + b'.val))) a b) ∧
      (∀ a, ¬ InOperandFootprint i dst stride w h a → t.mem.read a = s.mem.read a) ∧ OnlyMemoryAndStatus s t := by
  obtain ⟨-, ⟨-, hstride, -⟩, -, hm⟩ := hr
  refine ⟨_, he, fun y x hy hx a b => ?_, fun a ha => read_exec2_outside hm hsz ha,
    onlyMemoryAndStatus_afterDraw (onlyMemoryAndStatus_complete s _)⟩
  exact readF32_exec2 hm hsz hstride (Region.mem_blocks.mpr ⟨hy, hx⟩) a b

/-- A float command that completes with `Exec1` leaves `g` of every sample and its table entry, and changes nothing
else (R105). -/
theorem exec1F32_completes {g : F32 → Divisor → F32} (hr : RunsOn i s dst dst stride w h) (hsz : sampleSize i = 4)
    (he : exec i s = .next (complete s (exec1F32 g s (launchWords i dst dst stride w h))).afterDraw) :
    ∃ t, exec i s = .next t ∧
      (∀ y x : Nat, y < h.toNat / 8 → x < w.toNat / 8 → ∀ a b : Fin 8,
        readF32 t.mem (sampleAddr i dst stride (8 * y + a.val) (8 * x + b.val)) =
          g (readF32 s.mem (sampleAddr i dst stride (8 * y + a.val) (8 * x + b.val))) (qtabAt s.platform a b)) ∧
      (∀ a, ¬ InOperandFootprint i dst stride w h a → t.mem.read a = s.mem.read a) ∧ OnlyMemoryAndStatus s t := by
  obtain ⟨-, ⟨-, hstride, -⟩, -, hm⟩ := hr
  refine ⟨_, he, fun y x hy hx a b => ?_, fun a ha => read_exec1F32_outside hm hsz ha,
    onlyMemoryAndStatus_afterDraw (onlyMemoryAndStatus_complete s _)⟩
  exact readF32_exec1F32 hm hsz hstride (Region.mem_blocks.mpr ⟨hy, hx⟩) a b

/-- An integer command that completes with `Exec1` leaves `g` of every sample and its table entry, where these fit 16
bits, and changes nothing else (R105). -/
theorem exec1S16_completes {g : Int → Nat → Int} (hr : RunsOn i s dst dst stride w h) (hsz : sampleSize i = 2)
    (he : exec i s = .next (complete s (exec1S16 g s (launchWords i dst dst stride w h))))
    (hfit : ∀ y x : Nat, y < h.toNat / 8 → x < w.toNat / 8 → ∀ a b : Fin 8,
      fitsHalf (g (readS16 s.mem (sampleAddr i dst stride (8 * y + a.val) (8 * x + b.val)))
        (qtabAt s.platform a b).val) = true) :
    ∃ t, exec i s = .next t ∧
      (∀ y x : Nat, y < h.toNat / 8 → x < w.toNat / 8 → ∀ a b : Fin 8,
        readS16 t.mem (sampleAddr i dst stride (8 * y + a.val) (8 * x + b.val)) =
          g (readS16 s.mem (sampleAddr i dst stride (8 * y + a.val) (8 * x + b.val))) (qtabAt s.platform a b).val) ∧
      (∀ a, ¬ InOperandFootprint i dst stride w h a → t.mem.read a = s.mem.read a) ∧ OnlyMemoryAndStatus s t := by
  obtain ⟨-, ⟨-, hstride, -⟩, -, hm⟩ := hr
  refine ⟨_, he, fun y x hy hx a b => ?_, fun a ha => read_exec1S16_outside hm hsz ha,
    onlyMemoryAndStatus_complete s _⟩
  exact readS16_exec1S16 hm hsz hstride (Region.mem_blocks.mpr ⟨hy, hx⟩) a b (hfit y x hy hx a b)

end Results

/-- The range of a 16-bit sample (R31). -/
theorem fitsHalf_iff {x : Int} : fitsHalf x = true ↔ -32768 ≤ x ∧ x ≤ 32767 := by
  simp only [fitsHalf, Bool.and_eq_true, decide_eq_true_eq]

/-- What memory holds at a sample is a 16-bit integer (R31). -/
theorem fitsHalf_readS16 (m : Memory) (a : Nat) : fitsHalf (readS16 m a) = true :=
  fitsHalf_iff.mpr ⟨BitVec.le_toInt (m.read16 a), Int.le_of_lt_add_one BitVec.toInt_lt⟩

/-- Rounded division by a positive number does not grow the magnitude (R84). -/
theorem roundedQuotient_le (m : Nat) {q : Nat} (hq : 1 ≤ q) : (m + q / 2) / q ≤ m := by
  have hm : m ≤ q * m := Nat.le_mul_of_pos_left m hq
  rw [← Nat.lt_succ_iff, Nat.div_lt_iff_lt_mul hq, Nat.succ_mul, Nat.mul_comm]
  omega

/-- `QNTS` has no condition on the data: every rounded quotient of a 16-bit sample is one (R107). -/
theorem fitsHalf_qrnd {x : Int} (hx : fitsHalf x = true) {q : Nat} (hq : 1 ≤ q) : fitsHalf (qrnd x q) = true := by
  have hle := roundedQuotient_le x.natAbs hq
  rw [fitsHalf_iff] at hx ⊢
  simp only [qrnd]
  generalize (x.natAbs + q / 2) / q = m at hle ⊢
  split <;> omega

/-! ### The statements -/

/-- Settles O33, by the list of everything a step can do. -/
theorem stepKeepsTheMachineInvariant : Obligations.StepKeepsTheMachineInvariant :=
  fun _ _ hs h => (step_cases h).keeps_machineInv hs

/-- Settles O6: a write of `CMD` on an idle engine is a launch, and its checks are the contract. -/
theorem launchAcceptedExactlyUnderTheContract : Obligations.LaunchAcceptedExactlyUnderTheContract := by
  intro s w rest hb he
  have hstep : step s = launch w (s.withEvents rest) := (step_eq_handle he).trans (regWrite_command_idle hb)
  rw [hstep]
  exact exists_launch_next_iff

/-- Settles O7: the one next state of a launch that breaks no clause. -/
theorem launchSetsBusyAndClearsDone : Obligations.LaunchSetsBusyAndClearsDone := by
  intro s i src dst stride width height rest hb he ho hm
  have hstep : step s = launch (encode i) (s.withEvents rest) :=
    (step_eq_handle he).trans (regWrite_command_idle hb)
  rw [hstep]
  exact launch_eq (decode_encode i) (launchOf_of_holds ho) (violation_eq_none_iff_meetsContract.mpr hm)

/-- Settles O9: `⊥` at reset, what may end it, and the two refusals. -/
theorem unwrittenOperandIsRefused : Obligations.UnwrittenOperandIsRefused := by
  refine ⟨fun n => ⟨Engine.operand_afterReset n, Engine.operand_afterReset n⟩, fun s t n h hu => ?_,
    fun s i n rest hb he hn h0 hu => ?_, fun s n rest he hn hu => ?_⟩
  · cases hev : s.events with
    | nil =>
      have hidle : idleTurn s = .next t := by rw [← h, step, advance, hev]
      exact .inl ((idleTurn_operand n hidle).trans hu)
    | cons ev rest =>
      rw [step_eq_handle hev] at h
      rcases handle_unwritten n h hu with ht | ⟨v, rfl⟩ | ⟨a, v, rfl, hreg⟩ | ⟨k, rfl⟩
      · exact .inl ht
      · exact .inr (.inl ⟨v, rest, rfl⟩)
      · exact .inr (.inr (.inl ⟨a, v, rest, rfl, hreg⟩))
      · exact .inr (.inr (.inr ⟨k, rest, hev⟩))
  · have hstep : step s = launch (encode i) (s.withEvents rest) :=
      (step_eq_handle he).trans (regWrite_command_idle hb)
    rw [hstep]
    exact launch_unwritten (decode_encode i) (launchOf_eq_none_of_unwritten hn h0 hu)
  · exact (step_eq_handle he).trans (regRead_unwritten hn hu)

/-- Settles O16. -/
theorem dct8x8WritesForwardTransform : Obligations.Dct8x8WritesForwardTransform := by
  intro s src dst stride w h hr
  obtain ⟨hl, hv, hc, -⟩ := checks_of_runsOn hr
  exact exec2_completes hr rfl (exec_dct8x8_eq hl hv hc)

/-- Settles O17. -/
theorem idct8x8WritesInverseTransform : Obligations.Idct8x8WritesInverseTransform := by
  intro s src dst stride w h hr
  obtain ⟨hl, hv, hc, -⟩ := checks_of_runsOn hr
  exact exec2_completes hr rfl (exec_idct8x8_eq hl hv hc)

/-- Settles O18. -/
theorem qntfDividesEachSample : Obligations.QntfDividesEachSample := by
  intro s dst stride w h hr
  obtain ⟨hl, hv, hc, -⟩ := checks_of_runsOn hr
  exact exec1F32_completes hr rfl (exec_qntf_eq hl hv hc)

/-- Settles O19: `qrnd` is the formula of R84, and its values always fit. -/
theorem qntsDividesAndRounds : Obligations.QntsDividesAndRounds := by
  intro s dst stride w h hr
  obtain ⟨hl, hv, hc, -⟩ := checks_of_runsOn hr
  exact exec1S16_completes hr rfl (exec_qnts_eq hl hv hc) fun _ _ _ _ a b =>
    fitsHalf_qrnd (fitsHalf_readS16 _ _) (qtabAt s.platform a b).pos

/-- Settles O20. -/
theorem deqfMultipliesEachSample : Obligations.DeqfMultipliesEachSample := by
  intro s dst stride w h hr
  obtain ⟨hl, hv, hc, -⟩ := checks_of_runsOn hr
  exact exec1F32_completes hr rfl (exec_deqf_eq hl hv hc)

/-- Settles O21: the check of `DEQS` is whether every product fits. -/
theorem deqsMultipliesOrRefuses : Obligations.DeqsMultipliesOrRefuses := by
  intro s dst stride w h hr
  obtain ⟨hl, hv, hc, -⟩ := checks_of_runsOn hr
  have hexec := exec_deqs_eq hl hv hc
  have hrange := deqsInRange_iff (s := s) (l := launchWords .deqs dst dst stride w h)
  constructor
  · intro hfit
    rw [if_pos (hrange.mpr hfit)] at hexec
    exact exec1S16_completes hr rfl hexec fun y x hy hx a b => fitsHalf_iff.mpr (hfit y x hy hx a b)
  · intro y x hy hx a b hout
    have hno : ¬ deqsInRange s (launchWords .deqs dst dst stride w h) = true := by
      intro hin
      obtain ⟨hlo, hhi⟩ := hrange.mp hin y x hy hx a b
      exact hout.elim (not_lt.mpr hhi) (not_lt.mpr hlo)
    rw [hexec, if_neg hno]

/-- Settles O35, by the list of everything a step can do. -/
theorem platformNeverChanges : Obligations.PlatformNeverChanges :=
  fun _ _ h => (step_cases h).platform_eq

/-- Settles O10: the write is `setOperand`, and the read after it is the read of a register that holds a value. -/
theorem operandWriteStoresAndReadsBack : Obligations.OperandWriteStoresAndReadsBack := by
  have hread : ∀ (s : State) (n : Nat) (v : Word) (rest : List Event), n < 5 → s.engine.operand n = .holds v →
      s.events = .regRead n :: rest → step s = .next { s with events := rest, replies := .word v :: s.replies } :=
    fun s n v rest hn hv he => (step_eq_handle he).trans (regRead_holds hn hv)
  refine ⟨hread, fun s n v rest hn hb he => ?_⟩
  have hop := fun k => Engine.operand_setOperand s.engine v n k hn
  have hn' : (s.engine.setOperand n v).operand n = .holds v := by rw [hop, if_pos rfl]
  exact ⟨_, (step_eq_handle he).trans (regWrite_operand_idle hn hb), hn',
    fun k _ hk => by rw [State.withEngine_engine, State.withEvents_engine, hop, if_neg hk],
    Engine.setOperand_busy _ _ _, Engine.setOperand_done _ _ _, Engine.setOperand_command _ _ _,
    rfl, rfl, rfl, rfl, rfl, rfl, fun rest' => hread _ n v rest' hn hn' rfl⟩

/-- Settles O12. -/
theorem badRegisterAccessesAreRefused : Obligations.BadRegisterAccessesAreRefused :=
  fun _ _ _ _ => ⟨fun he hn => (step_eq_handle he).trans (regWrite_outside_map hn),
    fun he hn => (step_eq_handle he).trans (regRead_outside_map hn),
    fun he hn hb => (step_eq_handle he).trans (regWrite_busy hn hb)⟩

/-- Settles O15. -/
theorem resetStateIsIdleAndUnwritten : Obligations.ResetStateIsIdleAndUnwritten :=
  ⟨Engine.operand_afterReset, rfl, rfl, by decide⟩

/-- Settles O34: memory with nothing listed, and one idle engine. -/
theorem resetMeetsTheMachineInvariant : Obligations.ResetMeetsTheMachineInvariant :=
  ⟨⟨List.Pairwise.nil, fun _ hc => absurd hc List.not_mem_nil⟩, fun _ hc => absurd hc List.not_mem_nil,
    engineInv_of_idle rfl, fun _ he => absurd he List.not_mem_nil⟩

end Sys2Proof.Machine
end

section
/-! The family of `20_memory.md`: commands that share memory with other engines, empty regions, and the orders in which
blocks, samples and engines may be taken. -/

namespace Sys2Proof.Machine

/-! ### Memory: the order of writes -/

/-- Two lists of writes, one after the other. -/
theorem Memory.writeAll_append (m : Memory) (cells cells' : List Host.Cell) :
    m.writeAll (cells ++ cells') = (m.writeAll cells).writeAll cells' :=
  List.foldl_append

/-- Lists of writes with the same members leave the same memory when no two writes to one address differ. -/
theorem Memory.writeAll_congr {m : Memory} (h : m.wf) {cells cells' : List Host.Cell}
    (hmem : ∀ c, c ∈ cells ↔ c ∈ cells') (hu : ∀ c ∈ cells', ∀ d ∈ cells', c.1 = d.1 → c.2 = d.2) :
    m.writeAll cells = m.writeAll cells' := by
  refine Memory.ext_of_wf (Memory.writeAll_wf h _) (Memory.writeAll_wf h _) fun x => ?_
  by_cases hx : ∃ c ∈ cells', c.1 = x
  · obtain ⟨c, hc, rfl⟩ := hx
    rw [Memory.read_writeAll_of_mem h hc fun d hd hdc => hu d hd c hc hdc,
      Memory.read_writeAll_of_mem h ((hmem c).mpr hc) fun d hd hdc => hu d ((hmem d).mp hd) c hc hdc]
  · push Not at hx
    rw [Memory.read_writeAll_of_not_mem h hx,
      Memory.read_writeAll_of_not_mem h fun c hc => hx c ((hmem c).mp hc)]

section ItemByItem
variable {β : Type} {m : Memory} {cells : Memory → β → List Host.Cell} {items : List β}

/-- Work done item by item, each item's writes computed from memory as it then stands, leaves what all the writes computed
at the start leave: it is enough that the writes of other items do not change what an item computes. -/
theorem Memory.foldl_writeAll_of_nodup
    (hread : ∀ b ∈ items, ∀ earlier : List β, earlier ⊆ items → b ∉ earlier →
      cells (m.writeAll (earlier.flatMap (cells m))) b = cells m b) {order : List β} (hsub : order ⊆ items)
    (hn : order.Nodup) :
    order.foldl (fun n b => n.writeAll (cells n b)) m = m.writeAll (order.flatMap (cells m)) := by
  induction order using List.reverseRecOn with
  | nil => rfl
  | append_singleton earlier b ih =>
    obtain ⟨hearlier, hb⟩ := List.append_subset.mp hsub
    obtain ⟨hne, -, hdisj⟩ := List.nodup_append'.mp hn
    have hfresh : b ∉ earlier := fun hin => hdisj hin (List.mem_singleton_self b)
    rw [List.foldl_append, ih hearlier hne, List.foldl_cons, List.foldl_nil,
      hread b (hb (List.mem_singleton_self b)) earlier hearlier hfresh, List.flatMap_append,
      Memory.writeAll_append, List.flatMap_singleton]

/-- The same in any order of the items, if no two writes to one address differ. -/
theorem Memory.foldl_writeAll_of_perm (h : m.wf) {order : List β} (hp : order.Perm items) (hn : items.Nodup)
    (hread : ∀ b ∈ items, ∀ earlier : List β, earlier ⊆ items → b ∉ earlier →
      cells (m.writeAll (earlier.flatMap (cells m))) b = cells m b)
    (hu : ∀ c ∈ items.flatMap (cells m), ∀ d ∈ items.flatMap (cells m), c.1 = d.1 → c.2 = d.2) :
    order.foldl (fun n b => n.writeAll (cells n b)) m = m.writeAll (items.flatMap (cells m)) := by
  rw [Memory.foldl_writeAll_of_nodup hread hp.subset (hp.nodup_iff.mpr hn)]
  exact Memory.writeAll_congr h (fun c => (hp.flatMap_right (cells m)).mem_iff) hu

end ItemByItem

/-! ### Samples depend on their bytes -/

section SampleBytes
variable {m m' : Memory} {a : Nat}

theorem readF32_congr (h : ∀ k, k < 4 → m.read (a + k) = m'.read (a + k)) : readF32 m a = readF32 m' a := by
  have h0 := h 0 (by decide)
  simp only [readF32, Memory.read32, h 3 (by decide), h 2 (by decide), h 1 (by decide)]
  rw [Nat.add_zero] at h0
  rw [h0]

theorem readS16_congr (h : ∀ k, k < 2 → m.read (a + k) = m'.read (a + k)) : readS16 m a = readS16 m' a := by
  have h0 := h 0 (by decide)
  simp only [readS16, Memory.read16, h 1 (by decide)]
  rw [Nat.add_zero] at h0
  rw [h0]

theorem sampleAt_congr {i : Instr} (h : ∀ k, k < sampleSize i → m.read (a + k) = m'.read (a + k)) :
    sampleAt i m a = sampleAt i m' a := by
  have hsize : sampleSize i = 4 ∨ sampleSize i = 2 := by cases i <;> decide
  rcases hsize with hz | hz <;> rw [hz] at h
  · rw [sampleAt, sampleAt, if_pos hz, if_pos hz, readF32_congr h]
  · rw [sampleAt, sampleAt, if_neg (by rw [hz]; decide), if_neg (by rw [hz]; decide), readS16_congr h]

end SampleBytes

/-! ### Blocks and places -/

/-- The tiling names each block once (R35). -/
theorem Region.blocks_nodup (g : Region) : g.blocks.Nodup :=
  List.nodup_range.product List.nodup_range

/-- The tiling names each place once (R35). -/
theorem Region.places_nodup (g : Region) : g.places.Nodup :=
  g.blocks_nodup.product (by decide : positions.Nodup)

theorem Region.mem_places {g : Region} {p : (Nat × Nat) × (Fin 8 × Fin 8)} : p ∈ g.places ↔ p.1 ∈ g.blocks := by
  obtain ⟨b, q⟩ := p
  simp [Region.places, mem_positions]

section BlockCells
variable {g : Region} {cells : Nat → Nat → Fin 8 → Fin 8 → Nat → List Host.Cell}

theorem blockCells_singleton (b : Nat × Nat) :
    blockCells g [b] cells = positions.flatMap fun p => cells b.1 b.2 p.1 p.2 (g.blockAddr b.1 b.2 p.1 p.2) :=
  List.flatMap_singleton ..

/-- The bytes a command stores, block by block. -/
theorem blockCells_eq_flatMap_blocks (bs : List (Nat × Nat)) :
    blockCells g bs cells = bs.flatMap fun b => blockCells g [b] cells := by
  simp only [blockCells, List.flatMap_singleton]

/-- The bytes a command stores, place by place. -/
theorem blockCells_eq_flatMap_places :
    blockCells g g.blocks cells =
      g.places.flatMap fun p => cells p.1.1 p.1.2 p.2.1 p.2.2 (g.blockAddr p.1.1 p.1.2 p.2.1 p.2.2) := by
  simp only [blockCells, Region.places, List.flatMap_assoc, List.flatMap_map]

/-- No two stores of a command to one address differ: each is the byte that memory holds there afterwards (R35). -/
theorem blockCells_unique (hs : g.width ≤ g.stride)
    (hsz : ∀ y x i j a, ∀ c ∈ cells y x i j a, a ≤ c.1 ∧ c.1 < a + g.size)
    (hu : ∀ y x i j a, ∀ c ∈ cells y x i j a, ∀ d ∈ cells y x i j a, c.1 = d.1 → c.2 = d.2) :
    ∀ c ∈ blockCells g g.blocks cells, ∀ d ∈ blockCells g g.blocks cells, c.1 = d.1 → c.2 = d.2 := by
  intro c hc d hd hcd
  obtain ⟨y, x, i, j, hb, hin⟩ := mem_blockCells.mp hc
  have hread := fun c hc => Memory.read_blockCells_inside (m := []) (by decide) hs hsz hu hb (i := i) (j := j) c hc
  obtain ⟨y', x', i', j', hb', hin'⟩ := mem_blockCells.mp hd
  have hread' := Memory.read_blockCells_inside (m := []) (by decide) hs hsz hu hb' d hin'
  rw [← hread c hin, hcd, hread']

end BlockCells

theorem sampleSize_of_twoBuffer {i : Instr} (hi : shapeOf i = .twoBuffer) : sampleSize i = 4 := by
  cases i <;> simp_all [shapeOf, sampleSize]

section LaunchBlocks
variable {p : Platform} {i : Instr} {e : Engine} {l : Launch}

/-- Regions with the same base pointer are one region (R33, R52). -/
theorem Launch.src_eq_dst_of_base (hl : launchOf i e = some l) (hbase : l.src.base = l.dst.base) : l.src = l.dst := by
  obtain ⟨hsrc, hdst, hstride, hwidth, hheight⟩ := launchOf_regions hl
  obtain ⟨⟨⟩, ⟨⟩⟩ := l
  exact (Region.mk.injEq ..).mpr ⟨hbase, hstride, hwidth, hheight, hsrc.trans hdst.symm⟩

/-- Under the contract of a launch, a block of the source and a block of the destination that share a byte are the same
block: either the two regions are one, or they share no byte at all (R40, R41). -/
theorem Launch.block_eq_of_shared_byte (hl : launchOf i e = some l) (hv : l.violation p = none) {y x y' x' : Nat}
    {b c b' c' : Fin 8} (hb : (y, x) ∈ l.dst.blocks) (hb' : (y', x') ∈ l.dst.blocks) {k k' : Nat} (hk : k < l.dst.size)
    (hk' : k' < l.dst.size) (h : l.src.blockAddr y x b c + k = l.dst.blockAddr y' x' b' c' + k') :
    (y, x) = (y', x') := by
  obtain ⟨-, hs, -, -, -, hbase | hmeets⟩ := violation_eq_none_iff.mp hv
  · rw [Launch.src_eq_dst_of_base hl hbase] at h
    obtain ⟨⟨rfl, rfl⟩, -⟩ := Region.blockAddr_apart hs hb hb' hk hk' h
    rfl
  · obtain ⟨hsrc, hdst, -, hwidth, hheight⟩ := launchOf_regions hl
    have hpos := sampleSize_pos i
    have hbs : (y, x) ∈ l.src.blocks := by
      rw [Region.mem_blocks, hwidth, hheight]
      exact Region.mem_blocks.mp hb
    have hshared : ∃ z, InRegion l.src z ∧ InRegion l.dst z :=
      ⟨_, Region.blockAddr_inRegion hbs (by omega), h ▸ Region.blockAddr_inRegion hb' hk'⟩
    rw [← Region.meets_iff (by omega) (by omega), hmeets] at hshared
    cases hshared

/-- Writes to samples of the destination at other blocks leave the source samples of a block as they were (R41). -/
theorem readBlock_writeAll {m : Memory} (hm : m.wf) (hl : launchOf i e = some l) (hv : l.violation p = none)
    (hsz : l.dst.size = 4) {earlier : List (Nat × Nat)} (hsub : earlier ⊆ l.dst.blocks)
    {cells : Nat → Nat → Fin 8 → Fin 8 → Nat → List Host.Cell}
    (hcells : ∀ y x i j a, ∀ c ∈ cells y x i j a, a ≤ c.1 ∧ c.1 < a + l.dst.size) {y x : Nat}
    (hb : (y, x) ∈ l.dst.blocks) (hfresh : (y, x) ∉ earlier) :
    readBlock (m.writeAll (blockCells l.dst earlier cells)) l.src y x = readBlock m l.src y x := by
  funext b c
  refine readF32_congr fun k hk => Memory.read_writeAll_of_not_mem hm fun d hd hda => ?_
  obtain ⟨y', x', b', c', hb', hd⟩ := mem_blockCells.mp hd
  obtain ⟨hlo, hhi⟩ := hcells _ _ _ _ _ d hd
  have hblock := Launch.block_eq_of_shared_byte hl hv hb (hsub hb') (b := b) (c := c) (b' := b') (c' := c') (k := k)
    (k' := d.1 - l.dst.blockAddr y' x' b' c') (by omega) (by omega) (by omega)
  exact hfresh (hblock ▸ hb')

end LaunchBlocks

/-- Writes to samples at other places leave the bytes of a sample as they were. -/
theorem Memory.read_writeAll_other_places {m : Memory} (hm : m.wf) {g : Region} (hs : g.width ≤ g.stride)
    {earlier : List ((Nat × Nat) × (Fin 8 × Fin 8))} (hsub : earlier ⊆ g.places)
    {cells : (Nat × Nat) × (Fin 8 × Fin 8) → List Host.Cell}
    (hcells : ∀ q, ∀ c ∈ cells q, g.blockAddr q.1.1 q.1.2 q.2.1 q.2.2 ≤ c.1 ∧
      c.1 < g.blockAddr q.1.1 q.1.2 q.2.1 q.2.2 + g.size) {p : (Nat × Nat) × (Fin 8 × Fin 8)}
    (hp : p ∈ g.places) (hfresh : p ∉ earlier) {k : Nat} (hk : k < g.size) :
    (m.writeAll (earlier.flatMap cells)).read (g.blockAddr p.1.1 p.1.2 p.2.1 p.2.2 + k) =
      m.read (g.blockAddr p.1.1 p.1.2 p.2.1 p.2.2 + k) := by
  refine Memory.read_writeAll_of_not_mem hm fun d hd hda => ?_
  obtain ⟨⟨⟨y', x'⟩, i', j'⟩, hq, hd⟩ := List.mem_flatMap.mp hd
  obtain ⟨⟨y, x⟩, i, j⟩ := p
  have hb := Region.mem_places.mp hp
  have hb' := Region.mem_places.mp (hsub hq)
  have hcell := hcells _ d hd
  simp only at hb hb' hcell hda
  obtain ⟨⟨rfl, rfl⟩, ⟨rfl, rfl⟩, -⟩ := Region.blockAddr_apart hs hb hb' (i := i) (j := j) (i' := i') (j' := j')
    (k' := d.1 - g.blockAddr y' x' i' j') hk (by omega) (by omega)
  exact hfresh hq

/-- Any sample command, sample after sample in any order, leaves what it leaves from the memory at the start: what it
stores for a sample depends on the bytes of that sample alone (R42, R105). -/
theorem sampleBySample_eq {m : Memory} (hm : m.wf) {g : Region} (hs : g.width ≤ g.stride)
    {store : Memory → Fin 8 → Fin 8 → Nat → List Host.Cell}
    (hsz : ∀ n i j a, ∀ c ∈ store n i j a, a ≤ c.1 ∧ c.1 < a + g.size)
    (hu : ∀ n i j a, ∀ c ∈ store n i j a, ∀ d ∈ store n i j a, c.1 = d.1 → c.2 = d.2)
    (hlocal : ∀ n i j a, (∀ k, k < g.size → n.read (a + k) = m.read (a + k)) → store n i j a = store m i j a)
    {places : List ((Nat × Nat) × (Fin 8 × Fin 8))} (hp : places.Perm g.places) :
    places.foldl (fun n p => n.writeAll (store n p.2.1 p.2.2 (g.blockAddr p.1.1 p.1.2 p.2.1 p.2.2))) m =
      m.writeAll (blockCells g g.blocks fun _ _ i j a => store m i j a) := by
  have huniq := blockCells_unique (cells := fun _ _ i j a => store m i j a) hs (fun _ _ => hsz m) (fun _ _ => hu m)
  rw [blockCells_eq_flatMap_places] at huniq ⊢
  exact Memory.foldl_writeAll_of_perm (cells := fun n p => store n p.2.1 p.2.2 (g.blockAddr p.1.1 p.1.2 p.2.1 p.2.2))
    hm hp g.places_nodup
    (fun p hin earlier hsub hfresh => hlocal _ _ _ _ fun k hk =>
      Memory.read_writeAll_other_places hm hs hsub (fun q => hsz m q.2.1 q.2.2 _) hin hfresh hk)
    huniq

/-! ### Commands and other engines -/

/-- Every command is `runCommand` of its own effect (R24). -/
theorem exec_eq_runCommand (i : Instr) (s : State) : ∃ effect, exec i s = runCommand i s effect := by
  cases i <;> exact ⟨_, rfl⟩

/-- A command in the way of another engine's is `PV11` (R45). -/
theorem runCommand_conflict {i : Instr} {s : State} {f : Launch → Host.Outcome State Fault Refusal} {l : Launch}
    (hl : launchOf i s.engine = some l) (hv : l.violation s.platform = none) (hc : othersConflict s l = true) :
    runCommand i s f = .refused .pv11BufferTouchedWhileBusy := by
  simp only [runCommand, hl, hv, hc, if_true, violate]

/-- A command runs when its contract holds, no other engine is in its way and, for `DEQS`, every product fits. -/
theorem exists_exec_next {i : Instr} {s : State} {src dst stride w h : Word} (hr : RunsOn i s src dst stride w h)
    (hfit : i = .deqs → DeqsProductsFit s (launchWords i src dst stride w h).dst) : ∃ t, exec i s = .next t := by
  obtain ⟨hl, hv, hc, -⟩ := checks_of_runsOn hr
  cases i with
  | dct8x8 => exact ⟨_, exec_dct8x8_eq hl hv hc⟩
  | idct8x8 => exact ⟨_, exec_idct8x8_eq hl hv hc⟩
  | qntf => exact ⟨_, exec_qntf_eq hl hv hc⟩
  | qnts => exact ⟨_, exec_qnts_eq hl hv hc⟩
  | deqf => exact ⟨_, exec_deqf_eq hl hv hc⟩
  | deqs => exact ⟨_, (exec_deqs_eq hl hv hc).trans (if_pos (deqsInRange_iff.mpr (hfit rfl)))⟩

section Completed
variable {i : Instr} {s t : State} {src dst stride w h : Word}

/-- Everything a command can do (`exec_next`), in terms of the operands it holds. -/
theorem exec_next_of_holds (he : exec i s = .next t) (ho : HoldsOperands i s.engine src dst stride w h) :
    ∃ cells, (launchWords i src dst stride w h).violation s.platform = none ∧
      othersConflict s (launchWords i src dst stride w h) = false ∧
      (∀ c ∈ cells, InOperandFootprint i dst stride w h c.1) ∧ t.mem = s.mem.writeAll cells ∧
      OnlyMemoryAndStatus s t := by
  obtain ⟨l, cells, hl, hv, hc, hin, ht⟩ := exec_next he
  obtain rfl : launchWords i src dst stride w h = l := Option.some.inj ((launchOf_of_holds ho).symm.trans hl)
  refine ⟨cells, hv, hc, hin, ?_⟩
  rcases ht with rfl | rfl
  · exact ⟨rfl, onlyMemoryAndStatus_complete s _⟩
  · exact ⟨rfl, onlyMemoryAndStatus_afterDraw (onlyMemoryAndStatus_complete s _)⟩

/-- A command that gives a next state met everything that was asked of it. -/
theorem runsOn_of_exec_next (he : exec i s = .next t) (ho : HoldsOperands i s.engine src dst stride w h)
    (hm : s.mem.wf) : RunsOn i s src dst stride w h := by
  obtain ⟨-, hv, hc, -⟩ := exec_next_of_holds he ho
  exact runsOn_of_checks ho hv hc hm

/-- What a command leaves of memory: a canonical one, as before outside the destination footprint (R39). -/
theorem exec_mem (he : exec i s = .next t) (ho : HoldsOperands i s.engine src dst stride w h) (hm : s.mem.wf) :
    t.mem.wf ∧ ∀ x, ¬ InOperandFootprint i dst stride w h x → t.mem.read x = s.mem.read x := by
  obtain ⟨cells, -, -, hin, hmem, -⟩ := exec_next_of_holds he ho
  rw [hmem]
  exact ⟨Memory.writeAll_wf hm _, fun x hx => Memory.read_writeAll_of_not_mem hm fun c hc hcx => hx (hcx ▸ hin c hc)⟩

/-- A command whose destination has no byte leaves memory as it is, and changes nothing but its status (R35). -/
theorem exec_empty (he : exec i s = .next t) (ho : HoldsOperands i s.engine src dst stride w h)
    (hempty : ∀ x, ¬ InOperandFootprint i dst stride w h x) : t.mem = s.mem ∧ OnlyMemoryAndStatus s t := by
  obtain ⟨cells, -, -, hin, hmem, hrest⟩ := exec_next_of_holds he ho
  obtain rfl : cells = [] := List.eq_nil_iff_forall_not_mem.mpr fun c hc => hempty _ (hin c hc)
  exact ⟨hmem, hrest⟩

end Completed

/-! ### What a command makes of a block -/

/-- The samples of block `(y, x)` of a region (R35). -/
def sampleBlock (i : Instr) (m : Memory) (a stride : Word) (y x : Nat) : Block (F32 ⊕ Int) :=
  fun b c => sampleAt i m (sampleAddr i a stride (8 * y + b.val) (8 * x + c.val))

/-- The value of a float sample. -/
def floatOf : F32 ⊕ Int → F32 := Sum.elim id fun _ => .nan

/-- The value of an integer sample. -/
def intOf : F32 ⊕ Int → Int := Sum.elim (fun _ => 0) id

/-- The destination block that a command makes of a source block, given the platform's constants (R91, R92, R106 to
R109). -/
def commandBlock (i : Instr) (p : Platform) (blk : Block (F32 ⊕ Int)) : Block (F32 ⊕ Int) := fun b c =>
  match i with
  | .dct8x8 => .inl ((platformNum p).dct2d (fun b' c' => floatOf (blk b' c')) b c)
  | .idct8x8 => .inl ((platformNum p).idct2d (fun b' c' => floatOf (blk b' c')) b c)
  | .qntf => .inl ((platformNum p).qdiv (floatOf (blk b c)) (qtabAt p b c))
  | .qnts => .inr (qrnd (intOf (blk b c)) (qtabAt p b c).val)
  | .deqf => .inl ((platformNum p).qmul (floatOf (blk b c)) (qtabAt p b c))
  | .deqs => .inr (deqProduct (intOf (blk b c)) (qtabAt p b c).val)

/-- Every command, on every block of its region: the destination block is `commandBlock` of the source block. -/
theorem sampleBlock_exec {i : Instr} {s t : State} {src dst stride w h : Word} (hr : RunsOn i s src dst stride w h)
    (he : exec i s = .next t) {y x : Nat} (hy : y < h.toNat / 8) (hx : x < w.toNat / 8) :
    sampleBlock i t.mem dst stride y x = commandBlock i s.platform (sampleBlock i s.mem src stride y x) := by
  obtain ⟨⟨hsrc, -⟩, -⟩ := id hr
  funext b c
  cases i with
  | dct8x8 =>
    obtain ⟨t', ht, hval, -⟩ := dct8x8WritesForwardTransform s src dst stride w h hr
    cases he.symm.trans ht
    exact congrArg Sum.inl (hval y x hy hx b c)
  | idct8x8 =>
    obtain ⟨t', ht, hval, -⟩ := idct8x8WritesInverseTransform s src dst stride w h hr
    cases he.symm.trans ht
    exact congrArg Sum.inl (hval y x hy hx b c)
  | qntf =>
    obtain rfl : src = dst := hsrc
    obtain ⟨t', ht, hval, -⟩ := qntfDividesEachSample s src stride w h hr
    cases he.symm.trans ht
    exact congrArg Sum.inl (hval y x hy hx b c)
  | qnts =>
    obtain rfl : src = dst := hsrc
    obtain ⟨t', ht, hval, -⟩ := qntsDividesAndRounds s src stride w h hr
    cases he.symm.trans ht
    exact congrArg Sum.inr (hval y x hy hx b c)
  | deqf =>
    obtain rfl : src = dst := hsrc
    obtain ⟨t', ht, hval, -⟩ := deqfMultipliesEachSample s src stride w h hr
    cases he.symm.trans ht
    exact congrArg Sum.inl (hval y x hy hx b c)
  | deqs =>
    obtain rfl : src = dst := hsrc
    obtain ⟨hl, hv, hc, -⟩ := checks_of_runsOn hr
    have hfit : deqsInRange s (launchWords .deqs src src stride w h) = true := by
      by_contra hno
      rw [exec_deqs_eq hl hv hc, if_neg hno] at he
      cases he
    obtain ⟨t', ht, hval, -⟩ := (deqsMultipliesOrRefuses s src stride w h hr).1 (deqsInRange_iff.mp hfit)
    cases he.symm.trans ht
    exact congrArg Sum.inr (hval y x hy hx b c)

/-- A block of samples depends on the bytes of its region's footprint alone. -/
theorem sampleBlock_congr {i : Instr} {m m' : Memory} {a stride w h : Word}
    (hm : ∀ z, InOperandFootprint i a stride w h z → m.read z = m'.read z) {y x : Nat} (hy : y < h.toNat / 8)
    (hx : x < w.toNat / 8) : sampleBlock i m a stride y x = sampleBlock i m' a stride y x := by
  funext b c
  have hb := b.isLt
  have hc := c.isLt
  exact sampleAt_congr fun k hk => hm _ ⟨8 * y + b.val, 8 * x + c.val, k, by omega, by omega, hk, rfl⟩

/-! ### Two engines -/

section TwoEngines
variable {s : State} {e : Engine}

theorem State.selectEngine_zero_engine (hs : s.others = [e]) : (s.selectEngine 0).engine = e := by
  simp [State.selectEngine, hs]

theorem State.selectEngine_zero_others (hs : s.others = [e]) : (s.selectEngine 0).others = [s.engine] := by
  simp [State.selectEngine, hs]

/-- The regions of a command in flight. -/
theorem Engine.running_eq {j : Instr} {a d st w h : Word} (hb : e.busy = true) (hd : decode e.command = .ok j)
    (ho : HoldsOperands j e a d st w h) : e.running = some (launchWords j a d st w h) := by
  simp only [Engine.running, hb, if_true, hd, launchOf_of_holds ho]

/-- One half of the exchange of two completions: the engine at hand, whether it completes before the other engine's
command or after it, leaves the same samples in its destination, because that command writes no byte that it reads or
writes (R45, R132). -/
theorem sampleBlock_either_order {t1 u1 t2 u2 : State} {i j : Instr} {a d st w h a' d' st' w' h' : Word}
    (hs : s.others = [e]) (hm : s.mem.wf) (hb : e.busy = true) (hj : decode e.command = .ok j)
    (ho : HoldsOperands i s.engine a d st w h) (ho' : HoldsOperands j e a' d' st' w' h')
    (h1 : exec i s = .next t1) (h2 : exec j (t1.selectEngine 0) = .next u1)
    (h3 : exec j (s.selectEngine 0) = .next t2) (h4 : exec i (t2.selectEngine 0) = .next u2)
    {y x : Nat} (hy : y < h.toNat / 8) (hx : x < w.toNat / 8) :
    sampleBlock i u1.mem d st y x = sampleBlock i u2.mem d st y x := by
  have hr := runsOn_of_exec_next h1 ho hm
  obtain ⟨-, -, hapart, -⟩ := id hr
  have hdisj := hapart e (hs ▸ List.mem_singleton_self e) _ (Engine.running_eq hb hj ho')
  obtain ⟨-, hothers, -⟩ := exec_frame h1
  obtain ⟨-, hothers2, hplatform2⟩ := exec_frame h3
  have hj1 : HoldsOperands j (t1.selectEngine 0).engine a' d' st' w' h' := by
    rwa [State.selectEngine_zero_engine (hothers.trans hs)]
  have hj2 : HoldsOperands j (s.selectEngine 0).engine a' d' st' w' h' := by
    rwa [State.selectEngine_zero_engine hs]
  have hi2 : HoldsOperands i (t2.selectEngine 0).engine a d st w h := by
    rwa [State.selectEngine_zero_engine (hothers2.trans (State.selectEngine_zero_others hs))]
  obtain ⟨hm1, -⟩ := exec_mem h1 ho hm
  obtain ⟨-, hframe1⟩ := exec_mem h2 hj1 (by rwa [State.selectEngine_mem])
  obtain ⟨hm2, hframe2⟩ := exec_mem h3 hj2 (by rwa [State.selectEngine_mem])
  rw [State.selectEngine_mem] at hframe1 hframe2
  have hr2 := runsOn_of_exec_next h4 hi2 (by rwa [State.selectEngine_mem])
  calc sampleBlock i u1.mem d st y x
      = sampleBlock i t1.mem d st y x :=
        sampleBlock_congr (fun z hz => hframe1 z fun hz' => (hdisj z).1 ⟨hz, .inr hz'⟩) hy hx
    _ = commandBlock i s.platform (sampleBlock i s.mem a st y x) := sampleBlock_exec hr h1 hy hx
    _ = commandBlock i s.platform (sampleBlock i t2.mem a st y x) := by
        rw [sampleBlock_congr (fun z hz => (hframe2 z fun hz' => (hdisj z).2 ⟨hz, hz'⟩).symm) hy hx]
    _ = sampleBlock i u2.mem d st y x := by
        rw [sampleBlock_exec hr2 h4 hy hx, State.selectEngine_mem, State.selectEngine_platform, hplatform2,
          State.selectEngine_platform]

/-- Two completions, one after the other, leave every byte outside both destinations as it was (R39, R132). -/
theorem read_after_both {t u : State} {i j : Instr} {a d st w h a' d' st' w' h' : Word} (hs : s.others = [e])
    (hm : s.mem.wf) (ho : HoldsOperands i s.engine a d st w h) (ho' : HoldsOperands j e a' d' st' w' h')
    (h1 : exec i s = .next t) (h2 : exec j (t.selectEngine 0) = .next u) {x : Nat}
    (hx : ¬ InOperandFootprint i d st w h x) (hx' : ¬ InOperandFootprint j d' st' w' h' x) :
    u.mem.read x = s.mem.read x := by
  obtain ⟨-, hothers, -⟩ := exec_frame h1
  have hj : HoldsOperands j (t.selectEngine 0).engine a' d' st' w' h' := by
    rwa [State.selectEngine_zero_engine (hothers.trans hs)]
  obtain ⟨hmt, hframe⟩ := exec_mem h1 ho hm
  obtain ⟨-, hframe'⟩ := exec_mem h2 hj (by rwa [State.selectEngine_mem])
  rw [hframe' x hx', State.selectEngine_mem, hframe x hx]

end TwoEngines

/-! ### The statements -/

/-- Settles O23: the check of the machine is the condition of R45. -/
theorem conflictingCommandIsRefused : Obligations.ConflictingCommandIsRefused := by
  intro i s src dst stride w h ho hm hapart
  obtain ⟨effect, he⟩ := exec_eq_runCommand i s
  have hconflict : othersConflict s (launchWords i src dst stride w h) = true := by
    rwa [← Bool.not_eq_false, othersConflict_eq_false_iff (sampleSize_pos i) (sampleSize_pos i)]
  rw [he]
  exact runCommand_conflict (launchOf_of_holds ho) (violation_eq_none_iff_meetsContract.mpr hm) hconflict

/-- Settles O24: the region has no byte, so no product of `DEQS` is formed and nothing is stored. -/
theorem emptyRegionCompletesUntouched : Obligations.EmptyRegionCompletesUntouched := by
  intro i s src dst stride w h hr hzero
  have hzero : w.toNat = 0 ∨ h.toNat = 0 := hzero.imp (congrArg BitVec.toNat) (congrArg BitVec.toNat)
  have hempty : ∀ x, ¬ InOperandFootprint i dst stride w h x := by
    rintro x ⟨r, c, k, hr, hc, -⟩
    omega
  obtain ⟨t, ht⟩ := exists_exec_next hr fun _ y x (hy : y < h.toNat / 8) (hx : x < w.toNat / 8) => by omega
  obtain ⟨ho, -⟩ := hr
  exact ⟨t, ht, exec_empty ht ho hempty⟩

/-- Settles O25: a block's source samples are not changed by the stores of the other blocks. -/
theorem blockOrderDoesNotMatter : Obligations.BlockOrderDoesNotMatter := by
  intro f i s l blocks hshape hl hv hm hp
  obtain ⟨-, hdst, -⟩ := launchOf_regions hl
  have hsz := hdst.trans (sampleSize_of_twoBuffer hshape)
  obtain ⟨-, hs, -⟩ := violation_eq_none_iff.mp hv
  have hcells : ∀ y x i j a, ∀ c ∈ storeF32 s a (f (readBlock s.mem l.src y x) i j), a ≤ c.1 ∧ c.1 < a + l.dst.size :=
    fun _ _ _ _ _ _ hc => by rw [hsz]; exact mem_storeF32 hc
  have huniq := blockCells_unique hs hcells fun _ _ _ _ _ => cells32_unique
  unfold exec2
  rw [blockCells_eq_flatMap_blocks] at huniq ⊢
  refine Memory.foldl_writeAll_of_perm (cells := fun m b => blockCells l.dst [b] fun y x i j a =>
    storeF32 s a (f (readBlock m l.src y x) i j)) hm hp l.dst.blocks_nodup (fun b hb earlier hsub hfresh => ?_) huniq
  rw [← blockCells_eq_flatMap_blocks, blockCells_singleton, blockCells_singleton,
    readBlock_writeAll hm hl hv hsz hsub hcells hb hfresh]

/-- Settles O26: what is stored for a sample depends on that sample alone. -/
theorem sampleOrderDoesNotMatter : Obligations.SampleOrderDoesNotMatter := by
  intro i s l places hl hv hm hp
  obtain ⟨-, hdst, -⟩ := launchOf_regions hl
  obtain ⟨-, hs, -⟩ := violation_eq_none_iff.mp hv
  constructor <;> intro hsz _ g <;> rw [hsz] at hdst
  · exact sampleBySample_eq (store := fun m i j a => storeS16 a (g (readS16 m a) (qtabAt s.platform i j).val)) hm hs
      (fun _ _ _ _ _ hc => hdst ▸ mem_storeS16 hc) (fun _ _ _ _ => cells16_unique)
      (fun _ _ _ _ hk => by rw [readS16_congr (hdst ▸ hk)]) hp
  · exact sampleBySample_eq (store := fun m i j a => storeF32 s a (g (readF32 m a) (qtabAt s.platform i j))) hm hs
      (fun _ _ _ _ _ hc => hdst ▸ mem_storeF32 hc) (fun _ _ _ _ => cells32_unique)
      (fun _ _ _ _ hk => by rw [readF32_congr (hdst ▸ hk)]) hp

/-- Settles O32: each engine's half is `sampleBlock_either_order`, the second seen from the other engine. -/
theorem parallelEnginesCommute : Obligations.ParallelEnginesCommute := by
  intro s t1 u1 t2 u2 e i j a d st w h a' d' st' w' h' hs hm hb hb' hi hj ho ho' h1 h2 h3 h4
  have hs' := State.selectEngine_zero_others hs
  have hm' : (s.selectEngine 0).mem.wf := by rwa [State.selectEngine_mem]
  have hoj : HoldsOperands j (s.selectEngine 0).engine a' d' st' w' h' := by rwa [State.selectEngine_zero_engine hs]
  have h1' : exec i ((s.selectEngine 0).selectEngine 0) = .next t1 := by rwa [State.selectEngine_selectEngine]
  refine ⟨fun y x hy hx b c => ?_, fun y x hy hx b c => ?_, fun x hx hx' => ⟨?_, ?_⟩⟩
  · exact congrFun₂ (sampleBlock_either_order hs hm hb' hj ho ho' h1 h2 h3 h4 hy hx) b c
  · exact congrFun₂ (sampleBlock_either_order hs' hm' hb hi hoj ho h3 h4 h1' h2 hy hx).symm b c
  · exact read_after_both hs hm ho ho' h1 h2 hx hx'
  · rw [read_after_both hs' hm' hoj ho h3 h4 hx' hx, State.selectEngine_mem]

end Sys2Proof.Machine
end

section
/-! The family of `30_encoding.md`: a command word is its two fields, so the decoder accepts the six words of the table
and rejects every other word, and a launch refuses what the decoder rejects. -/

namespace Sys2Proof.Machine

/-! ### The fields of a command word -/

/-- A word is its two fields (R50). -/
theorem word_eq_of_fields {v w : Word} (hz : zeroField v = zeroField w) (ho : opField v = opField w) : v = w := by
  have happend (u : Word) : zeroField u ++ opField u = u :=
    (BitVec.extractLsb'_append_extractLsb'_eq_extractLsb' rfl).trans BitVec.extractLsb'_eq_self
  rw [← happend v, hz, ho, happend w]

theorem zeroField_encode (i : Instr) : zeroField (encode i) = 0#29 := by
  cases i <;> rfl

/-- Every operation code is 0, 7 or that of a command (R51). -/
theorem opField_cases (o : BitVec 3) : o = 0#3 ∨ o = 7#3 ∨ ∃ i, o = opField (encode i) := by
  have hall : ∀ o : BitVec 3, o = 0#3 ∨ o = 7#3 ∨ o = 1#3 ∨ o = 2#3 ∨ o = 3#3 ∨ o = 4#3 ∨ o = 5#3 ∨ o = 6#3 := by
    decide
  rcases hall o with h | h | rfl | rfl | rfl | rfl | rfl | rfl
  · exact .inl h
  · exact .inr (.inl h)
  · exact .inr (.inr ⟨.dct8x8, rfl⟩)
  · exact .inr (.inr ⟨.idct8x8, rfl⟩)
  · exact .inr (.inr ⟨.qntf, rfl⟩)
  · exact .inr (.inr ⟨.qnts, rfl⟩)
  · exact .inr (.inr ⟨.deqf, rfl⟩)
  · exact .inr (.inr ⟨.deqs, rfl⟩)

/-! ### Well-formed and reserved words -/

/-- A word that is not well formed is a reserved one, in the words of R53. -/
theorem commandWordWellFormed_eq_false_iff {w : Word} :
    commandWordWellFormed w = false ↔ opField w = 0#3 ∨ opField w = 7#3 ∨ zeroField w ≠ 0#29 := by
  simp only [commandWordWellFormed, opField, zeroField, Bool.and_eq_false_iff, beq_eq_false_iff_ne,
    bne_eq_false_iff_eq]
  tauto

theorem commandWordWellFormed_encode (i : Instr) : commandWordWellFormed (encode i) = true := by
  cases i <;> decide

/-- The well-formed words are the six of R51. -/
theorem commandWordWellFormed_iff {w : Word} : commandWordWellFormed w = true ↔ ∃ i, w = encode i := by
  constructor
  · intro hw
    have hfields : ¬ (opField w = 0#3 ∨ opField w = 7#3 ∨ zeroField w ≠ 0#29) := by
      rw [← commandWordWellFormed_eq_false_iff, hw]
      simp
    push Not at hfields
    obtain ⟨h0, h7, hz⟩ := hfields
    obtain h | h | ⟨i, ho⟩ := opField_cases (opField w)
    · exact absurd h h0
    · exact absurd h h7
    · exact ⟨i, word_eq_of_fields (hz.trans (zeroField_encode i).symm) ho⟩
  · rintro ⟨i, rfl⟩
    exact commandWordWellFormed_encode i

/-- A reserved word matches no row of R51. -/
theorem commandWordWellFormed_eq_false_iff_ne_encode {w : Word} :
    commandWordWellFormed w = false ↔ ∀ i, w ≠ encode i := by
  rw [← Bool.not_eq_true, commandWordWellFormed_iff, not_exists]

/-! ### The decoder -/

/-- The decoder rejects a reserved word, whichever of the three reasons R53 gives. -/
theorem exists_decode_error {w : Word} (hw : commandWordWellFormed w = false) : ∃ r, decode w = .error r := by
  by_cases hz : zeroField w = 0#29
  · rcases commandWordWellFormed_eq_false_iff.mp hw with h0 | h7 | hne
    · exact ⟨.opZero, by simp [decode, hz, h0]⟩
    · exact ⟨.opSeven, by simp [decode, hz, h7]⟩
    · exact absurd hz hne
  · exact ⟨.zeroFieldSet, if_pos hz⟩

/-- The decoder gives a command for its own word alone (R51). -/
theorem decode_eq_ok_iff {w : Word} {i : Instr} : decode w = .ok i ↔ w = encode i := by
  constructor
  · intro h
    cases hw : commandWordWellFormed w with
    | false =>
      obtain ⟨r, hr⟩ := exists_decode_error hw
      cases h.symm.trans hr
    | true =>
      obtain ⟨j, rfl⟩ := commandWordWellFormed_iff.mp hw
      cases (decode_encode j).symm.trans h
      rfl
  · rintro rfl
    exact decode_encode i

/-- The decoder rejects exactly the words of no command (R53). -/
theorem exists_decode_error_iff {w : Word} : (∃ r, decode w = .error r) ↔ ∀ i, w ≠ encode i := by
  constructor
  · rintro ⟨r, hr⟩ i rfl
    cases (decode_encode i).symm.trans hr
  · intro h
    exact exists_decode_error (commandWordWellFormed_eq_false_iff_ne_encode.mpr h)

/-- The table-word entry at 32 bits is the decoder. -/
theorem decodeTableWord_toNat (w : Word) : decodeTableWord 32 w.toNat = (decode w).toOption := by
  have hlt : w.toNat < addressLimit := w.isLt
  have hmod : w.toNat % 2 ^ 32 = w.toNat := Nat.mod_eq_of_lt w.isLt
  simp only [decodeTableWord, hmod, if_pos hlt, BitVec.ofNat_toNat, BitVec.setWidth_eq]
  cases decode w <;> rfl

/-- A row's `mask` keeps the whole word, so the row is selected exactly by its `match` (R51). -/
theorem decode_eq_ok_iff_mask {w : Word} {i : Instr} : decode w = .ok i ↔ w &&& 0xFFFFFFFF#32 = encode i := by
  have hmask : w &&& 0xFFFFFFFF#32 = w := BitVec.and_allOnes
  rw [hmask, decode_eq_ok_iff]

/-- A launch with a reserved word is `PV7` (R23, R53). -/
theorem launch_reserved {w : Word} {r : Reserved} {s : State} (h : decode w = .error r) :
    launch w s = .refused .pv7ReservedCommand := by
  simp only [launch, h, violate]

/-! ### The statements -/

/-- Settles O3: the six rows of `decode_eq_ok_iff_mask`. -/
theorem decoderAcceptsExactlyTheTableWords : Obligations.DecoderAcceptsExactlyTheTableWords := by
  intro w
  have hrow (i : Instr) : decode w = .ok i ↔ w &&& 0xFFFFFFFF#32 = encode i := decode_eq_ok_iff_mask
  exact ⟨hrow .dct8x8, hrow .idct8x8, hrow .qntf, hrow .qnts, hrow .deqf, hrow .deqs⟩

/-- Settles O8: both the fields of R53 and the rows of R51 say when a word is well formed; the write of a reserved word
is a launch that the decoder stops. -/
theorem reservedCommandWordIsRefused : Obligations.ReservedCommandWordIsRefused := by
  intro w
  refine ⟨?_, exists_decode_error_iff, fun s rest hb he hw => ?_⟩
  · exact commandWordWellFormed_eq_false_iff.symm.trans commandWordWellFormed_eq_false_iff_ne_encode
  · obtain ⟨r, hr⟩ := exists_decode_error_iff.mpr hw
    calc step s = launch w (s.withEvents rest) := (step_eq_handle he).trans (regWrite_command_idle hb)
      _ = .refused .pv7ReservedCommand := launch_reserved hr

/-- Settles O1: the six words are those of `encode`. -/
theorem commandWordsDecodeAsTabled : Obligations.CommandWordsDecodeAsTabled :=
  ⟨decode_encode .dct8x8, decode_encode .idct8x8, decode_encode .qntf, decode_encode .qnts, decode_encode .deqf,
    decode_encode .deqs⟩

/-- Settles O2. -/
theorem encodedCommandDecodesToItself : Obligations.EncodedCommandDecodesToItself := by
  intro i _
  refine ⟨decode_encode i, ?_, commandWordWellFormed_encode i⟩
  rw [decodeTableWord_toNat, decode_encode, Except.toOption]

end Sys2Proof.Machine
end

section
/-! The family of `40_numerics.md`: correct rounding to binary32 (R71), and the conversion of table entries (R80). -/

namespace Sys2Proof.Machine

/-! ### Values and signs -/

/-- A finite value is its signed significand times its power of two (R70). -/
theorem f32ToRat_fin (neg : Bool) (e : Fin 255) (f : Fin 8388608) :
    f32ToRat (.fin neg e f) = (signedInt neg (significand e f) : Rat) * 2 ^ ulpExponent e := by
  cases neg <;> simp [f32ToRat, signedInt]

theorem f32IsFinite_iff {x : F32} : f32IsFinite x = true ↔ ∃ s e f, x = .fin s e f := by
  cases x <;> simp [f32IsFinite]

theorem abs_signedInt (neg : Bool) (m : Nat) : |signedInt neg m| = m := by
  cases neg <;> simp [signedInt]

theorem signedInt_mul (s t : Bool) (a b : Nat) : signedInt s a * signedInt t b = signedInt (s != t) (a * b) := by
  cases s <;> cases t <;> simp [signedInt]

theorem signedInt_eq_zero_iff {neg : Bool} {m : Nat} : signedInt neg m = 0 ↔ m = 0 := by
  cases neg <;> simp [signedInt]

/-- An integer is its sign and its magnitude. -/
theorem signedInt_natAbs (z : Int) : signedInt (decide (z < 0)) z.natAbs = z := by
  unfold signedInt
  split
  · next h => rw [Int.ofNat_natAbs_of_nonpos (of_decide_eq_true h).le, neg_neg]
  · next h => exact Int.natAbs_of_nonneg (not_lt.mp (of_decide_eq_false (Bool.eq_false_iff.mpr h)))

theorem significand_lt (e : Fin 255) (f : Fin 8388608) : significand e f < 16777216 := by
  unfold significand
  split <;> omega

/-- The value with the other sign. -/
def f32Neg : F32 → F32
  | .nan => .nan
  | .inf neg => .inf (!neg)
  | .fin neg e f => .fin (!neg) e f

@[simp] theorem f32Neg_f32Neg (x : F32) : f32Neg (f32Neg x) = x := by
  cases x <;> simp [f32Neg]

@[simp] theorem f32IsFinite_f32Neg (x : F32) : f32IsFinite (f32Neg x) = f32IsFinite x := by
  cases x <;> rfl

@[simp] theorem f32IsEven_f32Neg (x : F32) : f32IsEven (f32Neg x) = f32IsEven x := by
  cases x <;> rfl

@[simp] theorem f32ToRat_f32Neg (x : F32) : f32ToRat (f32Neg x) = -f32ToRat x := by
  cases x with
  | nan => simp [f32Neg, f32ToRat]
  | inf s => simp [f32Neg, f32ToRat]
  | fin s e f => cases s <;> simp [f32Neg, f32ToRat]

/-- Rounding to nearest, ties to even, is symmetric under a change of sign. -/
theorem IsRoundedValue.neg {x : Rat} {z : F32} (h : IsRoundedValue x z) : IsRoundedValue (-x) (f32Neg z) := by
  have hdist : ∀ y : F32, |f32ToRat (f32Neg y) - -x| = |f32ToRat y - x| := fun y => by
    rw [f32ToRat_f32Neg, neg_sub_neg, abs_sub_comm]
  rcases h with ⟨hz, hx, hnear⟩ | ⟨rfl, hx⟩ | ⟨rfl, hx⟩
  · refine .inl ⟨by simpa using hz, by simpa using hx, fun y hy => ?_⟩
    obtain ⟨hle, htie⟩ := hnear (f32Neg y) (by simpa using hy)
    rw [← hdist (f32Neg y), f32Neg_f32Neg] at hle htie
    rw [hdist, f32IsEven_f32Neg]
    refine ⟨hle, fun he => (htie he).imp_left fun h => ?_⟩
    rw [f32ToRat_f32Neg, ← h, f32ToRat_f32Neg, neg_neg]
  · exact .inr (.inr ⟨rfl, neg_le_neg hx⟩)
  · exact .inr (.inl ⟨rfl, le_neg_of_le_neg hx⟩)

/-! ### The grid of finite values -/

/-- A finite value is below `2^24` units of its last place (R70). -/
theorem abs_f32ToRat_lt (s : Bool) (e : Fin 255) (f : Fin 8388608) :
    |f32ToRat (.fin s e f)| < 16777216 * 2 ^ ulpExponent e := by
  have hU : (0 : Rat) < 2 ^ ulpExponent e := by positivity
  have hsig : (significand e f : Rat) < 16777216 := by exact_mod_cast significand_lt e f
  rw [f32ToRat_fin, abs_mul, abs_of_pos hU, ← Int.cast_abs, abs_signedInt]
  exact_mod_cast mul_lt_mul_of_pos_right hsig hU

/-- A power of two in two steps. -/
theorem two_pow_toNat_mul {a b : Int} (h : b ≤ a) : (2 : Rat) ^ (a - b).toNat * 2 ^ b = 2 ^ a := by
  rw [← zpow_natCast, ← zpow_add₀ two_ne_zero]
  congr 1
  omega

/-- Every finite value is a multiple of `2^u`, or too small to have that unit in its last place. -/
theorem f32ToRat_on_grid {y : F32} (hy : f32IsFinite y = true) (u : Int) :
    (∃ c : Int, f32ToRat y = c * 2 ^ u) ∨ (-149 < u ∧ |f32ToRat y| < 8388608 * 2 ^ u) := by
  obtain ⟨s, e, f, rfl⟩ := f32IsFinite_iff.mp hy
  rcases le_or_gt u (ulpExponent e) with hu | hu
  · refine .inl ⟨signedInt s (significand e f) * 2 ^ (ulpExponent e - u).toNat, ?_⟩
    rw [f32ToRat_fin, Int.cast_mul, Int.cast_pow, Int.cast_ofNat, mul_assoc, two_pow_toNat_mul hu]
  · refine .inr ⟨by unfold ulpExponent at hu; omega, (abs_f32ToRat_lt s e f).trans_le ?_⟩
    have hpow : (2 : Rat) ^ (ulpExponent e + 1) ≤ 2 ^ u := zpow_le_zpow_right₀ one_le_two hu
    rw [zpow_add_one₀ two_ne_zero] at hpow
    linarith

section Grid
variable {K : Type} [Field K] [LinearOrder K] [IsStrictOrderedRing K] {U v t : K} {n : Int}

/-- A multiple of `U` within half a unit of `v` is nearest to `v` among the multiples of `U` and the numbers below a
multiple of `U` that `v` has reached; another is as near only where the distance is half a unit. -/
theorem nearest_of_half_unit (hU : 0 < U) (hn : |n * U - v| ≤ U / 2)
    (ht : (∃ c : Int, t = c * U) ∨ ∃ b : Int, t < b * U ∧ b * U ≤ v) :
    |n * U - v| ≤ |t - v| ∧ (|n * U - v| = |t - v| → t = n * U ∨ |n * U - v| = U / 2) := by
  have hmul : ∀ c : Int, c ≠ n → U / 2 ≤ |c * U - v| := fun c hc => by
    have hone : (1 : K) ≤ |(c : K) - n| := by
      rw [← Int.cast_sub, ← Int.cast_abs]
      exact_mod_cast Int.one_le_abs (sub_ne_zero.mpr hc)
    have hUle : U ≤ |c * U - n * U| := by
      rw [← sub_mul, abs_mul, abs_of_pos hU]
      exact le_mul_of_one_le_left hU.le hone
    have htri := abs_sub_le (c * U) v (n * U)
    rw [abs_sub_comm v] at htri
    linarith
  have hgrid : ∀ c : Int, |n * U - v| ≤ |c * U - v| := fun c => by
    by_cases hc : c = n
    · rw [hc]
    · exact hn.trans (hmul c hc)
  rcases ht with ⟨c, rfl⟩ | ⟨b, htb, hbv⟩
  · refine ⟨hgrid c, fun he => ?_⟩
    by_cases hc : c = n
    · exact .inl (by rw [hc])
    · exact .inr (le_antisymm hn (he ▸ hmul c hc))
  · have hlt : |n * U - v| < |t - v| := by
      refine (hgrid b).trans_lt ?_
      rw [abs_of_nonpos (by linarith), abs_of_neg (by linarith)]
      linarith
    exact ⟨hlt.le, fun he => absurd he hlt.ne⟩

end Grid

/-! ### Correct rounding -/

/-- An exponent part `k` and a significand `n`, added up as one magnitude, have the value `n * 2^(k - 149)`: a
significand of `2^24` carries into the exponent (R70). -/
theorem f32ToRat_f32OfMagnitude {k n : Nat} (hn : n ≤ 16777216) (hk : 0 < k → 8388608 ≤ n)
    (hfin : k * 8388608 + n < 2139095040) :
    f32ToRat (f32OfMagnitude false (k * 8388608 + n)) = n * 2 ^ ((k : Int) - 149) := by
  rw [f32OfMagnitude, dif_pos hfin, f32ToRat_fin]
  simp only [signedInt, significand, ulpExponent, Bool.false_eq_true, if_false]
  rcases lt_or_ge n 8388608 with hlt | hge
  · obtain rfl : k = 0 := by omega
    rw [if_pos (by omega), show (0 * 8388608 + n) % 8388608 = n by omega,
      show max ((0 * 8388608 + n) / 8388608) 1 = 1 by omega]
    norm_num
  rcases hn.lt_or_eq with hlt | rfl
  · rw [if_neg (by omega), show 8388608 + (k * 8388608 + n) % 8388608 = n by omega,
      show ((max ((k * 8388608 + n) / 8388608) 1 : Nat) : Int) - 150 = k - 149 by omega, Int.cast_natCast]
  · rw [if_neg (by omega), show (k * 8388608 + 16777216) % 8388608 = 0 by omega,
      show ((max ((k * 8388608 + 16777216) / 8388608) 1 : Nat) : Int) - 150 = k - 149 + 1 by omega,
      zpow_add_one₀ two_ne_zero]
    push_cast
    ring

theorem f32IsEven_f32OfMagnitude {N : Nat} (hfin : N < 2139095040) :
    f32IsEven (f32OfMagnitude false N) = true ↔ N % 2 = 0 := by
  rw [f32OfMagnitude, dif_pos hfin]
  simp only [f32IsEven, beq_iff_eq]
  omega

theorem f32IsFinite_f32OfMagnitude_iff {s : Bool} {N : Nat} :
    f32IsFinite (f32OfMagnitude s N) = true ↔ N < 2139095040 := by
  unfold f32OfMagnitude
  split
  · next h => exact iff_of_true rfl h
  · next h => exact iff_of_false Bool.false_ne_true h

/-- `n` is `v` in units of `2^(k - 149)`, rounded to the nearest integer, ties to even, and that unit is the one in the
last place of values as large as `v` (R71). -/
structure RoundsTo (v : Rat) (k n : Nat) : Prop where
  nonneg : 0 ≤ v
  near : |(n : Rat) * 2 ^ ((k : Int) - 149) - v| ≤ 2 ^ ((k : Int) - 149) / 2
  even_of_tie : |(n : Rat) * 2 ^ ((k : Int) - 149) - v| = 2 ^ ((k : Int) - 149) / 2 → n % 2 = 0
  lt : v < 16777216 * 2 ^ ((k : Int) - 149)
  ge : 0 < k → 8388608 * 2 ^ ((k : Int) - 149) ≤ v

namespace RoundsTo
variable {v : Rat} {k n : Nat} (h : RoundsTo v k n)
include h

/-- A significand has at most 24 bits, or is `2^24`. -/
theorem significand_le : n ≤ 16777216 := by
  have hU : (0 : Rat) < 2 ^ ((k : Int) - 149) := by positivity
  have hlt : (n : Rat) * 2 ^ ((k : Int) - 149) < 16777217 * 2 ^ ((k : Int) - 149) := by
    linarith [(abs_le.mp h.near).2, h.lt]
  have : n < 16777217 := by exact_mod_cast lt_of_mul_lt_mul_right hlt hU.le
  omega

/-- The significand of a normal value has 24 bits. -/
theorem le_significand (hk : 0 < k) : 8388608 ≤ n := by
  have hU : (0 : Rat) < 2 ^ ((k : Int) - 149) := by positivity
  have hlt : (8388607 : Rat) * 2 ^ ((k : Int) - 149) < n * 2 ^ ((k : Int) - 149) := by
    linarith [(abs_le.mp h.near).1, h.ge hk]
  have : 8388607 < n := by exact_mod_cast lt_of_mul_lt_mul_right hlt hU.le
  omega

/-- The magnitude is that of a finite value exactly below the first number that rounds to infinity (R71). -/
theorem lt_overflow_iff : k * 8388608 + n < 2139095040 ↔ v < overflowBound := by
  have hle := h.significand_le
  have hge := h.le_significand
  rcases lt_trichotomy k 253 with hk | rfl | hk
  · refine iff_of_true (by omega) (h.lt.trans_le ?_)
    have hpow : (2 : Rat) ^ ((k : Int) - 149) ≤ 2 ^ (103 : Int) := zpow_le_zpow_right₀ one_le_two (by omega)
    norm_num [overflowBound] at hpow ⊢
    linarith
  · obtain ⟨hlo, hhi⟩ := abs_le.mp h.near
    norm_num [overflowBound] at hlo hhi ⊢
    constructor
    · intro hn
      have hn' : (n : Rat) ≤ 16777215 := by exact_mod_cast (by omega : n ≤ 16777215)
      refine lt_of_le_of_ne (by linarith) fun hv => ?_
      have hn'' : (n : Rat) = 16777215 := le_antisymm hn' (by linarith)
      have hodd : n = 16777215 := by exact_mod_cast hn''
      have := h.even_of_tie (by rw [hn'', hv]; norm_num [overflowBound, abs_of_nonpos])
      omega
    · intro hv
      have : (n : Rat) < 16777216 := by linarith
      have : n < 16777216 := by exact_mod_cast this
      omega
  · refine iff_of_false (by have := hge (by omega); omega) (not_lt.mpr (le_trans ?_ (h.ge (by omega))))
    have hpow : (2 : Rat) ^ (105 : Int) ≤ 2 ^ ((k : Int) - 149) := zpow_le_zpow_right₀ one_le_two (by omega)
    norm_num [overflowBound] at hpow ⊢
    linarith

theorem isRoundedValue : IsRoundedValue v (f32OfMagnitude false (k * 8388608 + n)) := by
  have hU : (0 : Rat) < 2 ^ ((k : Int) - 149) := by positivity
  rcases lt_or_ge (k * 8388608 + n) 2139095040 with hfin | hinf
  · have hval := f32ToRat_f32OfMagnitude h.significand_le h.le_significand hfin
    have hv := h.lt_overflow_iff.mp hfin
    refine .inl ⟨f32IsFinite_f32OfMagnitude_iff.mpr hfin, abs_lt.mpr ⟨?_, hv⟩, fun y hy => ?_⟩
    · exact (neg_lt_zero.mpr (by norm_num [overflowBound])).trans_le h.nonneg
    · obtain ⟨hle, htie⟩ := nearest_of_half_unit (n := n) hU (by exact_mod_cast h.near)
        ((f32ToRat_on_grid hy ((k : Int) - 149)).imp_right fun ⟨hk, hy⟩ =>
          ⟨8388608, by exact_mod_cast (le_abs_self _).trans_lt hy, by exact_mod_cast h.ge (by omega)⟩)
      rw [Int.cast_natCast] at hle htie
      rw [hval, f32IsEven_f32OfMagnitude hfin]
      refine ⟨hle, fun he => (htie he).imp_right fun ht => ?_⟩
      have := h.even_of_tie ht
      omega
  · refine .inr (.inl ⟨by rw [f32OfMagnitude, dif_neg (by omega)], ?_⟩)
    exact not_lt.mp (h.lt_overflow_iff.not.mp (by omega))

/-- A multiple of the unit is not changed by rounding. -/
theorem eq_of_multiple {c : Int} (hc : v = c * 2 ^ ((k : Int) - 149)) : (n : Rat) * 2 ^ ((k : Int) - 149) = v := by
  have hU : (0 : Rat) < 2 ^ ((k : Int) - 149) := by positivity
  have hnear := h.near
  rw [hc, ← sub_mul, abs_mul, abs_of_pos hU, ← mul_one_div, mul_comm (2 ^ _) (1 / 2 : Rat)] at hnear
  have hlt : |(n : Rat) - c| < 1 := (le_of_mul_le_mul_right hnear hU).trans_lt (by norm_num)
  have hnc : |(n : Int) - c| < 1 := by exact_mod_cast hlt
  rw [hc, ← sub_eq_zero.mp (Int.abs_lt_one_iff.mp hnc), Int.cast_natCast]

end RoundsTo

/-- The dropped bits decide the rounding: at most half a unit, and only an even result at half a unit (R71). -/
theorem shiftRoundEven_near (m d : Nat) :
    |(shiftRoundEven m d : Rat) * 2 ^ d - m| ≤ 2 ^ d / 2 ∧
      (|(shiftRoundEven m d : Rat) * 2 ^ d - m| = 2 ^ d / 2 → shiftRoundEven m d % 2 = 0) := by
  have hD : (2 : Rat) ^ d = (2 ^ d : Nat) := by push_cast; rfl
  have hr : m % 2 ^ d < 2 ^ d := Nat.mod_lt m (by positivity)
  have hm : (m : Rat) = (m / 2 ^ d : Nat) * (2 ^ d : Nat) + (m % 2 ^ d : Nat) := by
    exact_mod_cast (Nat.div_add_mod' m (2 ^ d)).symm
  unfold shiftRoundEven
  simp only [Bool.or_eq_true, Bool.and_eq_true, decide_eq_true_eq, beq_iff_eq]
  rw [hD, hm]
  generalize m / 2 ^ d = q
  generalize m % 2 ^ d = r at hr ⊢
  generalize 2 ^ d = D at hr ⊢
  have hrD : (r : Rat) < D := by exact_mod_cast hr
  split
  · next hup =>
    have hup' : (D : Rat) ≤ 2 * r := by exact_mod_cast (by omega : D ≤ 2 * r)
    rw [show ((q + 1 : Nat) : Rat) * D - (q * D + r) = D - r by push_cast; ring, abs_of_pos (by linarith)]
    refine ⟨by linarith, fun htie => ?_⟩
    have htie' : (D : Rat) = 2 * r := by linarith
    have : D = 2 * r := by exact_mod_cast htie'
    omega
  · next hdown =>
    have hdown' : 2 * (r : Rat) ≤ D := by exact_mod_cast (by omega : 2 * r ≤ D)
    rw [show (q : Rat) * D - (q * D + r) = -r by ring, abs_neg, Nat.abs_cast]
    refine ⟨by linarith, fun htie => ?_⟩
    have htie' : (D : Rat) = 2 * r := by linarith
    have : D = 2 * r := by exact_mod_cast htie'
    omega

/-- The significand that `roundToF32` forms from `m * 2^x` in units of `2^u`. -/
def roundedSignificand (m : Nat) (x u : Int) : Nat :=
  if u ≤ x then m * 2 ^ (x - u).toNat else shiftRoundEven m (u - x).toNat

theorem roundedSignificand_near (m : Nat) (x u : Int) :
    |(roundedSignificand m x u : Rat) * 2 ^ u - m * 2 ^ x| ≤ 2 ^ u / 2 ∧
      (|(roundedSignificand m x u : Rat) * 2 ^ u - m * 2 ^ x| = 2 ^ u / 2 → roundedSignificand m x u % 2 = 0) := by
  unfold roundedSignificand
  split
  · next hle =>
    have hU : (0 : Rat) < 2 ^ u := by positivity
    push_cast
    rw [mul_assoc, two_pow_toNat_mul hle, sub_self, abs_zero]
    exact ⟨by positivity, fun h => absurd h (by positivity)⟩
  · next hlt =>
    have hX : (0 : Rat) < 2 ^ x := by positivity
    obtain ⟨hnear, htie⟩ := shiftRoundEven_near m (u - x).toNat
    rw [← two_pow_toNat_mul (a := u) (b := x) (by omega), ← mul_assoc, ← sub_mul, abs_mul, abs_of_pos hX,
      mul_div_right_comm]
    exact ⟨mul_le_mul_of_nonneg_right hnear hX.le, fun h => htie (mul_right_cancel₀ hX.ne' h)⟩

/-- `roundToF32` picks the unit in the last place and rounds to it (R71). -/
theorem roundToF32_roundsTo {m : Nat} (hm : m ≠ 0) (x : Int) :
    ∃ k n, RoundsTo (m * 2 ^ x) k n ∧ ∀ neg, roundToF32 neg m x = f32OfMagnitude neg (k * 8388608 + n) := by
  have hlo : (2 : Rat) ^ (Nat.log2 m : Int) ≤ m := by
    rw [zpow_natCast]; exact_mod_cast Nat.log2_self_le hm
  have hhi : (m : Rat) < 2 ^ ((Nat.log2 m : Int) + 1) := by
    exact_mod_cast Nat.lt_log2_self
  simp only [roundToF32, if_neg hm]
  generalize (Nat.log2 m : Int) = l at hlo hhi ⊢
  obtain ⟨u, hu⟩ : ∃ u, u = max (l + x - 23) (-149) := ⟨_, rfl⟩
  have hk : (((u + 149).toNat : Nat) : Int) - 149 = u := by omega
  obtain ⟨hnear, htie⟩ := roundedSignificand_near m x u
  have hX : (0 : Rat) < 2 ^ x := by positivity
  rw [← hu]
  refine ⟨(u + 149).toNat, roundedSignificand m x u, ⟨by positivity, ?_, ?_, ?_, fun hpos => ?_⟩,
    fun _ => rfl⟩ <;> rw [hk]
  · exact hnear
  · exact htie
  · calc (m : Rat) * 2 ^ x < 2 ^ (l + 1) * 2 ^ x := mul_lt_mul_of_pos_right hhi hX
      _ = 2 ^ (l + 1 + x) := (zpow_add₀ two_ne_zero _ _).symm
      _ ≤ 2 ^ (24 + u) := zpow_le_zpow_right₀ one_le_two (by omega)
      _ = 16777216 * 2 ^ u := by rw [zpow_add₀ two_ne_zero]; norm_num
  · calc (8388608 : Rat) * 2 ^ u = 2 ^ (23 + u) := by rw [zpow_add₀ two_ne_zero]; norm_num
      _ = 2 ^ (l + x) := by congr 1; omega
      _ = 2 ^ l * 2 ^ x := zpow_add₀ two_ne_zero _ _
      _ ≤ m * 2 ^ x := mul_le_mul_of_nonneg_right hlo hX.le

theorem f32OfMagnitude_not (neg : Bool) (N : Nat) : f32OfMagnitude (!neg) N = f32Neg (f32OfMagnitude neg N) := by
  unfold f32OfMagnitude
  split <;> rfl

/-- `roundToF32` rounds correctly (R71). -/
theorem isRoundedValue_roundToF32 (neg : Bool) (m : Nat) (x : Int) :
    IsRoundedValue (signedInt neg m * 2 ^ x) (roundToF32 neg m x) := by
  by_cases hm : m = 0
  · subst hm
    have hz : f32ToRat (.fin neg 0 0) = 0 := by simp [f32ToRat_fin, significand, signedInt]
    rw [roundToF32, if_pos rfl, signedInt_eq_zero_iff.mpr rfl]
    refine .inl ⟨rfl, by norm_num [overflowBound], fun y _ => ?_⟩
    simp only [hz, Int.cast_zero, zero_mul, sub_zero, abs_zero]
    exact ⟨abs_nonneg _, fun h => .inl (abs_eq_zero.mp h.symm)⟩
  · obtain ⟨k, n, hround, heq⟩ := roundToF32_roundsTo hm x
    rw [heq]
    cases neg with
    | false => exact hround.isRoundedValue
    | true =>
      have := hround.isRoundedValue.neg
      rw [← f32OfMagnitude_not] at this
      simpa [signedInt] using this


/-- Overflow is the only way in which a rounded value is not finite (R71). -/
theorem IsRoundedValue.finite {x : Rat} {z : F32} (h : IsRoundedValue x z) (hx : |x| < overflowBound) :
    f32IsFinite z = true := by
  obtain ⟨hlo, hhi⟩ := abs_lt.mp hx
  rcases h with ⟨hz, -⟩ | ⟨-, hge⟩ | ⟨-, hle⟩
  · exact hz
  · exact absurd hge (not_le.mpr hhi)
  · exact absurd hle (not_le.mpr hlo)

theorem f32IsNeg_roundToF32 (neg : Bool) (m : Nat) (x : Int) : f32IsNeg (roundToF32 neg m x) = neg := by
  by_cases hm : m = 0
  · rw [roundToF32, if_pos hm]
    rfl
  · obtain ⟨k, n, -, heq⟩ := roundToF32_roundsTo hm x
    rw [heq, f32OfMagnitude]
    split <;> rfl

/-- Aligning a significand to a smaller exponent keeps its value. -/
theorem signedInt_align (s : Bool) (m : Nat) {x e : Int} (hx : x ≤ e) :
    (signedInt s (m * 2 ^ (e - x).toNat) : Rat) * 2 ^ x = signedInt s m * 2 ^ e := by
  cases s <;> simp [signedInt, mul_assoc, two_pow_toNat_mul hx]

/-- Settles O40: the aligned significands are added exactly, and `roundToF32` rounds the sum. -/
theorem additionIsCorrectlyRounded : Obligations.AdditionIsCorrectlyRounded := by
  intro x y hx hy
  obtain ⟨s, e, f, rfl⟩ := f32IsFinite_iff.mp hx
  obtain ⟨t, e', f', rfl⟩ := f32IsFinite_iff.mp hy
  rw [f32ToRat_fin, f32ToRat_fin, ← signedInt_align s _ (min_le_left (ulpExponent e) (ulpExponent e')),
    ← signedInt_align t _ (min_le_right (ulpExponent e) (ulpExponent e')), ← add_mul, ← Int.cast_add, fadd]
  generalize min (ulpExponent e) (ulpExponent e') = p
  generalize signedInt s _ + signedInt t _ = sum
  split
  · next hsum =>
    have := isRoundedValue_roundToF32 (s && t) 0 p
    simpa [hsum, signedInt, roundToF32] using this
  · simpa only [signedInt_natAbs] using isRoundedValue_roundToF32 (decide (sum < 0)) sum.natAbs p

/-- Settles O41: the product of the significands is exact, and `roundToF32` rounds it. -/
theorem multiplicationIsCorrectlyRounded : Obligations.MultiplicationIsCorrectlyRounded := by
  intro x y hx hy
  obtain ⟨s, e, f, rfl⟩ := f32IsFinite_iff.mp hx
  obtain ⟨t, e', f', rfl⟩ := f32IsFinite_iff.mp hy
  refine ⟨?_, f32IsNeg_roundToF32 _ _ _⟩
  rw [f32ToRat_fin, f32ToRat_fin, mul_mul_mul_comm, ← Int.cast_mul, signedInt_mul, ← zpow_add₀ two_ne_zero]
  exact isRoundedValue_roundToF32 _ _ _

/-! ### Table entries -/

/-- The conversion of a table entry is exact (R80). -/
theorem f32OfInt_exact (q : Divisor) :
    f32IsFinite (f32OfInt q) = true ∧ f32ToRat (f32OfInt q) = (q.val : Rat) := by
  have hq : q.val ≠ 0 := Nat.one_le_iff_ne_zero.mp q.pos
  have hle : (q.val : Rat) ≤ 32767 := by exact_mod_cast q.le
  obtain ⟨k, n, hround, heq⟩ := roundToF32_roundsTo hq 0
  rw [zpow_zero, mul_one] at hround
  have hfin : k * 8388608 + n < 2139095040 :=
    hround.lt_overflow_iff.mpr (hle.trans_lt (by norm_num [overflowBound]))
  have hk : k < 149 := by
    by_contra hk
    have hge := hround.ge (by omega)
    have hone : (1 : Rat) ≤ 2 ^ ((k : Int) - 149) := one_le_zpow₀ one_le_two (by omega)
    linarith
  have hmul : (q.val : Rat) = ((q.val * 2 ^ (149 - k) : Nat) : Int) * 2 ^ ((k : Int) - 149) := by
    push_cast
    rw [mul_assoc, ← zpow_natCast, ← zpow_add₀ two_ne_zero, Nat.cast_sub hk.le]
    simp
  rw [f32OfInt, heq]
  exact ⟨f32IsFinite_f32OfMagnitude_iff.mpr hfin,
    (f32ToRat_f32OfMagnitude hround.significand_le hround.le_significand hfin).trans (hround.eq_of_multiple hmul)⟩

/-- Settles O45. -/
theorem tableEntriesConvertExactly : Obligations.TableEntriesConvertExactly := by
  intro q
  obtain ⟨hfin, hval⟩ := f32OfInt_exact q
  exact ⟨hfin, hval, fun _ => ⟨rfl, rfl⟩⟩

end Sys2Proof.Machine
end

section
/-! Integer rounding (R84, R111), and NaN and zero in the reference numerics (R72 to R80, R85). -/

namespace Sys2Proof.Machine

/-! ### Integer rounding -/

/-- `QRND` divides the magnitude and keeps the sign (R84). -/
theorem qrnd_eq (x : Int) (q : Nat) : qrnd x q = signedInt (decide (x < 0)) ((x.natAbs + q / 2) / q) := by
  simp only [qrnd, signedInt, decide_eq_true_eq]

theorem abs_qrnd (x : Int) (q : Nat) : |qrnd x q| = ((x.natAbs + q / 2) / q : Nat) := by
  rw [qrnd_eq, abs_signedInt]

/-- The error of `QRND` is that of the rounded division of the magnitude (R84). -/
theorem abs_sub_mul_qrnd (x : Int) (q : Nat) :
    |x - q * qrnd x q| = |(x.natAbs : Int) - q * ((x.natAbs + q / 2) / q : Nat)| := by
  have hx := signedInt_natAbs x
  rw [qrnd_eq]
  generalize decide (x < 0) = s at hx ⊢
  generalize x.natAbs = a at hx ⊢
  subst hx
  cases s with
  | false => rfl
  | true =>
    rw [← abs_neg]
    congr 1
    simp only [signedInt, if_true]
    ring

/-- `QRND` is odd (R84). -/
theorem qrnd_neg (x : Int) {q : Nat} (hq : 1 ≤ q) : qrnd (-x) q = -qrnd x q := by
  have hzero : q / 2 / q = 0 := Nat.div_eq_of_lt (by omega)
  simp only [qrnd, Int.natAbs_neg]
  rcases lt_trichotomy x 0 with hx | rfl | hx
  · rw [if_neg (by omega), if_pos hx, neg_neg]
  · simp [hzero]
  · rw [if_pos (by omega), if_neg (by omega)]

section RoundedQuotient
variable {a q m : Nat}

/-- What makes `m` the quotient `a / q` rounded to nearest, ties up (R84). -/
theorem roundedQuotient_iff (hq : 1 ≤ q) : (a + q / 2) / q = m ↔ q * m ≤ a + q / 2 ∧ a + q / 2 < q * m + q := by
  rw [Nat.div_eq_iff hq, mul_comm m q]
  omega

theorem roundedQuotient_error (hq : 1 ≤ q) (h : (a + q / 2) / q = m) : 2 * |(a : Int) - q * m| ≤ q := by
  obtain ⟨hlo, hhi⟩ := (roundedQuotient_iff hq).mp h
  zify at hlo hhi
  rw [Int.abs_eq_natAbs]
  generalize (q : Int) * m = p at hlo hhi ⊢
  omega

/-- The error is half a unit exactly at a tie (R84). -/
theorem roundedQuotient_tie_iff (hq : 1 ≤ q) (h : (a + q / 2) / q = m) :
    2 * |(a : Int) - q * m| = q ↔ q % 2 = 0 ∧ a % q = q / 2 := by
  obtain ⟨hlo, hhi⟩ := (roundedQuotient_iff hq).mp h
  constructor
  · intro he
    have hm : a + q / 2 = q * m ∧ q % 2 = 0 := by
      rw [Int.abs_eq_natAbs] at he
      zify at hlo hhi ⊢
      generalize (q : Int) * m = p at hlo hhi he ⊢
      omega
    obtain ⟨ha, heven⟩ := hm
    refine ⟨heven, ?_⟩
    obtain ⟨n, rfl⟩ : ∃ n, m = n + 1 := ⟨m - 1, by cases m <;> omega⟩
    rw [show a = q / 2 + q * n by rw [Nat.mul_succ] at ha; omega, Nat.add_mul_mod_self_left]
    exact Nat.mod_eq_of_lt (by omega)
  · rintro ⟨heven, ha⟩
    have hdiv := Nat.div_add_mod a q
    have hm : m = a / q + 1 := by
      rw [← h, roundedQuotient_iff hq, Nat.mul_succ]
      omega
    have hqm : q * m = a + q / 2 := by
      rw [hm, Nat.mul_succ]
      omega
    rw [Int.abs_eq_natAbs, ← Nat.cast_mul, hqm]
    omega

end RoundedQuotient

/-- Settles O46. -/
theorem integerRoundingProperties : Obligations.IntegerRoundingProperties := by
  intro x q hlo hhi hq _
  refine ⟨rfl, fun _ => qrnd_neg x hq, ?_, ?_, ?_, ?_, ?_, ?_, ?_⟩
  · rw [abs_qrnd, Int.abs_eq_natAbs]
    exact_mod_cast roundedQuotient_le x.natAbs hq
  · exact fitsHalf_iff.mp (fitsHalf_qrnd (fitsHalf_iff.mpr ⟨hlo, hhi⟩) hq)
  · rw [abs_sub_mul_qrnd]
    exact roundedQuotient_error hq rfl
  · rw [abs_sub_mul_qrnd]
    exact roundedQuotient_tie_iff hq rfl
  · simp [qrnd_eq, signedInt_natAbs]
  · rw [qrnd_eq, signedInt_eq_zero_iff, roundedQuotient_iff hq, Int.abs_eq_natAbs]
    omega
  · rw [Int.abs_eq_natAbs]
    split <;> omega

/-- Settles O29: `QNTS` leaves the rounded quotient, `DEQS` multiplies it by the same entry, and R84 bounds the
error. -/
theorem integerRoundTripErrorIsBounded : Obligations.IntegerRoundTripErrorIsBounded := by
  intro s t u dst stride w h hr ht hu y x hy hx i j
  obtain ⟨ho, -, -, hm⟩ := id hr
  obtain ⟨-, -, -, -, -, hengine, -, hplatform, -⟩ := exec_next_of_holds ht ho
  have ho' : HoldsOperands .deqs t.engine dst dst stride w h := by
    rw [hengine]; exact ho
  have hquant := congrFun₂ (sampleBlock_exec hr ht hy hx) i j
  have hdequant := congrFun₂ (sampleBlock_exec (runsOn_of_exec_next hu ho' (exec_mem ht ho hm).1) hu hy hx) i j
  rw [hplatform] at hdequant
  set a := sampleAddr .qnts dst stride (8 * y + i.val) (8 * x + j.val)
  set q := (qtabAt s.platform i j).val
  have hmid : readS16 t.mem a = qrnd (readS16 s.mem a) q := Sum.inr.inj hquant
  have hend : readS16 u.mem a = readS16 t.mem a * q := Sum.inr.inj hdequant
  rw [hend, hmid, mul_comm _ (q : Int), abs_sub_mul_qrnd]
  exact roundedQuotient_error (qtabAt s.platform i j).pos rfl

/-! ### NaN and zero -/

theorem fadd_nan_right (x : F32) : fadd x .nan = .nan := by cases x <;> rfl

theorem fmul_nan_right (x : F32) : fmul x .nan = .nan := by cases x <;> rfl

/-- A sum of products is a NaN as soon as one factor is (R72). -/
theorem foldl_fadd_nan {ι : Type} (g : ι → F32) (l : List ι) {acc : F32}
    (h : acc = .nan ∨ ∃ n ∈ l, g n = .nan) :
    l.foldl (fun acc n => fadd acc (g n)) acc = .nan := by
  induction l generalizing acc with
  | nil => simpa using h
  | cons n l ih =>
    refine ih ?_
    rcases h with rfl | ⟨k, hk, hnan⟩
    · exact .inl rfl
    · rcases List.mem_cons.mp hk with rfl | hk
      · exact .inl (by simp only [hnan, fadd_nan_right])
      · exact .inr ⟨k, hk, hnan⟩

theorem dot8_nan (c : Fin 8 → F32) {x : Fin 8 → F32} {n : Fin 8} (h : x n = .nan) : dot8 c x = .nan := by
  refine foldl_fadd_nan (fun n => fmul (c n) (x n)) _ ?_
  have hprod : fmul (c n) (x n) = .nan := by rw [h, fmul_nan_right]
  by_cases hn : n = 0
  · exact .inl (hn ▸ hprod)
  · have hmem : ∀ k : Fin 8, k ≠ 0 → k ∈ [1, 2, 3, 4, 5, 6, 7] := by decide
    exact .inr ⟨n, hmem n hn, hprod⟩

/-- A one-dimensional transform that makes every output a NaN once an input is one spreads a NaN over the block. -/
theorem columnPass_rowPass_nan {t : (Fin 8 → F32) → Fin 8 → F32} (ht : ∀ x n k, x n = .nan → t x k = .nan)
    {b : Block F32} {i j : Fin 8} (h : b i j = .nan) (u v : Fin 8) : columnPass t (rowPass t b) u v = .nan :=
  ht _ i u (ht _ j v h)

/-- Settles O49. -/
theorem naNSpoilsItsBlock : Obligations.NaNSpoilsItsBlock :=
  fun _ _ _ h u v => ⟨columnPass_rowPass_nan (fun _ _ _ => dot8_nan _) h u v,
    columnPass_rowPass_nan (fun _ _ _ => dot8_nan _) h u v⟩

/-- Settles O47, by running the four transforms. -/
theorem zeroBlocksTransform : Obligations.ZeroBlocksTransform := by
  unfold Obligations.ZeroBlocksTransform
  decide +kernel

/-- A table entry converts to a positive number (R80). -/
theorem f32OfInt_pos (q : Divisor) : ∃ e f, f32OfInt q = .fin false e f ∧ significand e f ≠ 0 := by
  obtain ⟨hfin, hval⟩ := f32OfInt_exact q
  obtain ⟨s, e, f, heq⟩ := f32IsFinite_iff.mp hfin
  have hs : f32IsNeg (f32OfInt q) = false := f32IsNeg_roundToF32 _ _ _
  rw [heq] at hval hs
  obtain rfl : s = false := hs
  refine ⟨e, f, heq, fun hzero => ?_⟩
  rw [f32ToRat_fin, hzero, signedInt_eq_zero_iff.mpr rfl, Int.cast_zero, zero_mul] at hval
  exact Nat.one_le_iff_ne_zero.mp q.pos (by exact_mod_cast hval.symm)

/-- Settles O50. -/
theorem referenceHasZeroProperty : Obligations.ReferenceHasZeroProperty := by
  obtain ⟨hdct, hidct, -⟩ := zeroBlocksTransform
  refine ⟨hdct, hidct, fun q => ?_⟩
  obtain ⟨e, f, heq, hsig⟩ := f32OfInt_pos q
  have hzero : significand 0 0 = 0 := rfl
  simp [numRef, refQdiv, refQmul, heq, f32Zero, fdiv, fmul, hsig, hzero, roundToF32]

/-- Settles O59: the sums and passes written out. -/
theorem referenceTransformsFollowTheirSums : Obligations.ReferenceTransformsFollowTheirSums :=
  ⟨fun _ _ => rfl, fun _ _ => rfl, fun _ _ _ => rfl, fun _ _ _ => rfl⟩

end Sys2Proof.Machine
end

section
/-! The stored basis constants (R75) against the cosines of the real basis (R65), and their products (R85). -/

namespace Sys2Proof.Machine

/-! ### Cosines of multiples of `π / 16` -/

/-- The cosine that a basis entry is a multiple of (R65). -/
noncomputable def angleCos (m : Int) : ℝ := Real.cos (m * Real.pi / 16)

/-- A basis entry is one cosine and one scale per frequency (R65). -/
theorem basisReal_eq_scale (i j : Fin 8) :
    basisReal i j = Real.sqrt (if i = 0 then 1 / 8 else 1 / 4) * angleCos ((2 * j.val + 1) * i.val) := by
  by_cases hi : i = 0
  · simp [basisReal, angleCos, hi]
  · simp only [basisReal, angleCos, if_neg hi]
    norm_num

/-- The angle, in units of `π / 16`, whose cosine is twice a basis entry: `√(1/8)` is half the cosine of
`π / 4` (R65). -/
def basisAngle (i j : Fin 8) : Int := if i = 0 then 4 else (2 * j.val + 1) * i.val

theorem basisReal_eq_half (i j : Fin 8) : basisReal i j = angleCos (basisAngle i j) / 2 := by
  rw [basisReal_eq_scale, basisAngle]
  by_cases hi : i = 0
  · have hangle : ((4 : Int) : ℝ) * Real.pi / 16 = Real.pi / 4 := by push_cast; ring
    have hsqrt : Real.sqrt (1 / 8) = Real.sqrt 2 / 4 := by
      rw [show (1 / 8 : ℝ) = 2 / 4 ^ 2 by norm_num, Real.sqrt_div' _ (by positivity), Real.sqrt_sq (by positivity)]
    rw [if_pos hi, if_pos hi, hsqrt, angleCos, angleCos, hangle, Real.cos_pi_div_four, hi]
    norm_num
    ring
  · have hsqrt : Real.sqrt (1 / 4) = 1 / 2 := by
      rw [show (1 / 4 : ℝ) = (1 / 2) ^ 2 by norm_num, Real.sqrt_sq (by positivity)]
    rw [if_neg hi, if_neg hi, hsqrt]
    ring

@[simp] theorem angleCos_zero : angleCos 0 = 1 := by simp [angleCos]

/-- An angle and its mirror image about a multiple of `π` have the same cosine up to the sign. -/
theorem angleCos_fold {a m : Int} {k : Nat} (h : a = 16 * k + m ∨ a = 16 * k - m) :
    angleCos a = (-1) ^ k * angleCos m := by
  unfold angleCos
  rcases h with rfl | rfl
  · rw [← Real.cos_add_nat_mul_pi]
    push_cast
    ring_nf
  · rw [← Real.cos_nat_mul_pi_sub]
    push_cast
    ring_nf

theorem angleCos_mul (a b : Int) : angleCos a * angleCos b = (angleCos (a - b) + angleCos (a + b)) / 2 := by
  simp only [angleCos]
  push_cast
  rw [sub_mul, add_mul, sub_div _ _ (16 : ℝ), add_div _ _ (16 : ℝ), ← Real.two_mul_cos_mul_cos]
  ring

/-- Bounds on a cosine follow from bounds on that of the doubled angle. -/
theorem angleCos_bounds {m : Int} (hm : |m| ≤ 8) {lo hi l u : ℝ}
    (h : lo ≤ angleCos (2 * m) ∧ angleCos (2 * m) ≤ hi) (hu0 : 0 ≤ u) (hl : l ^ 2 ≤ (1 + lo) / 2)
    (hu : (1 + hi) / 2 ≤ u ^ 2) : l ≤ angleCos m ∧ angleCos m ≤ u := by
  have hsq : angleCos m ^ 2 = (1 + angleCos (2 * m)) / 2 := by
    rw [sq, angleCos_mul, sub_self, angleCos_zero, two_mul]
  have hnonneg : 0 ≤ angleCos m := by
    obtain ⟨hlo, hhi⟩ := abs_le.mp hm
    have hlo' : (-8 : ℝ) ≤ m := by exact_mod_cast hlo
    have hhi' : (m : ℝ) ≤ 8 := by exact_mod_cast hhi
    have hpi := Real.pi_pos
    exact Real.cos_nonneg_of_mem_Icc ⟨by nlinarith, by nlinarith⟩
  exact ⟨le_of_sq_le_sq (by linarith) hnonneg, le_of_sq_le_sq (by linarith) hu0⟩

/-- The same for an obtuse doubled angle, from bounds on the cosine of its supplement. -/
theorem angleCos_bounds_obtuse {m n : Int} (hn : n + 2 * m = 16) (hm : |m| ≤ 8) {lo hi l u : ℝ}
    (h : lo ≤ angleCos n ∧ angleCos n ≤ hi) (hu0 : 0 ≤ u) (hl : l ^ 2 ≤ (1 - hi) / 2)
    (hu : (1 - lo) / 2 ≤ u ^ 2) : l ≤ angleCos m ∧ angleCos m ≤ u := by
  have hfold : angleCos (2 * m) = -angleCos n := by
    rw [angleCos_fold (m := n) (k := 1) (.inr (by omega))]
    ring
  exact angleCos_bounds hm (hfold ▸ ⟨neg_le_neg h.2, neg_le_neg h.1⟩) hu0 hl hu

theorem angleCos_eight : angleCos 8 = 0 := by
  rw [angleCos, show ((8 : Int) : ℝ) * Real.pi / 16 = Real.pi / 2 by push_cast; ring, Real.cos_pi_div_two]

/-! ### The stored constants -/

/-- Exponent and fraction of the stored constant of the angle `(m + 1) * π / 16` (R75). -/
def storedFields (m : Fin 7) : Fin 255 × Fin 8388608 :=
  [(125, 0x7B14BE), (125, 0x6C835E), (125, 0x54DB31), (125, 0x3504F3), (125, 0x0E39DA), (124, 0x43EF15),
    (123, 0x47C5C2)].get m

/-- The 64 entries are seven constants and their negatives (R75), by the angles of R65. -/
theorem basisF32_eq_stored (i j : Fin 8) : ∃ (m : Fin 7) (k : Fin 8),
    (basisAngle i j = 16 * k.val + (m.val + 1) ∨ basisAngle i j = 16 * k.val - (m.val + 1)) ∧
      basisF32 i j = .fin (k.val % 2 == 1) (storedFields m).1 (storedFields m).2 := by
  revert i j
  decide +kernel

/-- Bounds on a cosine that lie within half a unit of twice a significand. -/
theorem near_of_bounds {n : Int} {g : Nat} {U l u : ℝ} (h : l ≤ angleCos n ∧ angleCos n ≤ u)
    (hl : (2 * g - 1) * U ≤ l) (hu : u ≤ (2 * g + 1) * U) : |g * U - angleCos n / 2| ≤ U / 2 := by
  obtain ⟨hlo, hhi⟩ := h
  rw [abs_le]
  constructor <;> linarith

/-- Each stored constant is within half a unit in the last place of half its cosine (R75): the cosines are bounded by
halving the angle `π / 2` repeatedly. -/
theorem stored_near (m : Fin 7) :
    |(significand (storedFields m).1 (storedFields m).2 : ℝ) * 2 ^ ulpExponent (storedFields m).1 -
      angleCos (m.val + 1) / 2| ≤ 2 ^ ulpExponent (storedFields m).1 / 2 := by
  have h4 := angleCos_bounds (m := 4) (lo := 0) (hi := 0) (l := 0.707106781186) (u := 0.707106781187) (by decide)
    ⟨angleCos_eight.ge, angleCos_eight.le⟩ (by norm_num) (by norm_num) (by norm_num)
  have h2 := angleCos_bounds (m := 2) (l := 0.923879532511) (u := 0.923879532512) (by decide) h4
    (by norm_num) (by norm_num) (by norm_num)
  have h6 := angleCos_bounds_obtuse (m := 6) (l := 0.382683432364) (u := 0.382683432366) rfl (by decide) h4
    (by norm_num) (by norm_num) (by norm_num)
  have h1 := angleCos_bounds (m := 1) (l := 0.980785280403) (u := 0.980785280404) (by decide) h2
    (by norm_num) (by norm_num) (by norm_num)
  have h3 := angleCos_bounds (m := 3) (l := 0.831469612302) (u := 0.831469612303) (by decide) h6
    (by norm_num) (by norm_num) (by norm_num)
  have h5 := angleCos_bounds_obtuse (m := 5) (l := 0.555570233019) (u := 0.555570233021) rfl (by decide) h6
    (by norm_num) (by norm_num) (by norm_num)
  have h7 := angleCos_bounds_obtuse (m := 7) (l := 0.195090322015) (u := 0.195090322017) rfl (by decide) h2
    (by norm_num) (by norm_num) (by norm_num)
  fin_cases m
  · refine near_of_bounds h1 ?_ ?_ <;> norm_num [storedFields, significand, ulpExponent]
  · refine near_of_bounds h2 ?_ ?_ <;> norm_num [storedFields, significand, ulpExponent]
  · refine near_of_bounds h3 ?_ ?_ <;> norm_num [storedFields, significand, ulpExponent]
  · refine near_of_bounds h4 ?_ ?_ <;> norm_num [storedFields, significand, ulpExponent]
  · refine near_of_bounds h5 ?_ ?_ <;> norm_num [storedFields, significand, ulpExponent]
  · refine near_of_bounds h6 ?_ ?_ <;> norm_num [storedFields, significand, ulpExponent]
  · refine near_of_bounds h7 ?_ ?_ <;> norm_num [storedFields, significand, ulpExponent]

theorem storedFields_normal (m : Fin 7) :
    0 < (storedFields m).1.val ∧ (storedFields m).1.val ≤ 125 ∧ 0 < (storedFields m).2.val := by
  revert m
  decide

theorem f32ToReal_fin (s : Bool) (e : Fin 255) (f : Fin 8388608) :
    f32ToReal (.fin s e f) = (signedInt s (significand e f) : ℝ) * 2 ^ ulpExponent e := by
  rw [f32ToReal, f32ToRat_fin]
  push_cast
  rfl

theorem f32ToReal_f32Neg (x : F32) : f32ToReal (f32Neg x) = -f32ToReal x := by
  simp [f32ToReal]

/-- A positive normal value, no power of two, within half its unit in the last place of a real number is nearest to it
among all finite values (R71). -/
theorem nearest_of_half_ulp {e : Fin 255} {f : Fin 8388608} (he : 0 < e.val) (hf : 0 < f.val) {r : ℝ}
    (hr : |f32ToReal (.fin false e f) - r| ≤ 2 ^ ulpExponent e / 2) {y : F32} (hy : f32IsFinite y = true) :
    |f32ToReal (.fin false e f) - r| ≤ |f32ToReal y - r| := by
  have hU : (0 : ℝ) < 2 ^ ulpExponent e := by positivity
  have hsig : (8388609 : ℝ) ≤ (significand e f : Int) := by
    have : 8388609 ≤ significand e f := by rw [significand, if_neg he.ne']; omega
    exact_mod_cast this
  rw [f32ToReal_fin] at hr ⊢
  refine (nearest_of_half_unit hU hr ((f32ToRat_on_grid hy (ulpExponent e)).imp ?_ ?_)).1
  · rintro ⟨c, hc⟩
    exact ⟨c, by rw [f32ToReal, hc]; push_cast; rfl⟩
  · rintro ⟨-, hlt⟩
    have hcast : |f32ToReal y| < 8388608 * 2 ^ ulpExponent e := by
      simpa [f32ToReal] using (Rat.cast_lt (K := ℝ)).mpr hlt
    refine ⟨8388608, by exact_mod_cast (le_abs_self _).trans_lt hcast, ?_⟩
    push_cast
    have := (abs_le.mp hr).2
    simp only [signedInt, Bool.false_eq_true, if_false] at this
    nlinarith

/-- A stored constant and its entry of the real basis have the same sign; the entry is half a cosine but for it (R75). -/
theorem storedBasis_signed (i j : Fin 8) : ∃ (s : Bool) (m : Fin 7),
    basisF32 i j = .fin s (storedFields m).1 (storedFields m).2 ∧
      basisReal i j = signedInt s 1 * (angleCos (m.val + 1) / 2) := by
  obtain ⟨m, k, hangle, hstored⟩ := basisF32_eq_stored i j
  refine ⟨_, m, hstored, ?_⟩
  rw [basisReal_eq_half, angleCos_fold hangle, mul_div_assoc]
  congr 1
  rcases Nat.even_or_odd k.val with hk | hk
  · simp [hk.neg_one_pow, signedInt, Nat.even_iff.mp hk]
  · simp [hk.neg_one_pow, signedInt, Nat.odd_iff.mp hk]

/-- Settles O56. -/
theorem storedBasisIsNearest : Obligations.StoredBasisIsNearest := by
  intro i j
  obtain ⟨s, m, hstored, hreal⟩ := storedBasis_signed i j
  obtain ⟨he, -, hf⟩ := storedFields_normal m
  have hnear : |f32ToReal (.fin false (storedFields m).1 (storedFields m).2) - angleCos (m.val + 1) / 2| ≤
      2 ^ ulpExponent (storedFields m).1 / 2 := by
    rw [f32ToReal_fin]
    exact_mod_cast stored_near m
  have hall := fun {y : F32} => nearest_of_half_ulp (y := y) he hf hnear
  refine ⟨s, _, _, hstored, he, ?_⟩
  rw [hstored, hreal]
  cases s with
  | false =>
    simp only [signedInt, Bool.false_eq_true, if_false, Nat.cast_one, Int.cast_one, one_mul]
    exact ⟨hnear, fun y hy => hall hy⟩
  | true =>
    have hneg : ∀ x : F32, |f32ToReal x - signedInt true 1 * (angleCos (m.val + 1) / 2)| =
        |f32ToReal (f32Neg x) - angleCos (m.val + 1) / 2| := fun x => by
      rw [f32ToReal_f32Neg, ← abs_neg]
      congr 1
      simp only [signedInt, if_true, Int.cast_neg, Nat.cast_one, Int.cast_one]
      ring
    simp only [hneg]
    exact ⟨hnear, fun y hy => hall (by simpa using hy)⟩

/-- A product with a value below 1/2 does not overflow (R71). -/
theorem fmul_finite_of_half {x y : F32} (hx : f32IsFinite x = true) (hsmall : |f32ToRat x| ≤ 1 / 2)
    (hy : f32IsFinite y = true) : f32IsFinite (fmul x y) = true := by
  refine (multiplicationIsCorrectlyRounded x y hx hy).1.finite ?_
  obtain ⟨s, e, f, rfl⟩ := f32IsFinite_iff.mp hy
  have hlt := abs_f32ToRat_lt s e f
  have hpow : (2 : Rat) ^ ulpExponent e ≤ 2 ^ (104 : Int) :=
    zpow_le_zpow_right₀ one_le_two (by unfold ulpExponent; omega)
  rw [abs_mul]
  calc |f32ToRat x| * |f32ToRat (.fin s e f)| ≤ 1 / 2 * (16777216 * 2 ^ (104 : Int)) := by gcongr; linarith
    _ < overflowBound := by norm_num [overflowBound]

/-- Settles O48: the constants are below 1/2 and not zero. -/
theorem basisProductsStayFinite : Obligations.BasisProductsStayFinite := by
  intro k n x
  obtain ⟨s, m, hstored, -⟩ := storedBasis_signed k n
  obtain ⟨he, hmax, -⟩ := storedFields_normal m
  rw [hstored]
  generalize (storedFields m).1 = e at he hmax ⊢
  generalize (storedFields m).2 = f
  cases x with
  | nan => simp [fmul]
  | inf t =>
    have hsig : significand e f ≠ 0 := by
      rw [significand, if_neg he.ne']
      omega
    simp [fmul, hsig]
  | fin t e' f' =>
    have hpow : (2 : Rat) ^ ulpExponent e ≤ 2 ^ (-25 : Int) :=
      zpow_le_zpow_right₀ one_le_two (by unfold ulpExponent; omega)
    have hsmall : |f32ToRat (.fin s e f)| ≤ 1 / 2 := by
      have := abs_f32ToRat_lt s e f
      norm_num at hpow
      linarith
    obtain ⟨s', e'', f'', heq⟩ := f32IsFinite_iff.mp (fmul_finite_of_half rfl hsmall (y := .fin t e' f') rfl)
    simp [heq]

end Sys2Proof.Machine
end

section
/-! The real basis is orthogonal (R66), and the laws of the real transforms (R67 to R69). -/

namespace Sys2Proof.Machine

/-! ### Orthogonality of the basis -/

/-- The cosines of a frequency other than 0, taken at the eight sample points, cancel: times the sine of half a step,
their sum telescopes. -/
theorem sum_angleCos_eq_zero {n : Int} (h0 : n ≠ 0) (hn : |n| < 16) :
    ∑ k : Fin 8, angleCos ((2 * k.val + 1) * n) = 0 := by
  have hsin : Real.sin (n * Real.pi / 16) ≠ 0 := by
    intro hzero
    obtain ⟨c, hc⟩ := Real.sin_eq_zero_iff.mp hzero
    have hreal : (16 * c : ℝ) = n := by
      have := Real.pi_ne_zero
      field_simp at hc
      linarith
    have hint : 16 * c = n := by exact_mod_cast hreal
    obtain ⟨hlo, hhi⟩ := abs_lt.mp hn
    omega
  have hstep : ∀ k : Nat, 2 * Real.sin (n * Real.pi / 16) * angleCos ((2 * k + 1) * n) =
      Real.sin ((k + 1 : Nat) * (2 * (n * Real.pi / 16))) - Real.sin (k * (2 * (n * Real.pi / 16))) := fun k => by
    rw [Real.sin_sub_sin, angleCos]
    push_cast
    ring_nf
  refine (mul_eq_zero.mp ?_).resolve_left (mul_ne_zero two_ne_zero hsin)
  rw [Fin.sum_univ_eq_sum_range (fun k => angleCos ((2 * (k : Int) + 1) * n)), Finset.mul_sum,
    Finset.sum_congr rfl fun k _ => hstep k,
    Finset.sum_range_sub (fun k : Nat => Real.sin (k * (2 * (n * Real.pi / 16))))]
  have hend : ((8 : Nat) : ℝ) * (2 * (n * Real.pi / 16)) = n * Real.pi := by push_cast; ring
  rw [hend, Real.sin_int_mul_pi]
  simp

/-- Rows of the basis: the product of two cosines is a sum of two (R66). -/
theorem sum_basisReal_rows (i j : Fin 8) : ∑ k, basisReal i k * basisReal j k = if i = j then 1 else 0 := by
  have hprod : ∑ k, basisReal i k * basisReal j k =
      Real.sqrt (if i = 0 then 1 / 8 else 1 / 4) * Real.sqrt (if j = 0 then 1 / 8 else 1 / 4) *
        ((∑ k : Fin 8, angleCos ((2 * k.val + 1) * (i.val - j.val : Int)) +
          ∑ k : Fin 8, angleCos ((2 * k.val + 1) * (i.val + j.val : Int))) / 2) := by
    rw [← Finset.sum_add_distrib, Finset.sum_div, Finset.mul_sum]
    refine Finset.sum_congr rfl fun k _ => ?_
    rw [basisReal_eq_scale, basisReal_eq_scale, mul_mul_mul_comm, angleCos_mul, mul_sub, mul_add]
  rw [hprod]
  by_cases hij : i = j
  · subst hij
    rw [if_pos rfl, sub_self, Real.mul_self_sqrt (by split <;> norm_num)]
    by_cases hi : i = 0
    · simp [hi]
    · rw [sum_angleCos_eq_zero (n := i.val + i.val) (by omega) (by rw [Int.abs_eq_natAbs]; omega), if_neg hi]
      simp
      norm_num
  · rw [if_neg hij, sum_angleCos_eq_zero (n := i.val - j.val) (by omega) (by rw [Int.abs_eq_natAbs]; omega),
      sum_angleCos_eq_zero (n := i.val + j.val) (by omega) (by rw [Int.abs_eq_natAbs]; omega)]
    simp

/-- The basis as a matrix (R65). -/
noncomputable def basisMatrix : Matrix (Fin 8) (Fin 8) ℝ := Matrix.of basisReal

theorem basisMatrix_mul_transpose : basisMatrix * basisMatrix.transpose = 1 := by
  ext i j
  rw [Matrix.mul_apply, Matrix.one_apply]
  exact sum_basisReal_rows i j

/-- A square matrix with orthonormal rows has orthonormal columns (R66). -/
theorem basisMatrix_transpose_mul : basisMatrix.transpose * basisMatrix = 1 :=
  mul_eq_one_comm.mp basisMatrix_mul_transpose

/-- Settles O53. -/
theorem basisMatrixIsOrthogonal : Obligations.BasisMatrixIsOrthogonal := by
  refine ⟨sum_basisReal_rows, fun i j => ?_⟩
  have := congrFun₂ basisMatrix_transpose_mul i j
  rwa [Matrix.mul_apply, Matrix.one_apply] at this

/-! ### The transforms over the reals -/

section Laws
open Matrix
variable (b : Matrix (Fin 8) (Fin 8) ℝ)

/-- `DCT_R(B) = C * B * C^T` (R67). -/
theorem dctReal_eq_mul : dctReal b = basisMatrix * b * basisMatrixᵀ := by
  funext u v
  simp only [Matrix.mul_apply, Finset.sum_mul]
  exact Finset.sum_comm

/-- `IDCT_R(Y) = C^T * Y * C` (R68). -/
theorem idctReal_eq_mul : idctReal b = basisMatrixᵀ * b * basisMatrix := by
  funext i j
  simp only [Matrix.mul_apply, Finset.sum_mul]
  exact Finset.sum_comm

theorem energyReal_eq_trace : energyReal b = (bᵀ * b).trace := by
  simp only [energyReal, Matrix.trace, Matrix.diag, Matrix.mul_apply, Matrix.transpose_apply, sq]
  exact Finset.sum_comm

theorem idctReal_dctReal : idctReal (dctReal b) = b := by
  rw [dctReal_eq_mul, idctReal_eq_mul]
  calc basisMatrixᵀ * (basisMatrix * b * basisMatrixᵀ) * basisMatrix
      = (basisMatrixᵀ * basisMatrix) * b * (basisMatrixᵀ * basisMatrix) := by simp only [Matrix.mul_assoc]
    _ = b := by rw [basisMatrix_transpose_mul, one_mul, mul_one]

theorem dctReal_idctReal : dctReal (idctReal b) = b := by
  rw [idctReal_eq_mul, dctReal_eq_mul]
  calc basisMatrix * (basisMatrixᵀ * b * basisMatrix) * basisMatrixᵀ
      = (basisMatrix * basisMatrixᵀ) * b * (basisMatrix * basisMatrixᵀ) := by simp only [Matrix.mul_assoc]
    _ = b := by rw [basisMatrix_mul_transpose, one_mul, mul_one]

/-- The forward transform keeps the energy: the basis cancels inside the trace, and then around it (R69 (3)). -/
theorem energyReal_dctReal : energyReal (dctReal b) = energyReal b := by
  rw [dctReal_eq_mul, energyReal_eq_trace, energyReal_eq_trace]
  calc ((basisMatrix * b * basisMatrixᵀ)ᵀ * (basisMatrix * b * basisMatrixᵀ)).trace
      = (basisMatrix * (bᵀ * ((basisMatrixᵀ * basisMatrix) * b) * basisMatrixᵀ)).trace := by
        simp only [Matrix.transpose_mul, Matrix.transpose_transpose, Matrix.mul_assoc]
    _ = (basisMatrix * (bᵀ * b * basisMatrixᵀ)).trace := by rw [basisMatrix_transpose_mul, one_mul]
    _ = (bᵀ * b * (basisMatrixᵀ * basisMatrix)).trace := by rw [Matrix.trace_mul_comm, Matrix.mul_assoc]
    _ = (bᵀ * b).trace := by rw [basisMatrix_transpose_mul, mul_one]

theorem dctReal_linear (s t : ℝ) (a : Matrix (Fin 8) (Fin 8) ℝ) :
    dctReal (s • a + t • b) = s • dctReal a + t • dctReal b := by
  rw [dctReal_eq_mul, dctReal_eq_mul, dctReal_eq_mul, mul_add, add_mul]
  simp only [Matrix.mul_smul, Matrix.smul_mul]
  rfl

theorem idctReal_linear (s t : ℝ) (a : Matrix (Fin 8) (Fin 8) ℝ) :
    idctReal (s • a + t • b) = s • idctReal a + t • idctReal b := by
  rw [idctReal_eq_mul, idctReal_eq_mul, idctReal_eq_mul, mul_add, add_mul]
  simp only [Matrix.mul_smul, Matrix.smul_mul]
  rfl

end Laws

theorem basisReal_zero (j : Fin 8) : basisReal 0 j = Real.sqrt (1 / 8) := if_pos rfl

theorem sqrt_eighth_mul_self : Real.sqrt (1 / 8) * Real.sqrt (1 / 8) = 1 / 8 :=
  Real.mul_self_sqrt (by norm_num)

/-- The coefficient at (0, 0) is the sum of the samples over 8 (R69 (4)). -/
theorem dctReal_zero_zero (b : Block ℝ) : dctReal b 0 0 = (∑ i, ∑ j, b i j) / 8 := by
  simp only [dctReal, basisReal_zero, Finset.sum_div]
  refine Finset.sum_congr rfl fun i _ => Finset.sum_congr rfl fun j _ => ?_
  rw [mul_right_comm, sqrt_eighth_mul_self]
  ring

/-- The entries of a row of the basis add up to 0, but for row 0, which is constant (R66). -/
theorem sum_basisReal_row (u : Fin 8) : (∑ j, basisReal u j) * Real.sqrt (1 / 8) = if u = 0 then 1 else 0 := by
  rw [← sum_basisReal_rows u 0, Finset.sum_mul]
  simp only [basisReal_zero]

/-- A constant block has its only coefficient at (0, 0) (R69 (5)). -/
theorem dctReal_const (s : ℝ) (u v : Fin 8) : dctReal (fun _ _ => s) u v = if u = 0 ∧ v = 0 then 8 * s else 0 := by
  have hsum : dctReal (fun _ _ => s) u v = (∑ i, basisReal u i) * (∑ j, basisReal v j) * s := by
    rw [Finset.sum_mul_sum, Finset.sum_mul]
    simp only [dctReal, Finset.sum_mul]
    refine Finset.sum_congr rfl fun i _ => Finset.sum_congr rfl fun j _ => mul_right_comm _ _ _
  have heighth : (∑ i, basisReal u i) * (∑ j, basisReal v j) * (1 / 8) =
      (if u = 0 then 1 else 0) * if v = 0 then 1 else 0 := by
    rw [← sum_basisReal_row, ← sum_basisReal_row, mul_mul_mul_comm, sqrt_eighth_mul_self]
  rw [hsum, show (∑ i, basisReal u i) * (∑ j, basisReal v j) * s =
    (∑ i, basisReal u i) * (∑ j, basisReal v j) * (1 / 8) * (8 * s) by ring, heighth]
  by_cases hu : u = 0 <;> by_cases hv : v = 0 <;> simp [hu, hv]

/-- Settles O54. -/
theorem realTransformLaws : Obligations.RealTransformLaws := by
  refine ⟨fun b => ⟨idctReal_dctReal b, dctReal_idctReal b⟩,
    fun s t a b => ⟨dctReal_linear b s t a, idctReal_linear b s t a⟩,
    energyReal_dctReal, dctReal_zero_zero, fun s => funext₂ (dctReal_const s), ?_, ?_, ?_⟩
  · rw [dctReal_const]
    norm_num
  · exact funext₂ fun u v => by simp [dctReal]
  · exact funext₂ fun i j => by simp [idctReal]

/-- Settles O55: the factor that does not depend on the inner index comes out of the inner sum. -/
theorem realTransformsAreSeparable : Obligations.RealTransformsAreSeparable := by
  intro b
  constructor
  · funext u v
    simp only [dctReal, dctReal1d, Finset.mul_sum]
    exact Finset.sum_congr rfl fun i _ => Finset.sum_congr rfl fun j _ => by ring
  · funext i j
    simp only [idctReal, idctReal1d, Finset.mul_sum]
    exact Finset.sum_congr rfl fun u _ => Finset.sum_congr rfl fun v _ => by ring

end Sys2Proof.Machine
end

section
/-! The family of `41_transform.md`: what a destination block depends on (R94), and the forward and the inverse
transform one after the other (R93). -/

namespace Sys2Proof.Machine

/-- The numerics depend on no other constant of the platform (R74). -/
theorem platformNum_congr {p p' : Platform} (h : p.numerics = p'.numerics) : platformNum p = platformNum p' := by
  rw [platformNum, h, platformNum]

/-- The table entries depend on no other constant of the platform (R17). -/
theorem qtabAt_congr {p p' : Platform} (h : p.qtab = p'.qtab) (i j : Fin 8) : qtabAt p i j = qtabAt p' i j := by
  rw [qtabAt, h, qtabAt]

/-- Of the platform, a command uses `QTAB` and `NUM` alone (R94). -/
theorem commandBlock_platform_congr {p p' : Platform} (hq : p.qtab = p'.qtab) (hn : p.numerics = p'.numerics)
    (i : Instr) (blk : Block (F32 ⊕ Int)) : commandBlock i p blk = commandBlock i p' blk := by
  funext b c
  simp only [commandBlock, platformNum_congr hn, qtabAt_congr hq]

/-- The two transforms address a block of float samples alike (R31, R33). -/
theorem sampleBlock_idct8x8_eq_dct8x8 (m : Memory) (a stride : Word) (y x : Nat) :
    sampleBlock .idct8x8 m a stride y x = sampleBlock .dct8x8 m a stride y x := rfl

/-- Settles O27: each destination block is `commandBlock` of its source block and of the constants. -/
theorem blocksAreIndependent : Obligations.BlocksAreIndependent := by
  intro i s s' t t' src dst stride w h src' dst' stride' w' h' y x y' x' hr hr' hq hn hy hx hy' hx' hsrc ht ht' a b
  have hblock : sampleBlock i s.mem src stride y x = sampleBlock i s'.mem src' stride' y' x' := funext₂ hsrc
  have hdst := calc sampleBlock i t.mem dst stride y x
      = commandBlock i s.platform (sampleBlock i s.mem src stride y x) := sampleBlock_exec hr ht hy hx
    _ = commandBlock i s'.platform (sampleBlock i s'.mem src' stride' y' x') := by
        rw [hblock, commandBlock_platform_congr hq hn]
    _ = sampleBlock i t'.mem dst' stride' y' x' := (sampleBlock_exec hr' ht' hy' hx').symm
  exact congrFun₂ hdst a b

/-- Settles O28: the block that `IDCT8X8` reads is the block that `DCT8X8` left. -/
theorem roundTripIsBlockwise : Obligations.RoundTripIsBlockwise := by
  intro s t u v src mid dst stride w h hr ht hr' hmem hplatform hv y x hy hx i j
  have hdst := calc sampleBlock .idct8x8 v.mem dst stride y x
      = commandBlock .idct8x8 u.platform (sampleBlock .idct8x8 u.mem mid stride y x) := sampleBlock_exec hr' hv hy hx
    _ = commandBlock .idct8x8 s.platform (sampleBlock .dct8x8 t.mem mid stride y x) := by
        rw [hplatform, hmem, sampleBlock_idct8x8_eq_dct8x8]
    _ = commandBlock .idct8x8 s.platform
          (commandBlock .dct8x8 s.platform (sampleBlock .dct8x8 s.mem src stride y x)) := by
        rw [sampleBlock_exec hr ht hy hx]
  exact Sum.inl.inj (congrFun₂ hdst i j)

end Sys2Proof.Machine
end

section
/-! The family of `42_quantize.md`: a representable value is its own rounding, so the float round trip of an exact
quotient gives every bit back (R110). -/

namespace Sys2Proof.Machine

/-! ### Values determine their bits -/

/-- The magnitude of a finite value (R70). -/
theorem abs_f32ToRat_fin (s : Bool) (e : Fin 255) (f : Fin 8388608) :
    |f32ToRat (.fin s e f)| = significand e f * 2 ^ ulpExponent e := by
  have hU : (0 : Rat) < 2 ^ ulpExponent e := by positivity
  rw [f32ToRat_fin, abs_mul, abs_of_pos hU, ← Int.cast_abs, abs_signedInt, Int.cast_natCast]

/-- A finite value with a smaller unit in its last place has a smaller magnitude (R70). -/
theorem abs_f32ToRat_lt_of_ulpExponent_lt {s t : Bool} {e e' : Fin 255} {f f' : Fin 8388608}
    (h : ulpExponent e < ulpExponent e') : |f32ToRat (.fin s e f)| < |f32ToRat (.fin t e' f')| := by
  have hU : (0 : Rat) < 2 ^ ulpExponent e' := by positivity
  have hsig : (8388608 : Rat) ≤ significand e' f' := by
    have : 8388608 ≤ significand e' f' := by
      unfold ulpExponent at h
      rw [significand, if_neg (by omega)]
      omega
    exact_mod_cast this
  have hpow : (2 : Rat) ^ (ulpExponent e + 1) ≤ 2 ^ ulpExponent e' := zpow_le_zpow_right₀ one_le_two h
  rw [zpow_add_one₀ two_ne_zero] at hpow
  calc |f32ToRat (.fin s e f)| < 16777216 * 2 ^ ulpExponent e := abs_f32ToRat_lt s e f
    _ ≤ 8388608 * 2 ^ ulpExponent e' := by linarith
    _ ≤ significand e' f' * 2 ^ ulpExponent e' := mul_le_mul_of_nonneg_right hsig hU.le
    _ = |f32ToRat (.fin t e' f')| := (abs_f32ToRat_fin t e' f').symm

/-- A finite value is known by its rational value and its sign, which only a zero needs (R70). -/
theorem eq_of_f32ToRat_eq {x y : F32} (hx : f32IsFinite x = true) (hy : f32IsFinite y = true)
    (hval : f32ToRat x = f32ToRat y) (hneg : f32IsNeg x = f32IsNeg y) : x = y := by
  obtain ⟨s, e, f, rfl⟩ := f32IsFinite_iff.mp hx
  obtain ⟨t, e', f', rfl⟩ := f32IsFinite_iff.mp hy
  obtain rfl : s = t := hneg
  have habs := congrArg abs hval
  rcases lt_trichotomy (ulpExponent e) (ulpExponent e') with hlt | hulp | hgt
  · exact absurd habs (abs_f32ToRat_lt_of_ulpExponent_lt hlt).ne
  · have hsig : significand e f = significand e' f' := by
      rw [abs_f32ToRat_fin, abs_f32ToRat_fin, hulp] at habs
      exact_mod_cast mul_right_cancel₀ (by positivity) habs
    have hfields : e = e' ∧ f = f' := by
      unfold ulpExponent at hulp
      unfold significand at hsig
      split_ifs at hsig <;> omega
    rw [hfields.1, hfields.2]
  · exact absurd habs (abs_f32ToRat_lt_of_ulpExponent_lt hgt).ne'

/-! ### Rounding keeps what is representable -/

/-- No finite value is as large as the numbers that round to infinity (R71). -/
theorem abs_f32ToRat_lt_overflowBound {x : F32} (hx : f32IsFinite x = true) : |f32ToRat x| < overflowBound := by
  obtain ⟨s, e, f, rfl⟩ := f32IsFinite_iff.mp hx
  have hsig : (significand e f : Rat) ≤ 16777215 := by
    exact_mod_cast Nat.le_of_lt_succ (significand_lt e f)
  have hpow : (2 : Rat) ^ ulpExponent e ≤ 2 ^ (104 : Int) :=
    zpow_le_zpow_right₀ one_le_two (by unfold ulpExponent; omega)
  rw [abs_f32ToRat_fin]
  calc (significand e f : Rat) * 2 ^ ulpExponent e ≤ 16777215 * 2 ^ (104 : Int) := by gcongr
    _ < overflowBound := by norm_num [overflowBound]

/-- A finite value rounds to itself, but for the sign of a zero (R71). -/
theorem IsRoundedValue.f32ToRat_eq {x z : F32} (h : IsRoundedValue (f32ToRat x) z) (hx : f32IsFinite x = true) :
    f32IsFinite z = true ∧ f32ToRat z = f32ToRat x := by
  have hbound := abs_f32ToRat_lt_overflowBound hx
  obtain ⟨hlo, hhi⟩ := abs_lt.mp hbound
  rcases h with ⟨hz, -, hnear⟩ | ⟨-, hge⟩ | ⟨-, hle⟩
  · have hdist := (hnear x hx).1
    rw [sub_self, abs_zero] at hdist
    exact ⟨hz, sub_eq_zero.mp (abs_nonpos_iff.mp hdist)⟩
  · exact absurd hge (not_le.mpr hhi)
  · exact absurd hle (not_le.mpr hlo)

/-! ### Exact quotients -/

/-- If `c * 2^g` with a 24-bit `c` is the quotient of `m * 2^e` by a 24-bit `d`, the bits that `fdiv` keeps hold the
whole quotient and nothing is dropped. -/
theorem dvd_of_exact_quotient {c d m : Nat} {g e : Int} (hc : c < 16777216) (hd : d < 16777216)
    (h : (c * d : Rat) * 2 ^ g = m * 2 ^ e) : d ∣ m * 2 ^ quotientBits := by
  have hU : (0 : Rat) < 2 ^ (e - 50) := by positivity
  have he : (2 : Rat) ^ e = 2 ^ 50 * 2 ^ (e - 50) := by
    rw [← zpow_natCast, ← zpow_add₀ two_ne_zero]
    congr 1
    omega
  rw [he, ← mul_assoc] at h
  rcases le_or_gt (e - 50) g with hle | hlt
  · rw [← two_pow_toNat_mul hle, ← mul_assoc] at h
    have hnat : c * d * 2 ^ (g - (e - 50)).toNat = m * 2 ^ 50 := by
      exact_mod_cast mul_right_cancel₀ hU.ne' h
    exact ⟨c * 2 ^ (g - (e - 50)).toNat, by rw [quotientBits, ← hnat]; ring⟩
  · have hcd : (c * d : Rat) ≤ 2 ^ 48 := by
      exact_mod_cast (Nat.mul_le_mul hc.le hd.le : c * d ≤ 16777216 * 16777216)
    have hpow : (2 : Rat) ^ g ≤ 2 ^ (e - 50) := zpow_le_zpow_right₀ one_le_two hlt.le
    have hmul : (m * 2 ^ 50 : Rat) * 2 ^ (e - 50) ≤ 2 ^ 48 * 2 ^ (e - 50) := h ▸ by gcongr
    have hm : (m : Rat) < 1 := by linarith [le_of_mul_le_mul_right hmul hU]
    obtain rfl : m = 0 := Nat.lt_one_iff.mp (by exact_mod_cast hm)
    simp

/-- A significand of the quotient that `fdiv` keeps whole, times the divisor, is the dividend. -/
theorem signedInt_quotient_mul {m d k : Nat} (h : m * 2 ^ quotientBits = d * k) (s t : Bool) (e e' : Int) :
    (signedInt (s != t) (2 * k) : Rat) * 2 ^ (e - e' - quotientBits - 1) * (signedInt t d * 2 ^ e') =
      signedInt s m * 2 ^ e := by
  have hmag : 2 * k * d = m * 2 ^ (e - (e - 51)).toNat := by
    rw [sub_sub_cancel, show (51 : Int).toNat = quotientBits + 1 from rfl, pow_succ, ← mul_assoc, h]
    ring
  have hsign : ((s != t) != t) = s := by simp
  have hexp : e - e' - quotientBits - 1 + e' = e - 51 := by
    unfold quotientBits
    omega
  rw [mul_mul_mul_comm, ← Int.cast_mul, signedInt_mul, ← zpow_add₀ two_ne_zero, hexp, hmag, hsign]
  exact signedInt_align s m (by omega)

/-- A quotient that is exactly representable is what `fdiv` gives (R71). -/
theorem isRoundedValue_fdiv_of_exact {x y z : F32} (hx : f32IsFinite x = true) (hy : f32IsFinite y = true)
    (hz : f32IsFinite z = true) (hy0 : f32ToRat y ≠ 0) (h : f32ToRat z * f32ToRat y = f32ToRat x) :
    IsRoundedValue (f32ToRat z) (fdiv x y) ∧ f32IsNeg (fdiv x y) = (f32IsNeg x != f32IsNeg y) := by
  obtain ⟨s, e, f, rfl⟩ := f32IsFinite_iff.mp hx
  obtain ⟨t, e', f', rfl⟩ := f32IsFinite_iff.mp hy
  obtain ⟨r, g, c, rfl⟩ := f32IsFinite_iff.mp hz
  have hsig : significand e' f' ≠ 0 := fun h0 => hy0 (by
    rw [f32ToRat_fin, signedInt_eq_zero_iff.mpr h0, Int.cast_zero, zero_mul])
  have habs := congrArg abs h
  rw [abs_mul, abs_f32ToRat_fin, abs_f32ToRat_fin, abs_f32ToRat_fin, mul_mul_mul_comm,
    ← zpow_add₀ two_ne_zero] at habs
  obtain ⟨k, hk⟩ := dvd_of_exact_quotient (significand_lt g c) (significand_lt e' f') habs
  have hdiv : fdiv (.fin s e f) (.fin t e' f') =
      roundToF32 (s != t) (2 * k) (ulpExponent e - ulpExponent e' - quotientBits - 1) := by
    simp only [fdiv, if_neg hsig, hk, Nat.mul_div_cancel_left k (Nat.pos_of_ne_zero hsig), Nat.mul_mod_right, if_true,
      Nat.add_zero]
  have hval : f32ToRat (.fin r g c) =
      signedInt (s != t) (2 * k) * 2 ^ (ulpExponent e - ulpExponent e' - quotientBits - 1) := by
    refine mul_right_cancel₀ hy0 (h.trans ?_)
    rw [f32ToRat_fin, f32ToRat_fin, signedInt_quotient_mul hk]
  rw [hdiv, hval]
  exact ⟨isRoundedValue_roundToF32 _ _ _, f32IsNeg_roundToF32 _ _ _⟩

/-! ### The round trip of float quantization -/

/-- Where the quotient is exactly representable, multiplying it back gives every bit of the value (R110). -/
theorem qmul_qdiv_of_exact {x z : F32} {q : Divisor} (hx : f32IsFinite x = true) (hz : f32IsFinite z = true)
    (h : f32ToRat z * q.val = f32ToRat x) : numRef.qmul (numRef.qdiv x q) q = x := by
  obtain ⟨hq, hqval⟩ := f32OfInt_exact q
  have hq0 : f32ToRat (f32OfInt q) ≠ 0 := by
    rw [hqval]
    exact_mod_cast Nat.one_le_iff_ne_zero.mp q.pos
  obtain ⟨hround, hneg⟩ := isRoundedValue_fdiv_of_exact hx hq hz hq0 (by rw [hqval, h])
  obtain ⟨hfin, hval⟩ := hround.f32ToRat_eq hz
  obtain ⟨hround', hneg'⟩ := multiplicationIsCorrectlyRounded _ _ hfin hq
  rw [hval, hqval, h] at hround'
  obtain ⟨hfin', hval'⟩ := hround'.f32ToRat_eq hx
  exact eq_of_f32ToRat_eq hfin' hx hval' (hneg'.trans (by simp [hneg]))

/-- Infinities and NaN come back from the round trip (R72, R110). -/
theorem qmul_qdiv_of_not_finite {x : F32} (hx : f32IsFinite x = false) (q : Divisor) :
    numRef.qmul (numRef.qdiv x q) q = x := by
  obtain ⟨e, f, heq, hsig⟩ := f32OfInt_pos q
  cases x with
  | nan => rfl
  | inf s => simp [numRef, refQdiv, refQmul, heq, fdiv, fmul, hsig]
  | fin s e f => exact absurd hx.symm Bool.false_ne_true

/-- Taking `k` from the exponent field of a normal value that stays normal divides it by `2^k` (R70). -/
theorem f32ToRat_sub_exponent (s : Bool) {e e' : Fin 255} (f : Fin 8388608) {k : Nat} (hpos : 0 < e'.val)
    (he : e.val = e'.val + k) : f32ToRat (.fin s e' f) * 2 ^ k = f32ToRat (.fin s e f) := by
  have hsig : significand e f = significand e' f := by
    rw [significand, significand, if_neg (by omega), if_neg (by omega)]
  have hulp : ulpExponent e = ulpExponent e' + k := by
    unfold ulpExponent
    omega
  rw [f32ToRat_fin, f32ToRat_fin, hsig, hulp, zpow_add₀ two_ne_zero, zpow_natCast, mul_assoc]

/-- Settles O52: two quotients that are rounded, the exact quotients, and the powers of two as an instance of them. -/
theorem floatRoundTripIsNotExact : Obligations.FloatRoundTripIsNotExact := by
  refine ⟨⟨.fin false 130 5242880, divisorOf 11, by decide, ?_, by decide +kernel⟩,
    ⟨divisorOf 2, by decide, by decide +kernel⟩, fun x q hx ⟨z, hz, h⟩ => qmul_qdiv_of_exact hx hz h,
    fun x q hx => qmul_qdiv_of_not_finite hx q, fun s e f q k hq hk => ?_⟩
  · norm_num [f32ToRat, significand, ulpExponent]
  · refine qmul_qdiv_of_exact (z := .fin s ⟨e.val - k, by omega⟩ f) rfl rfl ?_
    rw [hq, Nat.cast_pow, Nat.cast_ofNat]
    exact f32ToRat_sub_exponent s f (Nat.sub_pos_of_lt hk) (Nat.sub_add_cancel hk.le).symm

end Sys2Proof.Machine
end

section
/-! The family of `60_exceptions.md`: why a command stops (R126), and that the engine raises no fault (R125). -/

namespace Sys2Proof.Machine

/-! ### What stops a command -/

/-- The clauses that the operands alone can break are `PV1` to `PV6` (R126). -/
theorem violation_eq_some {p : Platform} {l : Launch} {r : Refusal} (h : l.violation p = some r) :
    r = .pv1RoiNotMultipleOf8 ∨ r = .pv2StrideBelowWidth ∨ r = .pv3NullPointer ∨ r = .pv4PartialOverlap ∨
      r = .pv5MisalignedPointer ∨ r = .pv6OutsideMemory := by
  unfold Launch.violation at h
  split_ifs at h <;> cases h <;> simp

/-- Every outcome of the shared command operation: a clause of the contract that stops it, or the effect's own
outcome (R24, R126). -/
theorem runCommand_outcome (i : Instr) (s : State) (effect : Launch → Host.Outcome State Fault Refusal) :
    runCommand i s effect = .refused .pv9UnwrittenOperand ∨
      (∃ (l : Launch) (r : Refusal), l.violation s.platform = some r ∧ runCommand i s effect = .refused r) ∨
      runCommand i s effect = .refused .pv11BufferTouchedWhileBusy ∨ ∃ l, runCommand i s effect = effect l := by
  cases hl : launchOf i s.engine with
  | none => exact .inl (by simp only [runCommand, hl, violate])
  | some l =>
    cases hv : l.violation s.platform with
    | some r => exact .inr (.inl ⟨l, r, hv, by simp only [runCommand, hl, hv, violate]⟩)
    | none =>
      cases hc : othersConflict s l with
      | true => exact .inr (.inr (.inl (runCommand_conflict hl hv hc)))
      | false => exact .inr (.inr (.inr ⟨l, runCommand_eq hl hv hc⟩))

/-- Every command is `runCommand` of an effect that completes on any data, or is stopped by `PV10` if the command is
`DEQS` (R109, R130). -/
theorem exec_effect_outcome (i : Instr) (s : State) :
    ∃ effect, exec i s = runCommand i s effect ∧
      ∀ l, (∃ t, effect l = .next t) ∨ (i = .deqs ∧ effect l = .refused .pv10ProductOutOfRange) := by
  cases i with
  | deqs =>
    refine ⟨_, rfl, fun l => ?_⟩
    by_cases hfit : deqsInRange s l = true
    · exact .inl ⟨_, if_pos hfit⟩
    · exact .inr ⟨rfl, if_neg hfit⟩
  | dct8x8 | idct8x8 | qntf | qnts | deqf => exact ⟨_, rfl, fun _ => .inl ⟨_, rfl⟩⟩

/-- Every outcome of a command: it completes, or a clause of the contract stops it (R126). -/
theorem exec_outcome (i : Instr) (s : State) :
    (∃ t, exec i s = .next t) ∨ ∃ r, exec i s = .refused r ∧
      (r = .pv9UnwrittenOperand ∨ (∃ l : Launch, l.violation s.platform = some r) ∨ r = .pv11BufferTouchedWhileBusy ∨
        (i = .deqs ∧ r = .pv10ProductOutOfRange)) := by
  obtain ⟨effect, he, heffect⟩ := exec_effect_outcome i s
  rw [he]
  rcases runCommand_outcome i s effect with h | ⟨l, r, hv, h⟩ | h | ⟨l, h⟩
  · exact .inr ⟨_, h, .inl rfl⟩
  · exact .inr ⟨r, h, .inr (.inl ⟨l, hv⟩)⟩
  · exact .inr ⟨_, h, .inr (.inr (.inl rfl))⟩
  · rw [h]
    rcases heffect l with hnext | ⟨hi, hr⟩
    · exact .inl hnext
    · exact .inr ⟨_, hr, .inr (.inr (.inr ⟨hi, rfl⟩))⟩

/-- What a refused command was refused for. -/
theorem exec_refused {i : Instr} {s : State} {r : Refusal} (h : exec i s = .refused r) :
    r = .pv9UnwrittenOperand ∨ (∃ l : Launch, l.violation s.platform = some r) ∨ r = .pv11BufferTouchedWhileBusy ∨
      (i = .deqs ∧ r = .pv10ProductOutOfRange) := by
  rcases exec_outcome i s with ⟨t, hnext⟩ | ⟨r', hr, hreason⟩
  · rw [hnext] at h
    cases h
  · rw [hr] at h
    cases h
    exact hreason

/-- No command raises a fault (R125). -/
theorem exec_ne_fault (i : Instr) (s : State) (f : Fault) : exec i s ≠ .fault f := by
  rcases exec_outcome i s with ⟨t, h⟩ | ⟨r, h, -⟩ <;> rw [h] <;> exact nofun

/-! ### What raises no fault: register accesses, moves of the engines, reset -/

section NoFault
variable {s : State} {f : Fault}

theorem violate_ne_fault {r : Refusal} : violate r ≠ .fault f := nofun

theorem launch_ne_fault {w : Word} : launch w s ≠ .fault f := by
  unfold launch
  split
  · exact violate_ne_fault
  · split
    · exact violate_ne_fault
    · split
      · exact violate_ne_fault
      · exact nofun

theorem regWrite_ne_fault {n : Nat} {v : Word} : regWrite n v s ≠ .fault f := by
  unfold regWrite
  split
  · exact violate_ne_fault
  · split
    · exact violate_ne_fault
    · split
      · exact launch_ne_fault
      · exact nofun

theorem regRead_ne_fault {n : Nat} : regRead n s ≠ .fault f := by
  unfold regRead
  split
  · exact violate_ne_fault
  · split
    · exact nofun
    · split
      · exact violate_ne_fault
      · exact nofun

theorem engineTurn_ne_fault : engineTurn s ≠ .fault f := by
  unfold engineTurn
  split
  · split
    · exact exec_ne_fault _ s f
    · exact violate_ne_fault
  · exact nofun

theorem onNext_ne_fault {o : Host.Outcome State Fault Refusal} {g : State → State} (ho : o ≠ .fault f) :
    onNext o g ≠ .fault f := by
  cases o with
  | next t => exact nofun
  | fault r => exact ho
  | refused r => exact nofun

theorem othersTurn_ne_fault : othersTurn s ≠ .fault f := by
  unfold othersTurn
  split
  · exact onNext_ne_fault engineTurn_ne_fault
  · exact nofun

theorem idleTurn_ne_fault : idleTurn s ≠ .fault f := by
  unfold idleTurn
  split
  · exact engineTurn_ne_fault
  · exact othersTurn_ne_fault

theorem waitTurn_ne_fault : waitTurn s ≠ .fault f := by
  unfold waitTurn
  split
  · exact nofun
  · exact idleTurn_ne_fault

theorem resetEngine_ne_fault : resetEngine s ≠ .fault f := by
  unfold resetEngine
  split
  · exact nofun
  · split
    · exact violate_ne_fault
    · exact nofun

end NoFault

/-! ### What raises the fault: accesses to memory -/

/-- An access that faults has a byte outside populated memory (R25, log 12). -/
theorem hostAccess_fault {s u : State} {f : Fault} {wr : Bool} {addrs : List Nat}
    (h : hostAccess s wr addrs u = .fault f) : ∃ a ∈ addrs, populated s.platform a = false := by
  unfold hostAccess at h
  split at h
  · cases h
  · split at h
    · cases h
    · split at h
      · next hp => simpa using hp
      · cases h

/-- A 32-bit access that faults has one of its four bytes outside populated memory. -/
theorem hostAccess_wordAddrs_fault {s u : State} {f : Fault} {wr : Bool} {a : Nat}
    (h : hostAccess s wr (wordAddrs a) u = .fault f) : ∃ k, k < 4 ∧ populated s.platform (a + k) = false := by
  obtain ⟨b, hb, hp⟩ := hostAccess_fault h
  simp only [wordAddrs, List.mem_cons, List.not_mem_nil, or_false] at hb
  obtain rfl | rfl | rfl | rfl := hb
  · exact ⟨0, by decide, hp⟩
  · exact ⟨1, by decide, hp⟩
  · exact ⟨2, by decide, hp⟩
  · exact ⟨3, by decide, hp⟩

theorem storeByte_fault {s : State} {f : Fault} {a : Word} {b : Byte} (h : storeByte a b s = .fault f) :
    populated s.platform a.toNat = false := by
  simpa using hostAccess_fault h

theorem loadByte_fault {s : State} {f : Fault} {a : Word} (h : loadByte a s = .fault f) :
    populated s.platform a.toNat = false := by
  simpa using hostAccess_fault h

theorem busStore_fault {s : State} {f : Fault} {a v : Word} (h : busStore a v s = .fault f) :
    ∃ k, k < 4 ∧ populated s.platform (a.toNat + k) = false := by
  unfold busStore at h
  split at h
  · exact absurd h regWrite_ne_fault
  · exact hostAccess_wordAddrs_fault h

theorem busLoad_fault {s : State} {f : Fault} {a : Word} (h : busLoad a s = .fault f) :
    ∃ k, k < 4 ∧ populated s.platform (a.toNat + k) = false := by
  unfold busLoad at h
  split at h
  · exact absurd h regRead_ne_fault
  · exact hostAccess_wordAddrs_fault h

/-- The events that can fault: the four accesses to memory, with a byte outside populated memory. -/
theorem handle_fault {s : State} {f : Fault} {ev : Event} (h : handle ev s = .fault f) :
    (∃ a b, ev = .storeByte a b ∧ populated s.platform a.toNat = false) ∨
      (∃ a, ev = .loadByte a ∧ populated s.platform a.toNat = false) ∨
      (∃ a v k, ev = .busStore a v ∧ k < 4 ∧ populated s.platform (a.toNat + k) = false) ∨
      ∃ a k, ev = .busLoad a ∧ k < 4 ∧ populated s.platform (a.toNat + k) = false := by
  cases ev with
  | storeByte a b => exact .inl ⟨a, b, rfl, storeByte_fault h⟩
  | loadByte a => exact .inr (.inl ⟨a, rfl, loadByte_fault h⟩)
  | busStore a v =>
    obtain ⟨k, hk⟩ := busStore_fault h
    exact .inr (.inr (.inl ⟨a, v, k, rfl, hk⟩))
  | busLoad a =>
    obtain ⟨k, hk⟩ := busLoad_fault h
    exact .inr (.inr (.inr ⟨a, k, rfl, hk⟩))
  | regWrite n v => exact absurd h regWrite_ne_fault
  | regRead n => exact absurd h regRead_ne_fault
  | wait => exact absurd h waitTurn_ne_fault
  | engineTurn => exact absurd h engineTurn_ne_fault
  | select k => cases h
  | reset => exact absurd h resetEngine_ne_fault

/-- Settles O38: the outcomes of a command, and the events that fault. -/
theorem engineRaisesNoException : Obligations.EngineRaisesNoException := by
  refine ⟨exec_ne_fault, fun i s r h => ?_, fun s f h => ?_⟩
  · rcases exec_refused h with hr | ⟨l, hv⟩ | hr | hr
    · exact .inl hr
    · rcases violation_eq_some hv with hr | hr | hr | hr | hr | hr <;> simp [hr]
    · simp [hr]
    · simp [hr]
  · cases he : s.events with
    | nil =>
      unfold step advance at h
      rw [he] at h
      exact absurd h idleTurn_ne_fault
    | cons ev rest =>
      rw [step_eq_handle he] at h
      rcases handle_fault h with ⟨a, b, rfl, hp⟩ | ⟨a, rfl, hp⟩ | ⟨a, v, k, rfl, hp⟩ | ⟨a, k, rfl, hp⟩
      · exact .inl ⟨a, b, rest, rfl, hp⟩
      · exact .inr (.inl ⟨a, rest, rfl, hp⟩)
      · exact .inr (.inr (.inl ⟨a, v, rest, k, rfl, hp⟩))
      · exact .inr (.inr (.inr ⟨a, rest, k, rfl, hp⟩))

end Sys2Proof.Machine
end

section
/-! Accesses by address (R25, R45, R54): register words, and the bytes of memory that the host and other agents write
and read. -/

namespace Sys2Proof.Machine

/-! ### Which addresses are register words -/

section RegisterWords
variable {p : Platform} {a n k : Nat}

/-- The word at `REG_BASE + 4n` is register `n` (R54). -/
theorem registerAt_word (hn : n < 7) : registerAt p (p.regBase + 4 * n) = some n := by
  rw [registerAt, if_pos (by omega)]
  congr 1
  omega

/-- No register word begins inside another (R54). -/
theorem registerAt_inside_word (hk0 : k ≠ 0) (hk : k < 4) : registerAt p (p.regBase + 4 * n + k) = none :=
  if_neg (by omega)

theorem registerAt_below (ha : a < p.regBase) : registerAt p a = none :=
  if_neg (by omega)

theorem registerAt_outside (ha : inRegisterWindow p a = false) : registerAt p a = none := by
  refine if_neg fun ⟨hlo, hhi, _⟩ => ?_
  simp [inRegisterWindow, hlo, hhi] at ha

theorem inRegisterWindow_iff : inRegisterWindow p a = true ↔ p.regBase ≤ a ∧ a < p.regBase + 28 := by
  simp [inRegisterWindow]

end RegisterWords

/-! ### The four bytes of a 32-bit access -/

section WordAccesses
variable {a k : Nat} {P : Nat → Prop}

theorem mem_wordAddrs {b : Nat} : b ∈ wordAddrs a ↔ ∃ k, k < 4 ∧ b = a + k := by
  simp only [wordAddrs, List.mem_cons, List.not_mem_nil, or_false]
  constructor
  · intro hb
    exact ⟨b - a, by omega, by omega⟩
  · rintro ⟨k, hk, rfl⟩
    omega

theorem forall_mem_wordAddrs : (∀ b ∈ wordAddrs a, P b) ↔ ∀ k, k < 4 → P (a + k) := by
  simp only [mem_wordAddrs]
  exact ⟨fun h k hk => h _ ⟨k, hk, rfl⟩, fun h b ⟨k, hk, hb⟩ => hb ▸ h k hk⟩

theorem exists_mem_wordAddrs : (∃ b ∈ wordAddrs a, P b) ↔ ∃ k, k < 4 ∧ P (a + k) := by
  simp only [mem_wordAddrs]
  exact ⟨fun ⟨b, ⟨k, hk, hb⟩, h⟩ => ⟨k, hk, hb ▸ h⟩, fun ⟨k, hk, h⟩ => ⟨_, ⟨k, hk, rfl⟩, h⟩⟩

/-- A 32-bit store is little-endian (R32). -/
theorem byte_mem_cells32 (w : Word) (hk : k < 4) : (a + k, w.extractLsb' (8 * k) 8) ∈ cells32 a w := by
  obtain rfl | rfl | rfl | rfl : k = 0 ∨ k = 1 ∨ k = 2 ∨ k = 3 := by omega
  all_goals simp [cells32]

/-- After a 32-bit store each of its bytes is one of the word's. -/
theorem Memory.read_writeAll_cells32 {m : Memory} (hm : m.wf) (w : Word) (hk : k < 4) :
    (m.writeAll (cells32 a w)).read (a + k) = w.extractLsb' (8 * k) 8 :=
  Memory.read_writeAll_of_mem hm (byte_mem_cells32 w hk) fun c hc hca =>
    cells32_unique c hc _ (byte_mem_cells32 w hk) hca

/-- A 32-bit load is little-endian (R32). -/
theorem Memory.extractLsb'_read32 (m : Memory) (hk : k < 4) : (m.read32 a).extractLsb' (8 * k) 8 = m.read (a + k) := by
  unfold Memory.read32
  obtain rfl | rfl | rfl | rfl : k = 0 ∨ k = 1 ∨ k = 2 ∨ k = 3 := by omega
  all_goals
    ext i hi
    simp only [BitVec.getElem_extractLsb', BitVec.getLsbD_append]
  · simp [hi]
  · simp [show ¬ 8 + i < 8 by omega, hi, BitVec.getLsbD_eq_getElem]
  · simp [show ¬ 16 + i < 8 by omega, show ¬ 16 + i - 8 < 8 by omega, show 16 + i - 8 - 8 = i by omega, hi,
      BitVec.getLsbD_eq_getElem]
  · simp [show ¬ 24 + i < 8 by omega, show ¬ 24 + i - 8 < 8 by omega, show ¬ 24 + i - 8 - 8 < 8 by omega,
      show 24 + i - 8 - 8 - 8 = i by omega, hi, BitVec.getLsbD_eq_getElem]

end WordAccesses

/-! ### The outcomes of an access -/

/-- An access that touches a register word without being that whole word is refused (log 13). -/
theorem hostAccess_register {s u : State} {wr : Bool} {addrs : List Nat}
    (h : ∃ a ∈ addrs, inRegisterWindow s.platform a = true) :
    hostAccess s wr addrs u = .refused .partialRegisterAccess := by
  simp [hostAccess, List.any_eq_true.mpr h, violate]

section MemoryAccess
variable {s u : State} {wr : Bool} {addrs : List Nat} {T : Nat → Prop}

/-- Every outcome of an access to memory, where `T` says in the spec's terms which bytes a running command protects
(R25, R45). -/
theorem hostAccess_outcome (hT : ∀ a, touchesRunning s wr a = true ↔ T a)
    (hw : ∀ a ∈ addrs, inRegisterWindow s.platform a = false) :
    ((∃ t, hostAccess s wr addrs u = .next t) ↔ ∀ a ∈ addrs, populated s.platform a = true ∧ ¬ T a) ∧
      ((∃ a ∈ addrs, T a) → hostAccess s wr addrs u = .refused .pv11BufferTouchedWhileBusy) ∧
      ((∀ a ∈ addrs, ¬ T a) → (∃ a ∈ addrs, populated s.platform a = false) →
        hostAccess s wr addrs u = .fault .hostAccessOutsideMemory) := by
  simp only [← hT, Bool.not_eq_true]
  obtain ⟨hrefused, hfault, hnext⟩ := hostAccess_eq (u := u) (wr := wr) hw
  refine ⟨⟨fun ⟨t, ht⟩ a ha => ?_, fun h => ⟨u, hnext (fun a ha => (h a ha).2) fun a ha => (h a ha).1⟩⟩,
    hrefused, hfault⟩
  obtain ⟨-, hpop, hfree⟩ := hostAccess_next ht
  exact ⟨hpop a ha, hfree a ha⟩

/-- The same for a 32-bit access, byte by byte. -/
theorem hostAccess_wordAddrs_outcome {a : Nat} (hT : ∀ a, touchesRunning s wr a = true ↔ T a)
    (hw : ∀ k, k < 4 → inRegisterWindow s.platform (a + k) = false) :
    ((∃ t, hostAccess s wr (wordAddrs a) u = .next t) ↔
        ∀ k, k < 4 → populated s.platform (a + k) = true ∧ ¬ T (a + k)) ∧
      ((∃ k, k < 4 ∧ T (a + k)) → hostAccess s wr (wordAddrs a) u = .refused .pv11BufferTouchedWhileBusy) ∧
      ((∀ k, k < 4 → ¬ T (a + k)) → (∃ k, k < 4 ∧ populated s.platform (a + k) = false) →
        hostAccess s wr (wordAddrs a) u = .fault .hostAccessOutsideMemory) := by
  have h := hostAccess_outcome (u := u) hT (forall_mem_wordAddrs.mpr hw)
  simpa only [forall_mem_wordAddrs, exists_mem_wordAddrs] using h

/-- The same for an access to one byte. -/
theorem hostAccess_singleton_outcome {a : Nat} (hT : ∀ a, touchesRunning s wr a = true ↔ T a)
    (hw : inRegisterWindow s.platform a = false) :
    ((∃ t, hostAccess s wr [a] u = .next t) ↔ populated s.platform a = true ∧ ¬ T a) ∧
      (T a → hostAccess s wr [a] u = .refused .pv11BufferTouchedWhileBusy) ∧
      (¬ T a → populated s.platform a = false → hostAccess s wr [a] u = .fault .hostAccessOutsideMemory) := by
  have h := hostAccess_outcome (u := u) (addrs := [a]) hT (by simpa using hw)
  simpa only [List.mem_singleton, forall_eq, exists_eq_left] using h

end MemoryAccess

/-! ### 32-bit accesses by address -/

section BusAccesses
variable {s : State} {a v : Word} {n : Nat}

theorem busStore_register (ha : registerAt s.platform a.toNat = some n) : busStore a v s = regWrite n v s := by
  simp only [busStore, ha]

theorem busLoad_register (ha : registerAt s.platform a.toNat = some n) : busLoad a s = regRead n s := by
  simp only [busLoad, ha]

theorem busStore_memory (ha : registerAt s.platform a.toNat = none) :
    busStore a v s = hostAccess s true (wordAddrs a.toNat) (s.withMem (s.mem.writeAll (cells32 a.toNat v))) := by
  simp only [busStore, ha]

theorem busLoad_memory (ha : registerAt s.platform a.toNat = none) :
    busLoad a s = hostAccess s false (wordAddrs a.toNat) (s.withReply (.word (s.mem.read32 a.toNat))) := by
  simp only [busLoad, ha]

/-- A 32-bit access that touches a register word and starts on none is refused (log 13). -/
theorem bus_partial (ha : registerAt s.platform a.toNat = none)
    (hw : ∃ k, k < 4 ∧ inRegisterWindow s.platform (a.toNat + k) = true) :
    busStore a v s = .refused .partialRegisterAccess ∧ busLoad a s = .refused .partialRegisterAccess := by
  rw [busStore_memory ha, busLoad_memory ha]
  exact ⟨hostAccess_register (exists_mem_wordAddrs.mpr hw), hostAccess_register (exists_mem_wordAddrs.mpr hw)⟩

end BusAccesses

/-! ### The statements -/

/-- Settles O13. -/
theorem registerWordsAreTheRegisters : Obligations.RegisterWordsAreTheRegisters := by
  intro s n a v b rest hn
  refine ⟨fun ha => ?_, fun k hk ha => ?_, fun hlo hhi => ?_⟩
  · have hreg : registerAt s.platform a.toNat = some n := ha ▸ registerAt_word hn
    exact ⟨fun he => (step_eq_handle he).trans (busStore_register hreg),
      fun he => (step_eq_handle he).trans (busLoad_register hreg)⟩
  · have hbyte : inRegisterWindow s.platform a.toNat = true := inRegisterWindow_iff.mpr (by omega)
    have hin : ∃ x ∈ [a.toNat], inRegisterWindow s.platform x = true := ⟨_, List.mem_singleton_self _, hbyte⟩
    refine ⟨fun he => (step_eq_handle he).trans (hostAccess_register hin),
      fun he => (step_eq_handle he).trans (hostAccess_register hin), fun hk0 => ?_⟩
    obtain ⟨hstore, hload⟩ := bus_partial (s := s.withEvents rest) (v := v)
      (ha ▸ registerAt_inside_word hk0 hk) ⟨0, by decide, hbyte⟩
    exact ⟨fun he => (step_eq_handle he).trans hstore, fun he => (step_eq_handle he).trans hload⟩
  · have hin : inRegisterWindow s.platform (a.toNat + 3) = true := inRegisterWindow_iff.mpr (by omega)
    obtain ⟨hstore, hload⟩ := bus_partial (s := s.withEvents rest) (v := v) (registerAt_below hlo) ⟨3, by decide, hin⟩
    exact ⟨fun he => (step_eq_handle he).trans hstore, fun he => (step_eq_handle he).trans hload⟩

/-- Settles O30: the outcomes of an access, and what a write leaves at each address. -/
theorem agentWriteAcceptedAndStores : Obligations.AgentWriteAcceptedAndStores := by
  constructor
  · intro s a b rest he hm hw
    have hstep : step s = hostAccess (s.withEvents rest) true [a.toNat] _ := step_eq_handle he
    rw [hstep]
    obtain ⟨hnext, hrefused, hfault⟩ := hostAccess_singleton_outcome (s := s.withEvents rest)
      (u := (s.withEvents rest).withMem (s.mem.write a.toNat b)) (fun _ => touchesRunning_write_iff) hw
    refine ⟨hnext, fun t ht => ?_, hrefused, hfault⟩
    obtain ⟨rfl, -⟩ := hostAccess_next ht
    exact ⟨Memory.read_write hm a.toNat b, rfl, rfl, rfl, rfl, rfl, rfl⟩
  · intro s a v rest he hm hw
    have hstep : step s = hostAccess (s.withEvents rest) true (wordAddrs a.toNat) _ :=
      (step_eq_handle he).trans (busStore_memory (registerAt_outside (hw 0 (by decide))))
    rw [hstep]
    obtain ⟨hnext, hrefused, hfault⟩ := hostAccess_wordAddrs_outcome (s := s.withEvents rest)
      (u := (s.withEvents rest).withMem (s.mem.writeAll (cells32 a.toNat v))) (fun _ => touchesRunning_write_iff) hw
    refine ⟨hnext, fun t ht => ?_, hrefused, hfault⟩
    obtain ⟨rfl, -⟩ := hostAccess_next ht
    refine ⟨fun k hk => Memory.read_writeAll_cells32 hm v hk, fun x hx => ?_, rfl, rfl, rfl, rfl, rfl, rfl⟩
    refine Memory.read_writeAll_of_not_mem hm fun c hc hcx => ?_
    have := mem_cells32 hc
    omega

/-- Settles O31. -/
theorem agentReadAcceptedAndHarmless : Obligations.AgentReadAcceptedAndHarmless := by
  constructor
  · intro s a rest he hw
    have hstep : step s = hostAccess (s.withEvents rest) false [a.toNat] _ := step_eq_handle he
    rw [hstep]
    obtain ⟨hnext, hrefused, hfault⟩ := hostAccess_singleton_outcome (s := s.withEvents rest)
      (u := (s.withEvents rest).withReply (.byte (s.mem.read a.toNat))) (fun _ => touchesRunning_read_iff) hw
    exact ⟨hnext, fun t ht => (hostAccess_next ht).1, hrefused, hfault⟩
  · intro s a rest he hw
    have hstep : step s = hostAccess (s.withEvents rest) false (wordAddrs a.toNat) _ :=
      (step_eq_handle he).trans (busLoad_memory (registerAt_outside (hw 0 (by decide))))
    rw [hstep]
    obtain ⟨hnext, hrefused, hfault⟩ := hostAccess_wordAddrs_outcome (s := s.withEvents rest)
      (u := (s.withEvents rest).withReply (.word (s.mem.read32 a.toNat))) (fun _ => touchesRunning_read_iff) hw
    exact ⟨hnext, fun t ht => ⟨_, (hostAccess_next ht).1, fun k hk => Memory.extractLsb'_read32 s.mem hk⟩,
      hrefused, hfault⟩

end Sys2Proof.Machine
end

section
/-! What the engines do in a step (R14, R24, R132, R145, R148): the command in flight, the other engines, reset, and
how `BUSY`, `DONE` and the operand registers change. -/

namespace Sys2Proof.Machine

/-! ### The engine's move and the idle machine -/

section Moves
variable {s : State} {i : Instr}

theorem State.withEvents_self {es : List Event} (he : s.events = es) : s.withEvents es = s := by
  subst he; rfl

theorem engineTurn_idle (hb : s.engine.busy = false) : engineTurn s = .next s := by
  simp [engineTurn, hb]

/-- The move of a busy engine is the effect of the command in flight (R24). -/
theorem engineTurn_busy (hb : s.engine.busy = true) (hi : decode s.engine.command = .ok i) :
    engineTurn s = exec i s := by
  simp only [engineTurn, hb, if_true, hi]

theorem idleTurn_busy (hb : s.engine.busy = true) (hi : decode s.engine.command = .ok i) : idleTurn s = exec i s := by
  rw [idleTurn, if_pos hb, engineTurn_busy hb hi]

theorem idleTurn_idle (hb : s.engine.busy = false) : idleTurn s = othersTurn s := by
  simp [idleTurn, hb]

/-- With nothing asked, or a `WAIT` that has not read `DONE` = 1, the machine moves by itself (R55, R148). -/
theorem step_eq_idleTurn (h : s.events = [] ∨ ∃ rest, s.events = .wait :: rest ∧ s.engine.done = false) :
    step s = idleTurn s := by
  rcases h with he | ⟨rest, he, hd⟩
  · rw [step, advance, he]
  · have hwait : step s = waitTurn (s.withEvents rest) := step_eq_handle he
    rw [hwait, waitTurn, if_neg (by simp [hd]), State.withEvents_events]
    exact congrArg idleTurn (State.withEvents_self he)

/-- The poll of `WAIT` that finds `DONE` = 1 is a read of `STATUS` (R55). -/
theorem waitTurn_done (hd : s.engine.done = true) : waitTurn s = .next (s.withReply (.word (statusWord s.engine))) :=
  if_pos hd

theorem regRead_status : regRead 6 s = .next (s.withReply (.word (statusWord s.engine))) := by
  simp [regRead]

end Moves

/-- `STATUS` is `BUSY` in bit 0, `DONE` in bit 1, and 0 above (R14). -/
theorem statusWord_bits (e : Engine) :
    (statusWord e).getLsbD 0 = e.busy ∧ (statusWord e).getLsbD 1 = e.done ∧
      (statusWord e).extractLsb' 2 30 = 0#30 := by
  unfold statusWord
  generalize e.busy = b
  generalize e.done = d
  revert b d
  decide

/-- After a completion `STATUS` reads as `DONE` alone (R14, R24). -/
theorem statusWord_completed (e : Engine) : statusWord e.completed = 2#32 := by
  simp [statusWord]

/-! ### Engines that are not at hand -/

section OtherEngines
variable {s u : State} {k : Nat} {e : Engine}

theorem State.selectEngine_of_some (hk : s.others[k]? = some e) :
    s.selectEngine k = { s with engine := e, others := s.others.set k s.engine } := by
  simp only [State.selectEngine, hk]

theorem State.selectEngine_of_length_le (hk : s.others.length ≤ k) : s.selectEngine k = s := by
  simp [State.selectEngine, hk]

/-- Engine `k` works at hand and goes back: it stands in its place as it then is, and the engine that was at hand is at
hand again (R132). -/
theorem State.selectEngine_back (hk : s.others[k]? = some e) (hu : u.others = (s.selectEngine k).others) :
    u.selectEngine k = { u with engine := s.engine, others := s.others.set k u.engine } := by
  obtain ⟨hlt, -⟩ := List.getElem?_eq_some_iff.mp hk
  rw [State.selectEngine_of_some hk] at hu
  have hat : u.others[k]? = some s.engine := by simp [hu, hlt]
  rw [State.selectEngine_of_some hat, hu, List.set_set]

theorem othersTurn_idle (h : ∀ e ∈ s.others, e.busy = false) : othersTurn s = .next s := by
  have hnone : s.others.findIdx? (·.busy) = none := List.findIdx?_eq_none_iff.mpr h
  rw [othersTurn, hnone]

/-- The first busy one of the other engines moves (R132, R148). -/
theorem othersTurn_busy (hk : s.others[k]? = some e) (hb : e.busy = true)
    (hfirst : ∀ j e', j < k → s.others[j]? = some e' → e'.busy = false) {i : Instr} (hi : decode e.command = .ok i) :
    othersTurn s = onNext (exec i (s.selectEngine k)) (·.selectEngine k) := by
  have hfind : s.others.findIdx? (·.busy) = some k := by
    obtain ⟨hlt, he⟩ := List.getElem?_eq_some_iff.mp hk
    refine List.findIdx?_eq_some_iff_getElem.mpr ⟨hlt, by rw [he, hb], fun j hj => ?_⟩
    rw [hfirst j _ hj (List.getElem?_eq_getElem (hj.trans hlt))]
    exact Bool.false_ne_true
  have hengine : (s.selectEngine k).engine = e := by rw [State.selectEngine_of_some hk]
  rw [othersTurn, hfind]
  simp only [engineTurn_busy (s := s.selectEngine k) (hengine ▸ hb) (hengine ▸ hi)]

end OtherEngines

/-! ### How a step changes the engines -/

/-- Every engine that is not at hand is as it was, or has completed its own command. -/
def OthersKeptOrCompleted (es es' : List Engine) : Prop :=
  es'.length = es.length ∧
    ∀ (k : Nat) (e : Engine), es[k]? = some e → es'[k]? = some e ∨ (e.busy = true ∧ es'[k]? = some e.completed)

/-- What a step that brings no other engine to hand makes of the engine `e` at hand. `cmd` says that the step takes a
write of `CMD`, and `rst` that it takes a reset. -/
inductive EngineChange (cmd rst : Prop) (e e' : Engine) : Prop
  /-- Nothing. -/
  | kept : e' = e → EngineChange cmd rst e e'
  /-- An operand register of the idle engine is written (R21). -/
  | operand (n : Nat) (v : Word) : e.busy = false → e' = e.setOperand n v → EngineChange cmd rst e e'
  /-- A write of `CMD` launches a command (R23). -/
  | launched (w : Word) : e.busy = false → cmd → e' = e.launched w → EngineChange cmd rst e e'
  /-- The command in flight completes (R24). -/
  | completed : e.busy = true → e' = e.completed → EngineChange cmd rst e e'
  /-- The engine is reset (R145). -/
  | reset : rst → e' = Engine.afterReset → EngineChange cmd rst e e'

/-- The status bits and operand registers that every change leaves as R14 and R20 say. -/
theorem EngineChange.status_and_operands {cmd rst : Prop} {e e' : Engine} (h : EngineChange cmd rst e e') :
    (e.busy = true → ¬ rst → ∀ n, e'.operand n = e.operand n) ∧
      (e.busy = false → e'.busy = true → cmd) ∧
      (e.busy = true → e'.busy = false → e'.done = true ∨ rst) ∧
      (e.done = false → e'.done = true → e.busy = true ∧ e'.busy = false) ∧
      (e.done = true → e'.done = false → cmd ∨ rst) := by
  cases h with
  | kept he => simp +contextual [he]
  | operand n v hb he => simp +contextual [he, hb]
  | launched w hb hcmd he => simp [he, hb, hcmd]
  | completed hb he => simp [he, hb]
  | reset hr he => simp [he, hr]

/-- The two together, from state to state. -/
def EnginesChange (cmd rst : Prop) (s t : State) : Prop :=
  OthersKeptOrCompleted s.others t.others ∧ EngineChange cmd rst s.engine t.engine

section Changes
variable {s t : State} {cmd rst : Prop}

/-- A step that leaves the engines that are not at hand alone. -/
theorem enginesChange_of_others_eq (ho : t.others = s.others) (he : EngineChange cmd rst s.engine t.engine) :
    EnginesChange cmd rst s t :=
  ⟨⟨by rw [ho], fun _ _ hk => .inl (by rw [ho, hk])⟩, he⟩

/-- Another engine's completion changes that engine alone (R132). -/
theorem othersTurn_change (h : othersTurn s = .next t) : EnginesChange cmd rst s t := by
  have hkept : EngineChange cmd rst s.engine t.engine := .kept (othersTurn_engine h)
  unfold othersTurn at h
  split at h
  · next k hfind =>
    obtain ⟨hlt, hb, -⟩ := List.findIdx?_eq_some_iff_getElem.mp hfind
    have hk : s.others[k]? = some s.others[k] := List.getElem?_eq_getElem hlt
    obtain ⟨u, hu, rfl⟩ := onNext_next h
    rcases engineTurn_next hu with ⟨-, rfl⟩ | ⟨i, -, -, he⟩
    · exact enginesChange_of_others_eq (by rw [State.selectEngine_selectEngine]) hkept
    · obtain ⟨hengine, hothers, -⟩ := exec_frame he
      refine ⟨?_, hkept⟩
      rw [State.selectEngine_back hk hothers, hengine, State.selectEngine_of_some hk]
      refine ⟨List.length_set, fun j e hj => ?_⟩
      by_cases hjk : k = j
      · subst hjk
        obtain rfl : s.others[k] = e := Option.some.inj (hk.symm.trans hj)
        exact .inr ⟨hb, by simp [hlt]⟩
      · exact .inl (by rw [List.getElem?_set_ne hjk, hj])
  · cases h
    exact enginesChange_of_others_eq rfl hkept

theorem engineTurn_change (h : engineTurn s = .next t) : EnginesChange cmd rst s t := by
  rcases engineTurn_next h with ⟨-, rfl⟩ | ⟨i, hb, -, he⟩
  · exact enginesChange_of_others_eq rfl (.kept rfl)
  · obtain ⟨hengine, hothers, -⟩ := exec_frame he
    exact enginesChange_of_others_eq hothers (.completed hb hengine)

theorem idleTurn_change (h : idleTurn s = .next t) : EnginesChange cmd rst s t := by
  unfold idleTurn at h
  split at h
  · exact engineTurn_change h
  · exact othersTurn_change h

theorem waitTurn_change (h : waitTurn s = .next t) : EnginesChange cmd rst s t := by
  unfold waitTurn at h
  split at h
  · cases h
    exact enginesChange_of_others_eq rfl (.kept rfl)
  · exact idleTurn_change (s := s.withEvents (.wait :: s.events)) h

theorem regWrite_change {n : Nat} {v : Word} (h : regWrite n v s = .next t) (hcmd : n = 5 → cmd) :
    EnginesChange cmd rst s t := by
  obtain ⟨hb, ⟨-, rfl⟩ | ⟨hn, hl⟩⟩ := regWrite_next h
  · exact enginesChange_of_others_eq rfl (.operand n v hb rfl)
  · obtain ⟨i, l, -, -, -, rfl⟩ := launch_next hl
    exact enginesChange_of_others_eq rfl (.launched v hb (hcmd hn) rfl)

theorem regRead_change {n : Nat} (h : regRead n s = .next t) : EnginesChange cmd rst s t := by
  obtain ⟨v, rfl, -⟩ := regRead_next h
  exact enginesChange_of_others_eq rfl (.kept rfl)

theorem hostAccess_change {u : State} {wr : Bool} {addrs : List Nat} (h : hostAccess s wr addrs u = .next t)
    (ho : u.others = s.others) (he : u.engine = s.engine) : EnginesChange cmd rst s t := by
  obtain ⟨rfl, -⟩ := hostAccess_next h
  exact enginesChange_of_others_eq ho (.kept he)

theorem resetEngine_change (h : resetEngine s = .next t) (hrst : rst) : EnginesChange cmd rst s t := by
  refine enginesChange_of_others_eq ?_ (.reset hrst (resetEngine_engine h))
  rcases resetEngine_next h with ⟨-, rfl⟩ | ⟨l, -, -, rfl⟩ <;> rfl

/-- How an event that brings no other engine to hand changes the engines. -/
theorem handle_change {ev : Event} (h : handle ev s = .next t) (hsel : ∀ k, ev ≠ .select k)
    (hcmd : (∃ w, ev = .regWrite 5 w) ∨ (∃ a w, ev = .busStore a w ∧ registerAt s.platform a.toNat = some 5) → cmd)
    (hrst : ev = .reset → rst) : EnginesChange cmd rst s t := by
  cases ev with
  | regWrite n v => exact regWrite_change h fun hn => hcmd (.inl ⟨v, by rw [hn]⟩)
  | regRead n => exact regRead_change h
  | wait => exact waitTurn_change h
  | busStore a v =>
    have h : busStore a v s = .next t := h
    cases hreg : registerAt s.platform a.toNat with
    | some n =>
      rw [busStore_register hreg] at h
      exact regWrite_change h fun hn => hcmd (.inr ⟨a, v, rfl, by rw [hreg, hn]⟩)
    | none =>
      rw [busStore_memory hreg] at h
      exact hostAccess_change h rfl rfl
  | busLoad a =>
    have h : busLoad a s = .next t := h
    cases hreg : registerAt s.platform a.toNat with
    | some n =>
      rw [busLoad_register hreg] at h
      exact regRead_change h
    | none =>
      rw [busLoad_memory hreg] at h
      exact hostAccess_change h rfl rfl
  | storeByte a b => exact hostAccess_change (u := s.withMem _) h rfl rfl
  | loadByte a => exact hostAccess_change (u := s.withReply _) h rfl rfl
  | engineTurn => exact engineTurn_change h
  | select k => exact absurd rfl (hsel k)
  | reset => exact resetEngine_change h (hrst rfl)

/-- How any step that brings no other engine to hand changes the engines. -/
theorem step_change (h : step s = .next t) (hsel : ¬ IsSelect s) : EnginesChange (IsCommandWrite s) (IsReset s) s t := by
  cases hev : s.events with
  | nil =>
    rw [step_eq_idleTurn (.inl hev)] at h
    exact idleTurn_change h
  | cons ev rest =>
    rw [step_eq_handle hev] at h
    refine handle_change (s := s.withEvents rest) h ?_ ?_ ?_
    · rintro k rfl
      exact hsel ⟨k, rest, hev⟩
    · rintro (⟨w, rfl⟩ | ⟨a, w, rfl, hreg⟩)
      · exact .inl ⟨w, rest, hev⟩
      · exact .inr ⟨a, w, rest, hev, hreg⟩
    · rintro rfl
      exact ⟨rest, hev⟩

end Changes

/-- Settles O36, by the five ways a step changes the engine at hand. -/
theorem busyDoneAndOperandsChangeOnlyAsStated : Obligations.BusyDoneAndOperandsChangeOnlyAsStated := by
  intro s t h hsel
  obtain ⟨⟨hlength, hothers⟩, hchange⟩ := step_change h hsel
  obtain ⟨hoperands, hbusy, hidle, hdone, hundone⟩ := hchange.status_and_operands
  exact ⟨hoperands, hbusy, hidle, hdone, hundone, hlength, hothers⟩

/-! ### Reset -/

/-- The regions of a command in flight are those of its operand registers (R20). -/
theorem launchOf_of_running {e : Engine} {l : Launch} (h : e.running = some l) : ∃ i, launchOf i e = some l := by
  unfold Engine.running at h
  split at h
  · split at h
    · exact ⟨_, h⟩
    · cases h
  · cases h

/-- A launch's regions have samples of at least one byte, so the check of `PV11` is the condition of R45. -/
theorem othersConflict_of_launchOf {i : Instr} {e : Engine} {s : State} {l : Launch} (hl : launchOf i e = some l) :
    othersConflict s l = false ↔ OthersApart s l := by
  obtain ⟨hsrc, hdst, -⟩ := launchOf_regions hl
  exact othersConflict_eq_false_iff (hsrc ▸ sampleSize_pos i) (hdst ▸ sampleSize_pos i)

/-- Settles O14: the abandoned command's bytes lie in its destination footprint, and everything else of the state is
`Engine.afterReset` or as before. -/
theorem resetPutsTheEngineInTheResetState : Obligations.ResetPutsTheEngineInTheResetState := by
  intro s rest he hm hapart
  have hstep : step s = resetEngine (s.withEvents rest) := step_eq_handle he
  have hreset : statusWord Engine.afterReset = 0#32 := by decide
  cases hr : s.engine.running with
  | none =>
    refine ⟨(s.withEvents rest).withEngine Engine.afterReset, ?_, ⟨rfl, rfl, rfl, rfl, rfl, rfl, rfl⟩, hreset,
      rfl, rfl, rfl, rfl, fun _ => rfl, nofun⟩
    rw [hstep, resetEngine, State.withEvents_engine, hr]
  | some l =>
    obtain ⟨i, hl⟩ := launchOf_of_running hr
    have hc : othersConflict (s.withEvents rest) l = false := (othersConflict_of_launchOf hl).mpr (hapart l hr)
    refine ⟨(((s.withEvents rest).withMem (s.mem.writeAll (abandonedCells (s.withEvents rest) l.dst))).withEngine
      Engine.afterReset).afterDraw, ?_, ⟨rfl, rfl, rfl, rfl, rfl, rfl, rfl⟩, hreset, rfl, rfl, rfl, rfl, nofun,
      fun l' hl' a ha => ?_⟩
    · rw [hstep, resetEngine, State.withEvents_engine, hr]
      simp [hc]
    · obtain rfl : l = l' := Option.some.inj hl'
      refine Memory.read_writeAll_of_not_mem hm fun c hcell hca => ha ?_
      simp only [abandonedCells, List.mem_map, Region.mem_bytes] at hcell
      obtain ⟨b, hb, rfl⟩ := hcell
      exact hca ▸ hb

/-! ### Commands in flight -/

/-- Settles O22. -/
theorem commandsRunOnlyUnderTheContract : Obligations.CommandsRunOnlyUnderTheContract := by
  intro i s t h
  obtain ⟨l, -, hl, hv, hc, -⟩ := exec_next h
  have hapart := (othersConflict_of_launchOf hl).mp hc
  obtain ⟨src, dst, stride, w, hh, ho, rfl⟩ := holds_of_launchOf hl
  exact ⟨src, dst, stride, w, hh, ho, violation_eq_none_iff_meetsContract.mp hv, hapart⟩

/-- `DEQS` under its contract, with a product that does not fit, is `PV10` (R109). -/
theorem exec_deqs_refused {s : State} {src dst stride w h : Word} (hr : RunsOn .deqs s src dst stride w h)
    (hfit : ¬ DeqsProductsFit s (launchWords .deqs src dst stride w h).dst) :
    exec .deqs s = .refused .pv10ProductOutOfRange := by
  obtain ⟨hl, hv, hc, -⟩ := checks_of_runsOn hr
  rw [exec_deqs_eq hl hv hc, if_neg (deqsInRange_iff.not.mpr hfit)]

/-- Settles O37: by the invariant the operands of the command in flight meet the contract, and what is left to decide are
the other engines and the products. -/
theorem commandInFlightCompletes : Obligations.CommandInFlightCompletes := by
  rintro s ⟨hm, -, ⟨-, hinv⟩, -⟩ hb he
  obtain ⟨i, l, hi, hl, hv⟩ := hinv hb
  obtain ⟨src, dst, stride, w, h, ho, rfl⟩ := holds_of_launchOf hl
  have hmeets := violation_eq_none_iff_meetsContract.mp hv
  have hstep : step s = exec i s := (step_eq_idleTurn (.inl he)).trans (idleTurn_busy hb hi)
  refine ⟨i, _, hi, Engine.running_eq hb hi ho, fun hapart hfit => ?_, fun hapart => ?_, fun hapart hdeqs hfit => ?_⟩
  · obtain ⟨t, ht⟩ := exists_exec_next ⟨ho, hmeets, hapart, hm⟩ hfit
    obtain ⟨hengine, -⟩ := exec_frame ht
    exact ⟨t, hstep.trans ht, by rw [hengine, Engine.completed_done], by rw [hengine, Engine.completed_busy]⟩
  · exact hstep.trans (conflictingCommandIsRefused i s src dst stride w h ho hmeets hapart)
  · subst hdeqs
    exact hstep.trans (exec_deqs_refused ⟨ho, hmeets, hapart, hm⟩ hfit)

/-- Settles O57: the other engine's command runs at hand, and then the two engines change places again. -/
theorem otherEnginesComplete : Obligations.OtherEnginesComplete := by
  intro s k e i src dst stride w h hb hasked hk heb hfirst hi hr hfit
  have hselect := State.selectEngine_of_some hk
  rw [← hselect] at hr ⊢
  obtain ⟨t, ht⟩ := exists_exec_next hr fun hdeqs => by
    rw [hselect]
    exact hfit hdeqs
  obtain ⟨hengine, hothers, -⟩ := exec_frame ht
  refine ⟨t, ht, ?_⟩
  rw [step_eq_idleTurn hasked, idleTurn_idle hb, othersTurn_busy hk heb hfirst hi, ht, onNext,
    State.selectEngine_back hk hothers, hengine, hselect]
  rfl

/-- Settles O4. -/
theorem engineMoveRunsTheCommandInFlight : Obligations.EngineMoveRunsTheCommandInFlight := by
  intro s i hb hi
  exact ⟨fun rest he => (step_eq_handle he).trans (engineTurn_busy (s := s.withEvents rest) hb hi),
    fun he => (step_eq_idleTurn (.inl he)).trans (idleTurn_busy hb hi),
    fun rest he hd => (step_eq_idleTurn (.inr ⟨rest, he, hd⟩)).trans (idleTurn_busy hb hi)⟩

/-- A command word placed as a number is that word. -/
theorem ofNat_toNat_mod (w : Word) : BitVec.ofNat 32 (w.toNat % 2 ^ 32) = w := by
  rw [Nat.mod_eq_of_lt w.isLt, BitVec.ofNat_toNat, BitVec.setWidth_eq]

/-- Settles O5: the placed word is in flight, and the engine's move is the next event. -/
theorem placedCommandRunsNext : Obligations.PlacedCommandRunsNext := by
  intro s i
  rw [State.withFetchWord, ofNat_toNat_mod]
  exact (engineMoveRunsTheCommandInFlight _ i rfl (decode_encode i)).1 s.events rfl

/-- Settles O11: both reads give the status word. -/
theorem statusReadsBusyAndDone : Obligations.StatusReadsBusyAndDone := by
  intro s rest hev
  refine ⟨statusWord s.engine, ?_, statusWord_bits s.engine⟩
  rcases hev with he | ⟨he, hd⟩
  · exact (step_eq_handle he).trans regRead_status
  · exact (step_eq_handle he).trans (waitTurn_done (s := s.withEvents rest) hd)

/-- Settles O58. -/
theorem idleEngineHoldsItsRegisters : Obligations.IdleEngineHoldsItsRegisters := by
  refine ⟨fun s rest he hb => (step_eq_handle he).trans (engineTurn_idle (s := s.withEvents rest) hb),
    fun s hasked hidle => ?_, fun s k rest he => ?_⟩
  · obtain ⟨hb, hothers⟩ := List.forall_mem_cons.mp hidle
    rw [step_eq_idleTurn hasked, idleTurn_idle hb, othersTurn_idle hothers]
  · have hstep : step s = .next ((s.withEvents rest).selectEngine k) := step_eq_handle he
    refine ⟨fun e hk => ?_, fun hk => ?_⟩
    · rw [hstep, State.selectEngine_of_some (s := s.withEvents rest) hk]
      rfl
    · rw [hstep, State.selectEngine_of_length_le (s := s.withEvents rest) hk]
      rfl

/-! ### The pseudo-instruction -/

section Runs
variable {s t : State}

theorem run_succ {n : Nat} (h : step s = .next t) :
    Host.Core.run Sys2Proof.core (n + 1) s = Host.Core.run Sys2Proof.core n t := by
  have hstep : Sys2Proof.core.step s = .next t := h
  simp only [Host.Core.run, hstep]

/-- Operand writes on an idle engine, one after another, in front of other events (R21). -/
theorem run_operandWrites {n : Nat} {writes : List (Nat × Word)} (hn : ∀ p ∈ writes, p.1 < 5) {rest : List Event}
    {s : State} (hb : s.engine.busy = false) (he : s.events = writes.map (fun p => .regWrite p.1 p.2) ++ rest) :
    Host.Core.run Sys2Proof.core (writes.length + n) s =
      Host.Core.run Sys2Proof.core n
        ((s.withEngine (writes.foldl (fun e p => e.setOperand p.1 p.2) s.engine)).withEvents rest) := by
  induction writes generalizing s with
  | nil =>
    rw [List.length_nil, Nat.zero_add]
    exact congrArg _ (State.withEvents_self he).symm
  | cons p writes ih =>
    obtain ⟨hp, hrest⟩ := List.forall_mem_cons.mp hn
    rw [List.length_cons, Nat.add_right_comm,
      run_succ ((step_eq_handle he).trans (regWrite_operand_idle (s := s.withEvents _) hp hb)),
      ih hrest (by simpa using hb) rfl]
    rfl

/-- The write of `CMD` on an idle engine and the `WAIT` after it, where the command runs: the launch, the completion that
the first poll lets happen, and the last poll, which reads `DONE` = 1 (R23, R24, R55). -/
theorem run_commandAndWait {i : Instr} {rest : List Event} (hb : s.engine.busy = false)
    (he : s.events = .regWrite 5 (encode i) :: .wait :: rest)
    (hexec : exec i ((s.withEvents (.wait :: rest)).withEngine (s.engine.launched (encode i))) = .next t) :
    Host.Core.run Sys2Proof.core 3 s = .next ((t.withEvents rest).withReply (.word 2#32)) := by
  set running := (s.withEvents (.wait :: rest)).withEngine (s.engine.launched (encode i))
  obtain ⟨l, cells, hl, hv, -, -, ht⟩ := exec_next hexec
  have hlaunch : step s = .next running :=
    (step_eq_handle he).trans
      ((regWrite_command_idle (s := s.withEvents (.wait :: rest)) hb).trans (launch_eq (decode_encode i) hl hv))
  have hcomplete : step running = .next t :=
    (step_eq_idleTurn (.inr ⟨rest, rfl, rfl⟩)).trans ((idleTurn_busy rfl (decode_encode i)).trans hexec)
  have hwait : step t = .next ((t.withEvents rest).withReply (.word 2#32)) := by
    have hev : t.events = .wait :: rest := by rcases ht with rfl | rfl <;> rfl
    obtain ⟨hengine, -⟩ := exec_frame hexec
    rw [← statusWord_completed running.engine, ← hengine]
    exact (step_eq_handle hev).trans (waitTurn_done (s := t.withEvents rest) (by
      rw [State.withEvents_engine, hengine, Engine.completed_done]))
  exact (run_succ (n := 2) hlaunch).trans ((run_succ (n := 1) hcomplete).trans (run_succ (n := 0) hwait))

end Runs

/-- The operand writes of a command's expansion as pairs of register and value (R56). -/
def operandPairs (i : Instr) (src dst stride w h : Word) : List (Nat × Word) :=
  (match shapeOf i with
    | .twoBuffer => [(0, src)]
    | .inPlace => []) ++ [(1, dst), (2, stride), (3, w), (4, h)]

theorem operandWrites_eq_map (i : Instr) (src dst stride w h : Word) :
    operandWrites i src dst stride w h = (operandPairs i src dst stride w h).map fun p => .regWrite p.1 p.2 := by
  unfold operandWrites operandPairs
  cases shapeOf i <;> rfl

theorem operandPairs_lt {i : Instr} {src dst stride w h : Word} : ∀ p ∈ operandPairs i src dst stride w h, p.1 < 5 := by
  unfold operandPairs
  cases shapeOf i <;> simp

theorem foldl_operandPairs (i : Instr) (e : Engine) (src dst stride w h : Word) :
    (operandPairs i src dst stride w h).foldl (fun e p => e.setOperand p.1 p.2) e =
      afterOperandWrites i e src dst stride w h := by
  unfold operandPairs afterOperandWrites
  cases shapeOf i <;> rfl

/-- Settles O39: the operand writes, and then the command and its `WAIT`. -/
theorem pseudoInstructionIsASynchronousCall : Obligations.PseudoInstructionIsASynchronousCall := by
  intro i s t src dst stride w h rest hb he hexec
  have hreplies : t.replies = s.replies := by
    obtain ⟨l, cells, -, -, -, -, rfl | rfl⟩ := exec_next hexec <;> rfl
  rw [pseudoInstruction, operandWrites_eq_map, List.append_assoc] at he
  rw [operandWrites_eq_map, List.length_map, ← hreplies]
  refine (run_operandWrites operandPairs_lt hb he).trans (run_commandAndWait (t := t) (rest := rest) (i := i) ?_ rfl ?_)
  · rw [State.withEvents_engine, State.withEngine_engine, foldl_operandPairs]
    exact hb
  · rw [foldl_operandPairs]
    exact hexec

end Sys2Proof.Machine
end

section
/-! Division (R71), signed zeros and infinities, and the round trip of float quantization within tolerance (R81). -/

namespace Sys2Proof.Machine

/-! ### Division -/

theorem significand_ne_zero {s : Bool} {e : Fin 255} {f : Fin 8388608} (h : f32ToRat (.fin s e f) ≠ 0) :
    significand e f ≠ 0 := fun h0 => h (by
  rw [f32ToRat_fin, signedInt_eq_zero_iff.mpr h0, Int.cast_zero, zero_mul])

/-- An even multiple of `P` is on the same side of `v` as of the odd multiple that stands for `v`. -/
theorem sticky_compare {v P : Rat} {q : Nat} (hP : 0 < P) (hlo : 2 * q * P < v) (hhi : v < (2 * q + 2) * P) (a : Int) :
    (2 * a * P ≤ (2 * q + 1) * P → 2 * a * P < v) ∧ ((2 * q + 1) * P ≤ 2 * a * P → v < 2 * a * P) := by
  constructor
  · intro h
    have ha : 2 * a ≤ 2 * q + 1 := by exact_mod_cast le_of_mul_le_mul_right h hP
    have haq : (a : Rat) ≤ q := by exact_mod_cast (by omega : a ≤ q)
    refine lt_of_le_of_lt ?_ hlo
    gcongr
  · intro h
    have ha : 2 * (q : Int) + 1 ≤ 2 * a := by exact_mod_cast le_of_mul_le_mul_right h hP
    have haq : (q : Rat) + 1 ≤ a := by exact_mod_cast (by omega : (q : Int) + 1 ≤ a)
    refine hhi.trans_le ?_
    gcongr
    linarith

/-- The unit in the last place of a number with at least 28 bits in units of `2^p` is `4 * 2^p` or more. -/
theorem RoundsTo.le_exponent {p : Int} {m k n : Nat} (h : RoundsTo (m * 2 ^ p) k n) (hm : 2 ^ 27 ≤ m) :
    p + 2 ≤ (k : Int) - 149 := by
  by_contra hno
  have hP : (0 : Rat) < 2 ^ p := by positivity
  have hpow : (2 : Rat) ^ ((k : Int) - 149) ≤ 2 ^ (p + 1) := zpow_le_zpow_right₀ one_le_two (by omega)
  have hm' : (134217728 : Rat) ≤ m := by exact_mod_cast hm
  rw [zpow_add_one₀ two_ne_zero] at hpow
  nlinarith [h.lt]

/-- A number strictly between two neighbouring even multiples of `2^p` rounds as the odd multiple between them does, if
that has at least 28 bits: no bound or tie of the rounding lies between the two. -/
theorem RoundsTo.of_sticky {v : Rat} {p : Int} {q k n : Nat} (h : RoundsTo ((2 * q + 1 : Nat) * 2 ^ p) k n)
    (hq : 2 ^ 26 ≤ q) (hlo : 2 * q * 2 ^ p < v) (hhi : v < (2 * q + 2) * 2 ^ p) : RoundsTo v k n := by
  have hP : (0 : Rat) < 2 ^ p := by positivity
  have hunit := h.le_exponent (by omega)
  have hlt := h.lt
  have hnear := h.near
  have hge := h.ge
  push_cast at hlt hnear hge
  have hU : (2 : Rat) ^ ((k : Int) - 149) = 4 * (2 ^ ((k : Int) - 149 - (p + 2)).toNat * 2 ^ p) := by
    rw [← two_pow_toNat_mul hunit, zpow_add₀ two_ne_zero]
    ring
  rw [hU] at hlt hnear hge
  have hside := fun c : Int => sticky_compare hP hlo hhi (c * 2 ^ ((k : Int) - 149 - (p + 2)).toNat)
  push_cast at hside
  generalize (2 : Rat) ^ ((k : Int) - 149 - (p + 2)).toNat = D at hU hlt hnear hge hside
  obtain ⟨hnlo, hnhi⟩ := abs_le.mp hnear
  have hbelow := (hside (2 * n - 1)).1 (by push_cast; linarith)
  have habove := (hside (2 * n + 1)).2 (by push_cast; linarith)
  push_cast at hbelow habove
  have hstrict : |(n : Rat) * (4 * (D * 2 ^ p)) - v| < 4 * (D * 2 ^ p) / 2 :=
    abs_lt.mpr ⟨by linarith, by linarith⟩
  refine ⟨le_trans (by positivity) hlo.le, ?_, ?_, ?_, fun hk => ?_⟩ <;> rw [hU]
  · exact hstrict.le
  · exact fun htie => absurd htie hstrict.ne
  · have := (hside 33554432).2 (by push_cast; linarith)
    push_cast at this
    linarith
  · have := (hside 16777216).1 (by push_cast; linarith [hge hk])
    push_cast at this
    linarith

/-- A quotient of 27 bits or more, with one more bit that says whether there is a remainder, rounds as the exact quotient
does. -/
theorem roundToF32_sticky_roundsTo {N d : Nat} (hd : d ≠ 0) (hq : 2 ^ 26 ≤ N / d) (p : Int) :
    ∃ k n, RoundsTo ((N : Rat) / d * (2 * 2 ^ p)) k n ∧
      ∀ neg, roundToF32 neg (2 * (N / d) + if N % d = 0 then 0 else 1) p = f32OfMagnitude neg (k * 8388608 + n) := by
  have hP : (0 : Rat) < 2 ^ p := by positivity
  have hd' : (0 : Rat) < d := by exact_mod_cast Nat.pos_of_ne_zero hd
  have hmod := Nat.mod_lt N (Nat.pos_of_ne_zero hd)
  have hN : (N : Rat) / d = (N / d : Nat) + (N % d : Nat) / d := by
    have hdiv : (d * (N / d : Nat) + (N % d : Nat) : Rat) = N := by exact_mod_cast Nat.div_add_mod N d
    field_simp
    exact hdiv.symm
  rw [hN]
  generalize N / d = q at hq ⊢
  generalize N % d = r at hmod ⊢
  by_cases hr : r = 0
  · obtain ⟨k, n, hround, heq⟩ := roundToF32_roundsTo (m := 2 * q) (by omega) p
    refine ⟨k, n, ?_, by simpa [hr] using heq⟩
    convert hround using 1
    rw [hr]
    push_cast
    ring
  · obtain ⟨k, n, hround, heq⟩ := roundToF32_roundsTo (m := 2 * q + 1) (by omega) p
    have hr0 : 0 < (r : Rat) / d := div_pos (by exact_mod_cast Nat.pos_of_ne_zero hr) hd'
    have hr1 : (r : Rat) / d < 1 := (div_lt_one hd').mpr (by exact_mod_cast hmod)
    exact ⟨k, n, hround.of_sticky hq (by nlinarith) (by nlinarith), by simpa [hr] using heq⟩

/-- A quotient of two magnitudes in terms of the integers that `fdiv` divides. -/
theorem magnitude_div (m d : Nat) (x y : Int) :
    (m * 2 ^ x / (d * 2 ^ y) : Rat) = (m * 2 ^ quotientBits : Nat) / d * (2 * 2 ^ (x - y - quotientBits - 1)) := by
  have hx : (2 : Rat) ^ x = 2 ^ quotientBits * 2 * 2 ^ (x - y - quotientBits - 1) * 2 ^ y := by
    rw [← pow_succ, ← zpow_natCast, ← zpow_add₀ two_ne_zero, ← zpow_add₀ two_ne_zero]
    congr 1
    push_cast
    omega
  rw [hx]
  push_cast
  field_simp

/-- Division rounds the quotient of the magnitudes (R71): the 50 bits added to the dividend leave at least 27 bits of
it. -/
theorem fdiv_roundsTo {s t : Bool} {e e' : Fin 255} {f f' : Fin 8388608} (hm : significand e f ≠ 0)
    (hd : significand e' f' ≠ 0) : ∃ k n,
      RoundsTo (significand e f * 2 ^ ulpExponent e / (significand e' f' * 2 ^ ulpExponent e')) k n ∧
        fdiv (.fin s e f) (.fin t e' f') = f32OfMagnitude (s != t) (k * 8388608 + n) := by
  have hq : 2 ^ 26 ≤ significand e f * 2 ^ quotientBits / significand e' f' := by
    rw [Nat.le_div_iff_mul_le (Nat.pos_of_ne_zero hd)]
    calc 2 ^ 26 * significand e' f' ≤ 2 ^ 26 * 2 ^ 24 := Nat.mul_le_mul_left _ (significand_lt e' f').le
      _ = 1 * 2 ^ quotientBits := by decide
      _ ≤ significand e f * 2 ^ quotientBits := Nat.mul_le_mul_right _ (Nat.pos_of_ne_zero hm)
  obtain ⟨k, n, hround, heq⟩ :=
    roundToF32_sticky_roundsTo hd hq (ulpExponent e - ulpExponent e' - quotientBits - 1)
  exact ⟨k, n, magnitude_div _ _ _ _ ▸ hround, by simp only [fdiv, if_neg hd, heq]⟩

/-- Rounding a magnitude and putting the sign back rounds the signed value. -/
theorem RoundsTo.isRoundedValue_signed {v : Rat} {k n : Nat} (h : RoundsTo v k n) (neg : Bool) :
    IsRoundedValue (if neg then -v else v) (f32OfMagnitude neg (k * 8388608 + n)) := by
  cases neg with
  | false => exact h.isRoundedValue
  | true =>
    rw [if_pos rfl, ← Bool.not_false, f32OfMagnitude_not]
    exact h.isRoundedValue.neg

/-- A quotient is that of the magnitudes with the exclusive-or of the signs. -/
theorem f32ToRat_div (s t : Bool) (e e' : Fin 255) (f f' : Fin 8388608) :
    f32ToRat (.fin s e f) / f32ToRat (.fin t e' f') =
      if (s != t) then -((significand e f : Rat) * 2 ^ ulpExponent e / (significand e' f' * 2 ^ ulpExponent e'))
        else (significand e f : Rat) * 2 ^ ulpExponent e / (significand e' f' * 2 ^ ulpExponent e') := by
  cases s <;> cases t <;> simp [f32ToRat, neg_div, div_neg]

/-- Settles O42: a quotient of zero is exact, and `fdiv_roundsTo` rounds every other. -/
theorem divisionIsCorrectlyRounded : Obligations.DivisionIsCorrectlyRounded := by
  intro x y hx hy hy0
  obtain ⟨s, e, f, rfl⟩ := f32IsFinite_iff.mp hx
  obtain ⟨t, e', f', rfl⟩ := f32IsFinite_iff.mp hy
  have hd := significand_ne_zero hy0
  have hsign : f32IsNeg (fdiv (.fin s e f) (.fin t e' f')) = (s != t) := by
    simp only [fdiv, if_neg hd, f32IsNeg_roundToF32]
  refine ⟨?_, hsign⟩
  by_cases hm : significand e f = 0
  · have hzero := isRoundedValue_roundToF32 (s != t) 0 (ulpExponent e - ulpExponent e' - quotientBits - 1)
    rw [f32ToRat_div]
    simpa [fdiv, hd, hm, signedInt_eq_zero_iff.mpr] using hzero
  · obtain ⟨k, n, hround, heq⟩ := fdiv_roundsTo (s := s) (t := t) hm hd
    rw [f32ToRat_div, heq]
    exact hround.isRoundedValue_signed _

/-! ### The round trip of float quantization -/

/-- Below overflow and above the subnormals some finite value is within one part in `2^23` of a number: the number cut
to 24 bits. -/
theorem exists_finite_near {v : Rat} (hlo : 2 ^ (-126 : Int) ≤ v) (hhi : v < overflowBound) :
    ∃ y : F32, f32IsFinite y = true ∧ |f32ToRat y - v| ≤ v / 2 ^ 23 := by
  have hv : 0 < v := lt_of_lt_of_le (by positivity) hlo
  have hle := Int.zpow_log_le_self (b := 2) one_lt_two hv
  have hlt := Int.lt_zpow_succ_log_self (b := 2) one_lt_two v
  push_cast at hle hlt
  have hl0 : -126 ≤ Int.log 2 v := (Int.zpow_le_iff_le_log one_lt_two hv).mp (by exact_mod_cast hlo)
  have hl1 : Int.log 2 v < 128 := by
    refine (Int.lt_zpow_iff_log_lt one_lt_two hv).mp (hhi.trans ?_)
    norm_num [overflowBound]
  generalize Int.log 2 v = l at hle hlt hl0 hl1
  have hU : (0 : Rat) < 2 ^ (l - 23) := by positivity
  have hle' : 8388608 * 2 ^ (l - 23) ≤ v := by
    refine le_of_eq_of_le ?_ hle
    rw [show l = 23 + (l - 23) by ring, zpow_add₀ two_ne_zero]
    norm_num
  have hlt' : v < 16777216 * 2 ^ (l - 23) := by
    refine hlt.trans_eq ?_
    rw [show l + 1 = 24 + (l - 23) by ring, zpow_add₀ two_ne_zero]
    norm_num
  have hfloor := Nat.floor_le (div_nonneg hv.le hU.le)
  have hfloor' := Nat.lt_floor_add_one (v / 2 ^ (l - 23))
  have hn1 : ⌊v / 2 ^ (l - 23)⌋₊ < 16777216 :=
    (Nat.floor_lt' (by decide)).mpr ((div_lt_iff₀ hU).mpr (by exact_mod_cast hlt'))
  have hn0 : 8388608 ≤ ⌊v / 2 ^ (l - 23)⌋₊ := Nat.le_floor ((le_div_iff₀ hU).mpr (by exact_mod_cast hle'))
  rw [le_div_iff₀ hU] at hfloor
  rw [div_lt_iff₀ hU] at hfloor'
  generalize ⌊v / 2 ^ (l - 23)⌋₊ = n at hfloor hfloor' hn0 hn1
  have hk : (((l + 126).toNat : Nat) : Int) - 149 = l - 23 := by omega
  have hfin : (l + 126).toNat * 8388608 + n < 2139095040 := by omega
  refine ⟨f32OfMagnitude false ((l + 126).toNat * 8388608 + n), f32IsFinite_f32OfMagnitude_iff.mpr hfin, ?_⟩
  rw [f32ToRat_f32OfMagnitude hn1.le (fun _ => hn0) hfin, hk, abs_le]
  constructor <;> linarith

/-- A correctly rounded value below overflow and above the subnormals is within one part in `2^23` (R71). -/
theorem IsRoundedValue.abs_sub_le {v : Rat} {z : F32} (h : IsRoundedValue v z) (hlo : 2 ^ (-126 : Int) ≤ |v|)
    (hhi : |v| < overflowBound) : f32IsFinite z = true ∧ |f32ToRat z - v| ≤ |v| / 2 ^ 23 := by
  obtain ⟨y, hy, hnear⟩ : ∃ y : F32, f32IsFinite y = true ∧ |f32ToRat y - v| ≤ |v| / 2 ^ 23 := by
    obtain ⟨y, hy, hnear⟩ := exists_finite_near hlo hhi
    rcases abs_cases v with ⟨habs, -⟩ | ⟨habs, -⟩
    · exact ⟨y, hy, by rwa [habs] at hnear ⊢⟩
    · refine ⟨f32Neg y, by rwa [f32IsFinite_f32Neg], ?_⟩
      rw [habs, ← abs_neg] at hnear
      rw [habs, f32ToRat_f32Neg]
      convert hnear using 2
      ring
  have hfin := h.finite hhi
  rcases h with ⟨-, -, hall⟩ | ⟨rfl, -⟩ | ⟨rfl, -⟩
  · exact ⟨hfin, (hall y hy).1.trans hnear⟩
  · cases hfin
  · cases hfin

/-- Multiplying a quotient back by the divisor keeps its relative error. -/
theorem abs_mul_sub_le {x z q c : Rat} (hq : 0 < q) (h : |z - x / q| ≤ |x / q| / c) : |z * q - x| ≤ |x| / c := by
  have hz : z * q - x = (z - x / q) * q := by field_simp
  calc |z * q - x| = |z - x / q| * q := by rw [hz, abs_mul, abs_of_pos hq]
    _ ≤ |x / q| / c * q := mul_le_mul_of_nonneg_right h hq.le
    _ = |x| / c := by rw [abs_div, abs_of_pos hq, div_right_comm, div_mul_cancel₀ _ hq.ne']

/-- In the range of R81 the quotient and the product of the round trip are each within one part in `2^23`: the range keeps
both above the subnormals and below overflow. -/
theorem qmul_qdiv_near {x : F32} (q : Divisor) (hx : f32IsFinite x = true) (hmin : 1 / 2 ^ 100 ≤ |f32ToRat x|)
    (hmax : |f32ToRat x| ≤ 2 ^ 100) :
    f32IsFinite (numRef.qmul (numRef.qdiv x q) q) = true ∧
      |f32ToRat (numRef.qmul (numRef.qdiv x q) q) - f32ToRat x| ≤ 3 * |f32ToRat x| / 2 ^ 23 := by
  obtain ⟨hq, hqval⟩ := f32OfInt_exact q
  have hq1 : (1 : Rat) ≤ q.val := by exact_mod_cast q.pos
  have hq2 : (q.val : Rat) ≤ 32767 := by exact_mod_cast q.le
  have hq0 : (0 : Rat) < q.val := by linarith
  have habs : |f32ToRat x / q.val| = |f32ToRat x| / q.val := by rw [abs_div, abs_of_pos hq0]
  have hdiv := (divisionIsCorrectlyRounded x (f32OfInt q) hx hq (by rw [hqval]; exact hq0.ne')).1
  rw [hqval] at hdiv
  obtain ⟨hzfin, hz⟩ := hdiv.abs_sub_le
    (by rw [habs, le_div_iff₀ hq0]; norm_num at hmin ⊢; linarith)
    (by rw [habs, div_lt_iff₀ hq0]; norm_num [overflowBound] at hmax ⊢; linarith)
  have hmul := (multiplicationIsCorrectlyRounded (fdiv x (f32OfInt q)) (f32OfInt q) hzfin hq).1
  have hprod := abs_mul_sub_le hq0 hz
  rw [hqval] at hmul
  generalize f32ToRat (fdiv x (f32OfInt q)) * q.val = z at hmul hprod
  obtain ⟨hsmall, hlarge⟩ := abs_le.mp ((abs_abs_sub_abs_le z (f32ToRat x)).trans hprod)
  obtain ⟨hwfin, hw⟩ := hmul.abs_sub_le
    (by norm_num at hmin hsmall ⊢; linarith)
    (by norm_num [overflowBound] at hmax hlarge ⊢; linarith)
  refine ⟨hwfin, (abs_sub_le _ z _).trans ?_⟩
  have hpos := abs_nonneg (f32ToRat x)
  norm_num [numRef, refQmul, refQdiv] at hw hprod hlarge ⊢
  linarith

/-- Settles O51: a zero comes back exactly, and any other value within three parts in `2^23`. -/
theorem referenceHasQuantRoundTripProperty : Obligations.ReferenceHasQuantRoundTripProperty := by
  intro x q hx hord
  rcases hord with hzero | ⟨hmin, hmax⟩
  · have hx0 := abs_eq_zero.mp hzero
    rw [qmul_qdiv_of_exact hx hx (by rw [hx0, zero_mul]), Within, hx0]
    exact ⟨hx, by simp⟩
  · obtain ⟨hfin, hnear⟩ := qmul_qdiv_near q hx hmin hmax
    refine ⟨hfin, hnear.trans ?_⟩
    have hpos := abs_nonneg (f32ToRat x)
    norm_num [Config.tol]
    linarith

/-! ### Signed zeros and infinities -/

/-- Settles O43, line by line. -/
theorem signedZerosAndInfinities : Obligations.SignedZerosAndInfinities := by
  have hzero : significand 0 0 = 0 := rfl
  refine ⟨fun e f => ?_, rfl, rfl, fun s t e f => ?_, fun s t x hx => ?_, fun s x hx hx0 => ?_⟩
  · simp [fadd, signedInt]
  · simp [fmul, hzero, roundToF32]
  · obtain ⟨u, e, f, rfl⟩ := f32IsFinite_iff.mp hx
    exact ⟨rfl, rfl, if_pos rfl, rfl, rfl, rfl⟩
  · obtain ⟨u, e, f, rfl⟩ := f32IsFinite_iff.mp hx
    exact ⟨if_neg (significand_ne_zero hx0), if_neg (significand_ne_zero hx0)⟩

end Sys2Proof.Machine
end

section
/-! What the float commands leave in memory: the bits of a NaN (R72), and `NUM_REF`'s results on a platform that has it
(R74). -/

namespace Sys2Proof.Machine

/-! ### NaN -/

theorem fdiv_nan_right (x : F32) : fdiv x .nan = .nan := by cases x <;> rfl

theorem nanWord_toNat (d : Bool × Fin 8388607) :
    (nanWord d).toNat = d.1.toNat * 2147483648 + 255 * 8388608 + (d.2.val + 1) := by
  have hsign := Bool.toNat_le d.1
  rw [nanWord, BitVec.toNat_ofNat]
  omega

/-- A NaN encoding, as a number: exponent 255 and a fraction that is not 0 (R70). -/
theorem isNaN_fields_iff {w : Word} :
    (w.extractLsb' 23 8 = 255#8 ∧ w.extractLsb' 0 23 ≠ 0#23) ↔
      w.toNat / 8388608 % 256 = 255 ∧ w.toNat % 8388608 ≠ 0 := by
  simp [← BitVec.toNat_inj, BitVec.extractLsb'_toNat, Nat.shiftRight_eq_div_pow]

/-- The draws give every NaN encoding and nothing else (R72). -/
theorem exists_nanWord_iff {w : Word} :
    (∃ d, nanWord d = w) ↔ w.extractLsb' 23 8 = 255#8 ∧ w.extractLsb' 0 23 ≠ 0#23 := by
  rw [isNaN_fields_iff]
  constructor
  · rintro ⟨d, rfl⟩
    have hsign := Bool.toNat_le d.1
    have hfrac := d.2.isLt
    rw [nanWord_toNat]
    omega
  · rintro ⟨hexp, hfrac⟩
    have hw := w.isLt
    refine ⟨⟨decide (2147483648 ≤ w.toNat), ⟨w.toNat % 8388608 - 1, by omega⟩⟩, BitVec.eq_of_toNat_eq ?_⟩
    rw [nanWord_toNat]
    by_cases hneg : 2147483648 ≤ w.toNat
    · simp only [hneg, decide_true, Bool.toNat_true]
      omega
    · simp only [hneg, decide_false, Bool.toNat_false]
      omega

/-! ### What a float command stores -/

/-- A float command stores one value at each sample, with the NaN bits of one draw, and uses that draw (R72). -/
theorem exec_float_next {i : Instr} {s t : State} (hsz : sampleSize i = 4) (h : exec i s = .next t) :
    ∃ l, ∃ value : Nat → Nat → Fin 8 → Fin 8 → Nat → F32, launchOf i s.engine = some l ∧
      t = (complete s (s.mem.writeAll (blockCells l.dst l.dst.blocks fun y x a b addr =>
        storeF32 s addr (value y x a b addr)))).afterDraw := by
  cases i with
  | dct8x8 | idct8x8 | qntf | deqf =>
    obtain ⟨l, hl, -, -, hf⟩ := runCommand_next (f := fun l => completeFloat s _) h
    cases hf
    exact ⟨l, _, hl, rfl⟩
  | qnts | deqs => cases hsz

/-- The word that a float command leaves at a sample whose value is then a NaN is the draw's (R72). -/
theorem read32_of_nan {s : State} {g : Region} (hm : s.mem.wf) (hsz : g.size = 4) (hs : g.width ≤ g.stride)
    {value : Nat → Nat → Fin 8 → Fin 8 → Nat → F32} {y x : Nat} (hb : (y, x) ∈ g.blocks) {a b : Fin 8}
    (hnan : readF32 (s.mem.writeAll (blockCells g g.blocks fun y x a b addr => storeF32 s addr (value y x a b addr)))
      (g.blockAddr y x a b) = .nan) :
    (s.mem.writeAll (blockCells g g.blocks fun y x a b addr => storeF32 s addr (value y x a b addr))).read32
      (g.blockAddr y x a b) = nanWord (Config.freeNan s.draws (g.blockAddr y x a b)) := by
  have hbytes := Memory.read_blockCells_inside (cells := fun y x a b addr => storeF32 s addr (value y x a b addr))
    hm hs (fun _ _ _ _ _ _ hc => by rw [hsz]; exact mem_storeF32 hc) (fun _ _ _ _ _ => cells32_unique) hb (i := a)
    (j := b)
  rw [readF32_of_storeF32 hbytes] at hnan
  rw [Memory.read32_of_bytes hbytes, hnan, f32ToBits, nanBitsAt]

/-- Settles O44. -/
theorem invalidOperationsGiveNaN : Obligations.InvalidOperationsGiveNaN := by
  refine ⟨fun x => ⟨rfl, fadd_nan_right x, rfl, fmul_nan_right x, rfl, fdiv_nan_right x⟩,
    fun s t u => ⟨by simp [fadd], rfl, rfl, rfl, rfl⟩, fun d => ?_, fun w hexp hfrac => ?_,
    fun i s t src dst stride w h hsz hr he => ?_⟩
  · obtain ⟨hexp, hfrac⟩ := exists_nanWord_iff.mp ⟨d, rfl⟩
    exact ⟨hexp, hfrac, rfl⟩
  · obtain ⟨d, rfl⟩ := exists_nanWord_iff.mpr ⟨hexp, hfrac⟩
    exact ⟨f32OfBits_nanWord d, d, rfl⟩
  · obtain ⟨l, value, hl, rfl⟩ := exec_float_next hsz he
    obtain ⟨ho, ⟨-, hs, -⟩, -, hm⟩ := hr
    obtain rfl : launchWords i src dst stride w h = l := Option.some.inj ((launchOf_of_holds ho).symm.trans hl)
    exact ⟨rfl, fun y x hy hx a b hnan => read32_of_nan hm hsz hs (Region.mem_blocks.mpr ⟨hy, hx⟩) hnan⟩

/-! ### The reference platform -/

theorem platformNum_reference {p : Platform} (h : p.numerics = .reference) : platformNum p = numRef := by
  rw [platformNum, h]

/-- Settles O60: each command's block is `commandBlock` of its source block, with `NUM_REF` for the numerics. -/
theorem referencePlatformRunsNumRef : Obligations.ReferencePlatformRunsNumRef := by
  refine ⟨fun _ => platformNum_reference, fun s t i src dst stride w h href hr he y x hy hx a b => ?_⟩
  have hnum := platformNum_reference href
  obtain ⟨⟨hsrc, -⟩, -⟩ := id hr
  have hblock := congrFun₂ (sampleBlock_exec hr he hy hx) a b
  refine ⟨?_, ?_, ?_, ?_⟩ <;> rintro rfl <;> simp only [commandBlock, hnum] at hblock
  · exact Sum.inl.inj hblock
  · exact Sum.inl.inj hblock
  · obtain rfl : src = dst := hsrc
    exact Sum.inl.inj hblock
  · obtain rfl : src = dst := hsrc
    exact Sum.inl.inj hblock

end Sys2Proof.Machine
end
